-- ==== Sys2Proof/Word.lean ====
section
/-! DEFINITION. The word types of TBFDEC: the bit, the byte and the pixel code (`00_scope.md` R5, R9). -/

namespace Sys2Proof

/-- A one-bit field: `FMT`, `CMP`, a Monochrome pixel code (R5). -/
abbrev Bit := BitVec 1

/-- A byte of a buffer, and a duration in ticks (R41, R101). -/
abbrev Byte := BitVec 8

/-- A pixel code as the frame store keeps it: an EightColor code, or a Monochrome code zero-extended (R42, R165). -/
abbrev Code := BitVec 3

end Sys2Proof
end

