-- ==== Sys2Proof/Config.lean ====
section
/-! DEFINITION. What a build of TBFDEC fixes (`00_scope.md` R5, R6; `10_state.md` R44) and the model's free values. -/

namespace Sys2Proof

/-- `PAYLOAD_ALIGN` (R6, D8): where a compressed payload starts. -/
inductive PayloadAlign where
  /-- The compressed bytes follow the header's last bit with no gap (R202, the default). -/
  | bitAdjacent
  /-- They start at the next byte boundary (R203). -/
  | byteAligned
deriving DecidableEq, Repr, Inhabited

/-- The grain at which a header is taken (D2 allows either; DESIGN CHOICE, log entry 4). -/
inductive Grain where
  /-- One step per header field: R140 to R145. -/
  | perField
  /-- One step for a header that is wholly unread: R147, the rows `HDR_L1` to `HDR_L16`. -/
  | wholeHeader
deriving DecidableEq, Repr, Inhabited

/-- The build parameters of R6 and R44 that are plain data. They never change; State carries them so that a
statement about every state is a statement about every build (DESIGN CHOICE, log entry 1). -/
structure Build where
  /-- `CURSOR_W`: width of `CUR`, `LIMIT`, `REMAIN`, `ERRPOS`, `NFRAMES`; `STREAM_LEN` has three bits fewer.
  R6 gives no least width; below 3, `STREAM_LEN` has no bit (DESIGN CHOICE, log entry 26). -/
  cursorW : Nat
  /-- `MAX_FRAMES`: capacity of the frame store, `none` for unbounded. -/
  maxFrames : Option Nat
  /-- `PAYLOAD_ALIGN`. -/
  payloadAlign : PayloadAlign
  /-- Grain of the header steps. -/
  grain : Grain
deriving DecidableEq, Repr, Inhabited

namespace Config

/-- The defaults of R6: `CURSOR_W` 64, `MAX_FRAMES` none, `PAYLOAD_ALIGN` bit_adjacent; and one step per field (R177). -/
def defaultBuild : Build :=
  { cursorW := 64, maxFrames := none, payloadAlign := .bitAdjacent, grain := .perField }

/-- `L_FLOOR` (R6, R231, D12): the least `L` the reference encoder emits. -/
def lFloor : Nat := 1

/-- Milliseconds of one duration tick (R5). -/
def tickMs : Nat := 10

/-- `Inflate` (R6, R44, R204): the external decompressor, a function from a byte list to a byte list or `fail`
(`none`). A free value: every answer is admitted (U10, log entry 3). -/
opaque inflate : List Byte → Option (List Byte)

/-- What a host read of `DUR[f]` with `DURV[f] = 0` returns (R215, U6 "any value"): a free value for each such
read, the argument counting them (log entry 9). -/
opaque unsetDuration : Nat → Byte

end Config

end Sys2Proof
end

