-- ==== Sys2Proof/Syntax.lean ====
section
/-! DEFINITION. The stream elements (this hardware's instructions), one constructor per row of
`spec/opcode_table.json`, and what selects an element (`30_encoding.md` R92, R104; `10_state.md` R25). -/

namespace Sys2Proof

/-- The sequencer states of R25; the values 14 and 15, never entered, have no name. -/
inductive Phase where
  | idle | hFmt | hCmp | hLen | hWidth | hHeight | hCheck | pSelect
  | fTest | fPixel | dTest | dRead | done | error
deriving DecidableEq, Repr, Inhabited

/-- A stream element with the bits it carries, or a sequencer operation that consumes no bits (R104). -/
inductive Instr where
  /-- `HDR_L1`: a whole header with `L = 1` (R92); `f` is `FMT`, `c` is `CMP`, `w` is `WM1`, `h` is `HM1`. -/
  | hdrL1 (f c : Bit) (w h : BitVec 1)
  | hdrL2 (f c : Bit) (w h : BitVec 2)
  | hdrL3 (f c : Bit) (w h : BitVec 3)
  | hdrL4 (f c : Bit) (w h : BitVec 4)
  | hdrL5 (f c : Bit) (w h : BitVec 5)
  | hdrL6 (f c : Bit) (w h : BitVec 6)
  | hdrL7 (f c : Bit) (w h : BitVec 7)
  | hdrL8 (f c : Bit) (w h : BitVec 8)
  | hdrL9 (f c : Bit) (w h : BitVec 9)
  | hdrL10 (f c : Bit) (w h : BitVec 10)
  | hdrL11 (f c : Bit) (w h : BitVec 11)
  | hdrL12 (f c : Bit) (w h : BitVec 12)
  | hdrL13 (f c : Bit) (w h : BitVec 13)
  | hdrL14 (f c : Bit) (w h : BitVec 14)
  | hdrL15 (f c : Bit) (w h : BitVec 15)
  | hdrL16 (f c : Bit) (w h : BitVec 16)
  /-- `FMT`, operation `RD_FMT` (R140). -/
  | fmt (f : Bit)
  /-- `CMP`, operation `RD_CMP` (R141). -/
  | cmp (c : Bit)
  /-- `LEN`, operation `RD_LEN` (R142). -/
  | len (l : BitVec 4)
  /-- `WM1`, operation `RD_WIDTH` (R143): width minus one, `L = LEN + 1` bits in the stream. -/
  | wm1 (w : BitVec 16)
  /-- `HM1`, operation `RD_HEIGHT` (R144): height minus one, `L` bits in the stream. -/
  | hm1 (h : BitVec 16)
  /-- `PIX1`, operation `RD_PIX1` (R99, R173). -/
  | pix1 (v : Bit)
  /-- `PIX3`, operation `RD_PIX3` (R100, R173): the code `R<<2 | G<<1 | B`. -/
  | pix3 (c : Code)
  /-- `DUR`, operation `RD_DUR` (R101, R175). -/
  | dur (d : Byte)
  /-- `CBYTE`, operation `SEL_INFLATE` (R103, R202): all the whole compressed bytes, lifted in one step. -/
  | cbyte (bytes : List Byte)
  /-- `PAD` (R102, R176): the `n` residue bits, never read. -/
  | pad (n : Nat)
  /-- `HDR_CHECK` (R145). -/
  | hdrCheck
  /-- `SEL_RAW` (R200). -/
  | selRaw
  /-- `FRAME_TEST` (R171, R172). -/
  | frameTest
  /-- `DUR_TEST` (R174). -/
  | durTest
deriving DecidableEq, Repr

/-- What decides which element stands at the cursor and how wide it is (R104, R105): never the bits themselves,
but for the `LEN` bits of a header taken whole. -/
structure Ctx where
  /-- `STATE`. -/
  phase : Phase
  /-- `FMT`. -/
  fmt : Bit
  /-- `CMP`. -/
  cmp : Bit
  /-- `LEN`; where a header is taken whole, its own four `LEN` bits. -/
  len : BitVec 4
  /-- A header that is wholly unread is taken as one element (`HDR_L1` to `HDR_L16`). -/
  whole : Bool
  /-- `REMAINING`. -/
  rem : Nat
  /-- The bits skipped before a compressed payload: 0, or those to the byte boundary under `byte_aligned` (R203). -/
  skip : Nat
deriving DecidableEq, Repr

end Sys2Proof
end

