-- ==== Sys2Proof/WellFormed.lean ====
section
/-! DEFINITION. Which elements can stand at the cursor in a context (`30_encoding.md` R104), and whether their
operands fit the element's width. -/

namespace Sys2Proof

/-- `wellFormed c i`: the element `i` is the one selected in `c` (R104, the table's `selected_by`), and its
operand fits: `WM1` and `HM1` in `L = LEN + 1` bits (R97), `CBYTE` every whole byte (R202, R203), `PAD` every residue bit (R102). -/
def wellFormed (c : Ctx) : Instr → Bool
  | .hdrL1 .. | .hdrL2 .. | .hdrL3 .. | .hdrL4 .. | .hdrL5 .. | .hdrL6 .. | .hdrL7 .. | .hdrL8 ..
  | .hdrL9 .. | .hdrL10 .. | .hdrL11 .. | .hdrL12 .. | .hdrL13 .. | .hdrL14 .. | .hdrL15 .. | .hdrL16 .. =>
    decide (c.phase = .hFmt) && c.whole
  | .fmt _ => decide (c.phase = .hFmt) && !c.whole
  | .cmp _ => decide (c.phase = .hCmp)
  | .len _ => decide (c.phase = .hLen)
  | .wm1 w => decide (c.phase = .hWidth) && decide (w.toNat < 2 ^ (c.len.toNat + 1))
  | .hm1 h => decide (c.phase = .hHeight) && decide (h.toNat < 2 ^ (c.len.toNat + 1))
  | .pix1 _ => decide (c.phase = .fPixel) && decide (c.fmt = 0)
  | .pix3 _ => decide (c.phase = .fPixel) && decide (c.fmt = 1)
  | .dur _ => decide (c.phase = .dRead)
  | .cbyte bytes => decide (c.phase = .pSelect) && decide (c.cmp = 1) && decide (bytes.length = (c.rem - c.skip) / 8)
  | .pad n => decide (c.phase = .done) && decide (n = c.rem)
  | .hdrCheck => decide (c.phase = .hCheck)
  | .selRaw => decide (c.phase = .pSelect) && decide (c.cmp = 0)
  | .frameTest => decide (c.phase = .fTest)
  | .durTest => decide (c.phase = .dTest)

end Sys2Proof
end

