-- ==== Sys2Proof/Decode.lean ====
section
/-! DEFINITION. Bits to elements and back (`30_encoding.md` R90 to R105, `00_scope.md` R12): the bit lists, the
decoder, total on any bits, and the encoder. -/

namespace Sys2Proof

/-! ## Bit lists in stream order, first bit leftmost (R11, R12) -/

/-- The `n` low bits of `v`, most significant first: what `WriteBits(n, v)` appends (R239). -/
def bitsOfNat : Nat → Nat → List Bool
  | 0, _ => []
  | n + 1, v => v.testBit n :: bitsOfNat n v

/-- The unsigned value of a field, its first stream bit most significant (R12, the loop of R130). -/
def natOfBits (bits : List Bool) : Nat :=
  bits.foldl (fun v b => 2 * v + b.toNat) 0

/-- The stream of a byte list: bytes in address order, each most significant bit first (R62). -/
def bitsOfBytes (bytes : List Byte) : List Bool :=
  bytes.flatMap fun b => bitsOfNat 8 b.toNat

/-- `k` bytes cut from the front of a bit list, each first bit most significant (R133). -/
def bytesOfBits : Nat → List Bool → List Byte
  | 0, _ => []
  | k + 1, bits => BitVec.ofNat 8 (natOfBits (bits.take 8)) :: bytesOfBits k (bits.drop 8)

/-- Zero bits up to the next byte boundary appended: the `Finish` of R239, the pads of R103 and R237. -/
def padToByte (bits : List Bool) : List Bool :=
  bits ++ List.replicate ((8 - bits.length % 8) % 8) false

/-- A bit list zero-padded to whole bytes, as bytes (R238, R239). -/
def finishBytes (bits : List Bool) : List Byte :=
  bytesOfBits ((padToByte bits).length / 8) (padToByte bits)

/-- The value of the `n`-bit field that starts at bit `start` (R12). -/
def field (bits : List Bool) (start n : Nat) : Nat :=
  natOfBits ((bits.drop start).take n)

/-! ## The decoder -/

/-- Why bits are no element. -/
inductive Reject where
  /-- `STATE` selects no element: `IDLE` and `ERROR` have no step (R25, R177). -/
  | noElement
  /-- Fewer bits than the selected element's width. -/
  | short (need available : Nat)
deriving DecidableEq, Repr

/-- The header format of a `LEN` value, with its fields (R92). -/
def headerInstr (l : Nat) (f c : Bit) (w h : Nat) : Instr :=
  match l with
  | 0 => .hdrL1 f c (.ofNat 1 w) (.ofNat 1 h)
  | 1 => .hdrL2 f c (.ofNat 2 w) (.ofNat 2 h)
  | 2 => .hdrL3 f c (.ofNat 3 w) (.ofNat 3 h)
  | 3 => .hdrL4 f c (.ofNat 4 w) (.ofNat 4 h)
  | 4 => .hdrL5 f c (.ofNat 5 w) (.ofNat 5 h)
  | 5 => .hdrL6 f c (.ofNat 6 w) (.ofNat 6 h)
  | 6 => .hdrL7 f c (.ofNat 7 w) (.ofNat 7 h)
  | 7 => .hdrL8 f c (.ofNat 8 w) (.ofNat 8 h)
  | 8 => .hdrL9 f c (.ofNat 9 w) (.ofNat 9 h)
  | 9 => .hdrL10 f c (.ofNat 10 w) (.ofNat 10 h)
  | 10 => .hdrL11 f c (.ofNat 11 w) (.ofNat 11 h)
  | 11 => .hdrL12 f c (.ofNat 12 w) (.ofNat 12 h)
  | 12 => .hdrL13 f c (.ofNat 13 w) (.ofNat 13 h)
  | 13 => .hdrL14 f c (.ofNat 14 w) (.ofNat 14 h)
  | 14 => .hdrL15 f c (.ofNat 15 w) (.ofNat 15 h)
  | _ => .hdrL16 f c (.ofNat 16 w) (.ofNat 16 h)

/-- A header read whole: `FMT` at bit 0, `CMP` at 1, `LEN` at 2..5, `WM1` at 6..5+L, `HM1` at 6+L..5+2L (R91, R92). -/
def decodeHeader (bits : List Bool) : Except Reject (Instr × List Bool) :=
  if bits.length < 6 then .error (.short 6 bits.length)
  else
    let l := field bits 2 4
    if bits.length < 6 + 2 * (l + 1) then .error (.short (6 + 2 * (l + 1)) bits.length)
    else
      .ok (headerInstr l (.ofNat 1 (field bits 0 1)) (.ofNat 1 (field bits 1 1))
            (field bits 6 (l + 1)) (field bits (6 + (l + 1)) (l + 1)),
          bits.drop (6 + 2 * (l + 1)))

/-- One unsigned field of `n` bits, or a rejection. -/
def decodeField (n : Nat) (mk : Nat → Instr) (bits : List Bool) : Except Reject (Instr × List Bool) :=
  if bits.length < n then .error (.short n bits.length) else .ok (mk (field bits 0 n), bits.drop n)

/-- Whole compressed bytes at the cursor (R202, R203): `(REMAINING - skip) div 8`. -/
def compressedBytes (c : Ctx) : Nat := (c.rem - c.skip) / 8

/-- How many stream bits the selected element's decoding reads (R104); the residue is never read (R102, R131). -/
def elementWidth (c : Ctx) : Nat :=
  match c.phase with
  | .hFmt => if c.whole then 6 + 2 * (c.len.toNat + 1) else 1
  | .hCmp => 1
  | .hLen => 4
  | .hWidth | .hHeight => c.len.toNat + 1
  | .pSelect => if c.cmp = 1 then c.skip + 8 * compressedBytes c else 0
  | .fPixel => if c.fmt = 1 then 3 else 1
  | .dRead => 8
  | .idle | .hCheck | .fTest | .dTest | .done | .error => 0

/-- The element the unread bits begin with in a context, and the bits after it (R104). Total: every bit list
of the width is an element (R106). -/
def decode (c : Ctx) (bits : List Bool) : Except Reject (Instr × List Bool) :=
  match c.phase with
  | .idle | .error => .error .noElement
  | .hFmt => if c.whole then decodeHeader bits else decodeField 1 (fun v => .fmt (.ofNat 1 v)) bits
  | .hCmp => decodeField 1 (fun v => .cmp (.ofNat 1 v)) bits
  | .hLen => decodeField 4 (fun v => .len (.ofNat 4 v)) bits
  | .hWidth => decodeField (c.len.toNat + 1) (fun v => .wm1 (.ofNat 16 v)) bits
  | .hHeight => decodeField (c.len.toNat + 1) (fun v => .hm1 (.ofNat 16 v)) bits
  | .hCheck => .ok (.hdrCheck, bits)
  | .pSelect =>
    if c.cmp = 1 then
      if bits.length < elementWidth c then .error (.short (elementWidth c) bits.length)
      else .ok (.cbyte (bytesOfBits (compressedBytes c) (bits.drop c.skip)), bits.drop (elementWidth c))
    else .ok (.selRaw, bits)
  | .fTest => .ok (.frameTest, bits)
  | .fPixel =>
    if c.fmt = 1 then decodeField 3 (fun v => .pix3 (.ofNat 3 v)) bits
    else decodeField 1 (fun v => .pix1 (.ofNat 1 v)) bits
  | .dTest => .ok (.durTest, bits)
  | .dRead => decodeField 8 (fun v => .dur (.ofNat 8 v)) bits
  | .done => .ok (.pad c.rem, bits.drop c.rem)

/-- The decoder on bytes: the element a byte buffer's stream begins with in a context (R62). -/
def decodeBytes (c : Ctx) (bytes : List Byte) : Except Reject (Instr × List Bool) :=
  decode c (bitsOfBytes bytes)

/-! ## The encoder, from the same tables -/

/-- Header bits in the order of R91, as `ENC_HDR` writes them (R232): `f`, `c`, `L - 1`, `w`, `h`. -/
def headerBits (n : Nat) (f c : Bit) (w h : BitVec n) : List Bool :=
  bitsOfNat 1 f.toNat ++ bitsOfNat 1 c.toNat ++ bitsOfNat 4 (n - 1) ++ bitsOfNat n w.toNat ++ bitsOfNat n h.toNat

/-- The stream bits of an element in a context: the fields of R91, R99 to R103, each most significant bit first;
the skip before compressed bytes and the residue are written as zeros (R102, R103, R237). -/
def encode (c : Ctx) : Instr → List Bool
  | .hdrL1 f m w h => headerBits 1 f m w h
  | .hdrL2 f m w h => headerBits 2 f m w h
  | .hdrL3 f m w h => headerBits 3 f m w h
  | .hdrL4 f m w h => headerBits 4 f m w h
  | .hdrL5 f m w h => headerBits 5 f m w h
  | .hdrL6 f m w h => headerBits 6 f m w h
  | .hdrL7 f m w h => headerBits 7 f m w h
  | .hdrL8 f m w h => headerBits 8 f m w h
  | .hdrL9 f m w h => headerBits 9 f m w h
  | .hdrL10 f m w h => headerBits 10 f m w h
  | .hdrL11 f m w h => headerBits 11 f m w h
  | .hdrL12 f m w h => headerBits 12 f m w h
  | .hdrL13 f m w h => headerBits 13 f m w h
  | .hdrL14 f m w h => headerBits 14 f m w h
  | .hdrL15 f m w h => headerBits 15 f m w h
  | .hdrL16 f m w h => headerBits 16 f m w h
  | .fmt f => bitsOfNat 1 f.toNat
  | .cmp m => bitsOfNat 1 m.toNat
  | .len l => bitsOfNat 4 l.toNat
  | .wm1 w => bitsOfNat (c.len.toNat + 1) w.toNat
  | .hm1 h => bitsOfNat (c.len.toNat + 1) h.toNat
  | .pix1 v => bitsOfNat 1 v.toNat
  | .pix3 v => bitsOfNat 3 v.toNat
  | .dur d => bitsOfNat 8 d.toNat
  | .cbyte bytes => List.replicate c.skip false ++ bitsOfBytes bytes
  | .pad n => List.replicate n false
  | .hdrCheck | .selRaw | .frameTest | .durTest => []

/-! ## The opcode table's words (DESIGN CHOICE, log entry 12) -/

/-- The context of a stream's first element, its header taken whole (R90, R92). -/
def headerCtx : Ctx :=
  { phase := .hFmt, fmt := 0, cmp := 0, len := 0, whole := true, rem := 40, skip := 0 }

/-- Whole bytes that hold `n` bits, in bits. -/
def byteBits (n : Nat) : Nat := (n + 7) / 8 * 8

/-- `w`, numbered as the table numbers the row `HDR_L<L>` (its last stream bit is bit 0), is a word of that row:
its `LEN` bits, bits `2L+3` to `2L`, hold `L - 1`; `nbits` is the row's width, or the width up to its `LEN` bits,
in whole bytes. -/
def rowFits (nbits w L : Nat) : Bool :=
  (nbits == byteBits (6 + 2 * L) || nbits == byteBits (4 + 2 * L)) &&
    decide (w < 2 ^ (6 + 2 * L)) && (w / 2 ^ (2 * L) % 16 == L - 1)

/-- The header row a table word belongs to, by its `L`; the longest where two fit. -/
def tableRow (nbits w : Nat) : Option Nat :=
  [16, 15, 14, 13, 12, 11, 10, 9, 8, 7, 6, 5, 4, 3, 2, 1].find? (rowFits nbits w)

/-- The stream bits of a table word, in stream order. -/
def tableBits (nbits w : Nat) : List Bool :=
  match tableRow nbits w with
  | some L => bitsOfNat (6 + 2 * L) w
  | none => bitsOfNat nbits w

/-- The bytes of a table word as the stream buffer holds them, zero bits after it up to the longest
element of fixed width (`HDR_L16`, 38 bits, five bytes). -/
def tableBytes (nbits w : Nat) : List Byte :=
  finishBytes (tableBits nbits w ++ List.replicate (40 - (tableBits nbits w).length) false)

/-- The instruction the decoder reads from a table word laid out as a stream: the first element after `START`
is a header, so a word that is no header row's is refused (`STATE`, not the bits, selects the other rows: R104). -/
def decodeTableWord (nbits w : Nat) : Option Instr :=
  match tableRow nbits w with
  | none => none
  | some _ =>
    match decodeBytes headerCtx (tableBytes nbits w) with
    | .ok (i, _) => some i
    | .error _ => none

end Sys2Proof
end

