-- ==== Sys2Proof/Machine/State.lean ====
section
/-! DEFINITION. The state of TBFDEC (`10_state.md` R20 to R45), the host's actions (`45_host_commands.md`), why a
step can stop, and the state after reset. -/

namespace Sys2Proof.Machine

/-- A byte buffer, `SB` or `IB` (R41, R60): the bytes that have a value, addresses strictly rising. An unlisted
address has NO value (R282, U7; log entry 7): reading it stops the step with a fault. -/
abbrev Memory := List Host.Cell

/-- The canonical form of a buffer: addresses strictly rising, hence one cell an address. -/
abbrev Memory.wf (m : Memory) : Prop := m.Pairwise fun a b => a.1 < b.1

/-- The current source (R23): `SRC` 0 is `SB`, 1 is `IB`. -/
inductive Source where
  | sb | ib
deriving DecidableEq, Repr, Inhabited

/-- `ERRCODE` (R37, R250); the values 6 and 7 never occur and have no name. -/
inductive ErrCode where
  | none | invalidFormat | malformedHeader | truncatedStream | inflateFault | capacityExceeded
deriving DecidableEq, Repr, Inhabited

/-- One frame of the frame store (R42): its codes in linear order `i = y*WIDTH + x`, and `DURV`/`DUR` as an
optional duration (`none` is `DURV = 0`). -/
structure Frame where
  pix : List Code
  dur : Option Byte
deriving DecidableEq, Repr, Inhabited

/-- The thirteen host-visible registers (R34). -/
inductive HostReg where
  | ctrl | status | errcode | errpos | streamLen | fmt | cmp | len | width | height | frameBits | nframes | remain
deriving DecidableEq, Repr, Inhabited

/-- What the host can do in one turn (R210 to R217, R280). -/
inductive HostAction where
  /-- Write a byte of `SB` (`LOAD`, R212). -/
  | writeSb (addr : Nat) (v : Byte)
  /-- Write a register: `START` and `SRST` are writes of `CTRL` (R35), `LOAD` ends with one of `STREAM_LEN`. -/
  | writeReg (r : HostReg) (v : Nat)
  /-- Read a register (`POLL` R214, `FETCH` R215). -/
  | readReg (r : HostReg)
  /-- Read the code `pix[f][y][x]` (R215). -/
  | readPix (f y x : Nat)
  /-- Read `DURV[f]` (R215). -/
  | readDurv (f : Nat)
  /-- Read `DUR[f]` (R215). -/
  | readDur (f : Nat)
  /-- The reset of R280 as a host-visible action. -/
  | reset
deriving DecidableEq, Repr, Inhabited

/-- The state: every register and memory of R20, then the model's own fields. The registers of `CURSOR_W` bits
are natural numbers, as R9 computes with them; that they fit their width is an invariant (R47 a; log entry 2). -/
structure State where
  /-- `STATE` (R25). -/
  phase : Phase
  /-- `CUR` (R21): the next unread bit of the current source; the program counter. -/
  cur : Nat
  /-- `LIMIT` (R22): the bits of the current source. -/
  limit : Nat
  /-- `SRC` (R23). -/
  src : Source
  /-- `X` (R24): column of the next pixel. -/
  x : BitVec 16
  /-- `Y` (R24): row of the next pixel. -/
  y : BitVec 16
  /-- `FMT` (R26). -/
  fmt : Bit
  /-- `CMP` (R27). -/
  cmp : Bit
  /-- `LEN` (R28): `L - 1`. -/
  len : BitVec 4
  /-- `WIDTH` (R29). -/
  width : BitVec 17
  /-- `HEIGHT` (R30). -/
  height : BitVec 17
  /-- `FRAME_BITS` (R31). -/
  frameBits : BitVec 34
  /-- `NFRAMES` (R32): frames completed; the index of the frame being decoded. -/
  nframes : Nat
  /-- `STREAM_LEN` (R33): bytes of `SB` the next run reads. -/
  streamLen : Nat
  /-- `ERRCODE` (R37). -/
  errcode : ErrCode
  /-- `ERRPOS` (R38). -/
  errpos : Nat
  /-- `SB`, the stream buffer (R41). -/
  sb : Memory
  /-- `IB`, the inflate buffer (R41). -/
  ib : Memory
  /-- `FS`, the frame store (R42): the frames begun in this run, the one being decoded last. -/
  fs : List Frame
  /-- The build parameters (R6, R44): the model's own field, constant (log entry 1). -/
  build : Build
  /-- The host's pending turns, oldest first, `none` a turn it passes: the model's own field (log entry 5). -/
  hostTurns : List (Option HostAction)
  /-- What the host's last read returned: the model's own field (log entry 6). -/
  hostData : Option Nat
  /-- How many unset durations the host has read, the argument of the free value `Config.unsetDuration`: the
  model's own field (log entry 9). -/
  freeReads : Nat
  /-- Whether the run's results have been handed over (R69, R286): a `STATUS` read since the run's end has returned
  `DONE` or `ERR`. The model's own field, the record of that read (log entry 27). -/
  handedOver : Bool
deriving DecidableEq, Repr

/-- The model's own faults. No run the spec allows reaches one (R47, R131, R213); each errs to the safe side. -/
inductive Fault where
  /-- The decoder read a byte of its source that has no value. Raised by the step's fetch. Safe: `START` over
  such a byte is refused (R213), so no run reads one. -/
  | unwrittenByte
  /-- A payload element was taken with fewer unread bits than its width. Raised by `PIX1`, `PIX3`, `DUR`. Safe:
  `FRAME_TEST` and `DUR_TEST` make it impossible in a run (R131 b, R47 d). -/
  | readPastLimit
  /-- A frame store cell that does not exist was addressed (R42). Raised by `PIX1`, `PIX3`, `DUR` and the host's
  frame store reads. Safe: the frame being decoded has every cell (R47 d, h). -/
  | noSuchCell
deriving DecidableEq, Repr

/-- Why the model gives a step no meaning. -/
inductive Refusal where
  /-- An instruction with no meaning yet, by its mnemonic. Raised by `exec`'s arms only. Safe. -/
  | notModelled (mnemonic : String)
  /-- A host write of `SB` or `STREAM_LEN` while `BUSY` (R213, R70). Safe. -/
  | hostWriteWhileBusy
  /-- A host read of a result or error register while `BUSY` (R213). Safe. -/
  | hostReadWhileBusy
  /-- A host read of a result or error register, or of `FS`, in `DONE` or `ERROR` before a `STATUS` read has returned
  `DONE` or `ERR` (R286). Safe. -/
  | hostReadBeforePoll
  /-- A host read of `FS` outside `DONE` or out of range (R213). Safe. -/
  | frameStoreRead
  /-- `START` with a byte of `SB` below `STREAM_LEN` never written (R213, R282). Safe. -/
  | launchOverUnwritten
  /-- `Inflate` returned a list with `8*len >= 2^CURSOR_W` (R213, D10). Raised by `CBYTE`. Safe. -/
  | inflateTooLong
deriving DecidableEq, Repr

/-- What a step or a meaning answers. -/
abbrev Res := Host.Outcome State Fault Refusal

/-- The state after reset (R45, R280): `IDLE`, every register 0, `FS` empty, no byte of `SB` or `IB` with a value
(R282); the build's defaults (R6) and no host turn pending, nothing handed over (log entries 1, 5, 6,
9, 27). -/
def State.reset : State where
  phase := .idle
  cur := 0
  limit := 0
  src := .sb
  x := 0
  y := 0
  fmt := 0
  cmp := 0
  len := 0
  width := 0
  height := 0
  frameBits := 0
  nframes := 0
  streamLen := 0
  errcode := .none
  errpos := 0
  sb := []
  ib := []
  fs := []
  build := Config.defaultBuild
  hostTurns := []
  hostData := none
  freeReads := 0
  handedOver := false

end Sys2Proof.Machine
end

