-- ==== Sys2Proof/Machine/Flags.lean ====
section
/-! DEFINITION. The numbers of the host-visible registers: `STATE`, `STATUS` with its flags, `ERRCODE`, register
ids (`10_state.md` R25, R34 to R37, R40). -/

namespace Sys2Proof.Machine

/-- The value of `STATE` (R25). -/
def phaseCode : Phase → BitVec 4
  | .idle => 0
  | .hFmt => 1
  | .hCmp => 2
  | .hLen => 3
  | .hWidth => 4
  | .hHeight => 5
  | .hCheck => 6
  | .pSelect => 7
  | .fTest => 8
  | .fPixel => 9
  | .dTest => 10
  | .dRead => 11
  | .done => 12
  | .error => 13

/-- `BUSY = (1 <= STATE <= 11)` (R36). -/
def phaseBusy (p : Phase) : Bool :=
  decide (1 ≤ (phaseCode p).toNat) && decide ((phaseCode p).toNat ≤ 11)

/-- The flag `BUSY` of a state (R36, R40). -/
def State.busy (s : State) : Bool := phaseBusy s.phase

/-- The flag `DONE` (R36). -/
def State.doneFlag (s : State) : Bool := decide (s.phase = .done)

/-- The flag `ERR` (R36). -/
def State.errFlag (s : State) : Bool := decide (s.phase = .error)

/-- `STATUS` (R36): bit 0 `BUSY`, bit 1 `DONE`, bit 2 `ERR`, bit 3 zero, bits 7:4 `STATE`. -/
def State.status (s : State) : BitVec 8 :=
  phaseCode s.phase ++ (0#1 ++ BitVec.ofBool s.errFlag ++ BitVec.ofBool s.doneFlag ++ BitVec.ofBool s.busy)

/-- The value of `ERRCODE` (R37, R250). -/
def errNumber : ErrCode → BitVec 3
  | .none => 0
  | .invalidFormat => 1
  | .malformedHeader => 2
  | .truncatedStream => 3
  | .inflateFault => 4
  | .capacityExceeded => 5

/-- The value of `SRC` (R23). -/
def sourceCode : Source → BitVec 1
  | .sb => 0
  | .ib => 1

/-- The id of a host register (R34). -/
def hostRegId : HostReg → Nat
  | .ctrl => 0
  | .status => 1
  | .errcode => 2
  | .errpos => 3
  | .streamLen => 4
  | .fmt => 5
  | .cmp => 6
  | .len => 7
  | .width => 8
  | .height => 9
  | .frameBits => 10
  | .nframes => 11
  | .remain => 12

/-- The width of a host register in a build (R34); `STREAM_LEN` has no bit where `CURSOR_W` is below 3 (DESIGN CHOICE,
log entry 26). -/
def hostRegWidth (b : Build) : HostReg → Nat
  | .ctrl => 2
  | .status => 8
  | .errcode => 3
  | .errpos | .nframes | .remain => b.cursorW
  | .streamLen => b.cursorW - 3
  | .fmt | .cmp => 1
  | .len => 4
  | .width | .height => 17
  | .frameBits => 34

end Sys2Proof.Machine
end

