-- ==== Sys2Proof/Machine/Ops.lean ====
section
/-! DEFINITION. The named operations over memory and registers: buffers, the bit reader, the frame store, the
error entry and the ways out of it, the fetch (`20_memory.md`, `40_bit_reader.md`, `60_exceptions.md` R258). -/

namespace Sys2Proof.Machine

/-! ## Byte buffers -/

/-- `MemRead(S, a, 1)` (R11): the byte at an address, `none` where it has no value. A read changes nothing (R65). -/
def Memory.read : Memory → Nat → Option Byte
  | [], _ => none
  | (b, v) :: m, a => if a = b then some v else Memory.read m a

/-- A host write of one byte (R212), the canonical form kept. -/
def Memory.write : Memory → Nat → Byte → Memory
  | [], a, v => [(a, v)]
  | (b, w) :: m, a, v =>
    if a < b then (a, v) :: (b, w) :: m
    else if a = b then (a, v) :: m
    else (b, w) :: Memory.write m a v

/-- Consecutive bytes written from an address up. -/
def Memory.writeBytes (m : Memory) (a : Nat) : List Byte → Memory
  | [] => m
  | v :: vs => Memory.writeBytes (Memory.write m a v) (a + 1) vs

/-- A buffer that holds exactly `bytes` at addresses 0.. (`IB <- r`, R202). -/
def Memory.ofBytes (bytes : List Byte) : Memory := Memory.writeBytes [] 0 bytes

/-- Every byte below `n` has a value (R212, R213). -/
def Memory.written (m : Memory) : Nat → Bool
  | 0 => true
  | n + 1 => (Memory.read m n).isSome && Memory.written m n

/-! ## The bit reader -/

/-- `REMAINING` and the register `REMAIN` (R132, R39). -/
def State.remaining (s : State) : Nat := s.limit - s.cur

/-- The buffer `SRC` selects (R23, R62). -/
def State.source (s : State) : Memory :=
  match s.src with
  | .sb => s.sb
  | .ib => s.ib

/-- `srcbit(i)` of a buffer (R11, R62): bit `7 - (i mod 8)` of the byte `i div 8`. -/
def srcBit (m : Memory) (i : Nat) : Option Bool :=
  (Memory.read m (i / 8)).map fun b => b.getLsbD (7 - i % 8)

/-- The `n` bits from bit `i` on, in stream order; `none` where one lies in a byte with no value. -/
def readBits (m : Memory) (i : Nat) : Nat → Option (List Bool)
  | 0 => some []
  | n + 1 =>
    match srcBit m i, readBits m (i + 1) n with
    | some b, some bs => some (b :: bs)
    | _, _ => none

/-! ## The frame store -/

/-- `MemWrite(FS, (f, y, x), b, v)` (R11) at linear index `i = y*WIDTH + x` (R42); `none` where the cell does not exist. -/
def storePix (fs : List Frame) (f i : Nat) (v : Code) : Option (List Frame) :=
  match fs[f]? with
  | none => none
  | some fr => if i < fr.pix.length then some (fs.set f { fr with pix := fr.pix.set i v }) else none

/-- `MemWrite(FS, dur(f), 9, (1, d))` (R11); `none` where the frame does not exist. -/
def storeDur (fs : List Frame) (f : Nat) (d : Byte) : Option (List Frame) :=
  match fs[f]? with
  | none => none
  | some fr => some (fs.set f { fr with dur := some d })

/-- A new zero-valued frame of `n` pixels, its duration unset (R172). -/
def zeroFrame (n : Nat) : Frame := { pix := List.replicate n 0, dur := none }

/-! ## Error entry, and the ways out of it -/

/-- What error entry, `START` and soft reset do alike: the header results and counters cleared, the frame
store emptied, `SRC`, `CUR`, `LIMIT`, `X`, `Y` zero, no error, nothing handed over (R258, R210, R45). `STREAM_LEN`, `SB`, `IB` are left as they are. -/
def State.cleared (s : State) : State :=
  { s with
    cur := 0, limit := 0, src := .sb, x := 0, y := 0
    fmt := 0, cmp := 0, len := 0, width := 0, height := 0, frameBits := 0
    nframes := 0, fs := [], errcode := .none, errpos := 0, handedOver := false }

/-- `raise E(pos)` (R258), the whole effect of the step that raises: `ERRCODE`, `ERRPOS` set, everything else
cleared, `STATE <- ERROR`. -/
def State.raise (s : State) (e : ErrCode) (pos : Nat) : State :=
  { s.cleared with errcode := e, errpos := pos, phase := .error }

/-- The effect of an accepted `START` (R210): cleared, `LIMIT <- 8 * STREAM_LEN`, `STATE <- H_FMT`. -/
def State.launch (s : State) : State :=
  { s.cleared with limit := 8 * s.streamLen, phase := .hFmt }

/-- `SRST` (R216): every register but `STREAM_LEN` to its reset value, `SB` and `IB` left as they are. -/
def State.softReset (s : State) : State :=
  { s.cleared with phase := .idle }

/-- The reset of R280 as an action: soft reset and `STREAM_LEN <- 0`; the contents of `SB` and `IB` are
unspecified after it (R45, R282), so no byte has a value (DEDUCED, log entry 11). -/
def State.hardReset (s : State) : State :=
  { s.softReset with streamLen := 0, sb := [], ib := [] }

/-! ## Sequencing of meanings -/

/-- Operations in order, nothing after a `raise` (R258): the next one runs unless the last ended in `ERROR`. -/
def andThen (r : Res) (k : State → Res) : Res :=
  match r with
  | .next t => if t.phase = .error then .next t else k t
  | .fault f => .fault f
  | .refused f => .refused f

/-! ## The fetch -/

/-- The bits skipped before a compressed payload: under `byte_aligned`, `8a - CUR` with `a = (CUR + 7) div 8` (R203). -/
def State.skip (s : State) : Nat :=
  match s.build.payloadAlign with
  | .bitAdjacent => 0
  | .byteAligned => 8 * ((s.cur + 7) / 8) - s.cur

/-- Where a header is taken whole: its `LEN` bits, if the build's grain is a whole header, `STATE` is `H_FMT` and
all `6 + 2L` bits are unread (R92, R147; log entry 4). -/
def State.wholeHeader? (s : State) : Option (BitVec 4) :=
  if s.build.grain = .wholeHeader ∧ s.phase = .hFmt ∧ 6 ≤ s.remaining then
    match readBits s.source (s.cur + 2) 4 with
    | some bits =>
      if 6 + 2 * (natOfBits bits + 1) ≤ s.remaining then some (.ofNat 4 (natOfBits bits)) else none
    | none => none
  else none

/-- What selects the element at the cursor (R104). -/
def State.ctx (s : State) : Ctx :=
  let c : Ctx :=
    { phase := s.phase, fmt := s.fmt, cmp := s.cmp, len := s.len, whole := false, rem := s.remaining, skip := s.skip }
  match s.wholeHeader? with
  | some l => { c with len := l, whole := true }
  | none => c

/-- The operand bits of the element at the cursor. Where fewer are unread than its width, NONE is read (R131):
the operand is blank, and the meaning's own test stops before it is used (log entry 8). -/
def State.operandBits (s : State) : Option (List Bool) :=
  if s.remaining < elementWidth s.ctx then some (List.replicate (elementWidth s.ctx) false)
  else readBits s.source s.cur (elementWidth s.ctx)

/-- The element at the cursor: `none` where `STATE` selects none, or a byte of it has no value. -/
def State.fetch (s : State) : Option Instr :=
  match s.operandBits with
  | none => none
  | some bits =>
    match decode s.ctx bits with
    | .ok (i, _) => some i
    | .error _ => none

/-- A table word stored as the stream the next step takes its first element from: written to `SB` from address
0, `STREAM_LEN` set, launched (R283 steps 2 to 4), the header to be taken whole and no host turn before it. -/
def State.placeWord (s : State) (nbits w : Nat) : State :=
  let bytes := tableBytes nbits w
  State.launch
    { s with
      sb := s.sb.writeBytes 0 bytes, streamLen := bytes.length
      build := { s.build with grain := .wholeHeader }, hostTurns := [] }

end Sys2Proof.Machine
end

