-- ==== Sys2Proof/Machine/Operands.lean ====
section
/-! DEFINITION. The operand forms: pixel modes and codes (`42_pixel_unpacker.md`), a header field
(`41_header_parser.md` R146), a pixel of the frame being decoded (`43_frame_sequencer.md` R173). -/

namespace Sys2Proof.Machine

/-- `b`, the pixel width of a format (R160): 3 for EightColor (`FMT = 1`), 1 for Monochrome. -/
def pixelBits (f : Bit) : Nat := if f = 1 then 3 else 1

/-- `Unpack1` (R161): the identity, as a boolean. -/
def unpack1 (c : Bit) : Bool := c.getLsbD 0

/-- `Pack1` (R236). -/
def pack1 (v : Bool) : Bit := BitVec.ofBool v

/-- `Unpack3` (R162): `(R, G, B)` with `R = c[2]`, `G = c[1]`, `B = c[0]`. -/
def unpack3 (c : Code) : Bool × Bool × Bool := (c.getLsbD 2, c.getLsbD 1, c.getLsbD 0)

/-- `Pack3` (R163, R236): `R<<2 | G<<1 | B`. -/
def pack3 (r g b : Bool) : Code := BitVec.ofNat 3 (r.toNat * 4 + g.toNat * 2 + b.toNat)

/-- Milliseconds of a duration in ticks (R175, R101). -/
def durationMs (d : Byte) : Nat := Config.tickMs * d.toNat

/-- `L = LEN + 1` (R96). -/
def State.dimBits (s : State) : Nat := s.len.toNat + 1

/-- A header field of `n` bits (R146): `raise TruncatedStream(CUR)` if fewer are unread, else the cursor passes
the field and the field's own effect happens. -/
def headerField (n : Nat) (effect : State → State) (s : State) : Res :=
  if s.remaining < n then .next (s.raise .truncatedStream s.cur)
  else .next (effect { s with cur := s.cur + n })

/-- Where the pixel `(Y, X)` lies in its frame: `y*WIDTH + x` (R42, R66). -/
def State.pixelIndex (s : State) : Nat := s.y.toNat * s.width.toNat + s.x.toNat

/-- The step of `X` and `Y` after a pixel, row by row, and `D_TEST` after the last (R173). -/
def State.nextPixel (s : State) : State :=
  if s.x.toNat + 1 < s.width.toNat then { s with x := s.x + 1 }
  else if s.y.toNat + 1 < s.height.toNat then { s with x := 0, y := s.y + 1 }
  else { s with phase := .dTest }

/-- A pixel code of `n` bits stored at `(NFRAMES, Y, X)` (R173). -/
def pixelElement (n : Nat) (code : Code) (s : State) : Res :=
  if s.remaining < n then .fault .readPastLimit
  else
    match storePix s.fs s.nframes s.pixelIndex code with
    | none => .fault .noSuchCell
    | some fs => .next (State.nextPixel { s with cur := s.cur + n, fs := fs })

end Sys2Proof.Machine
end

