-- ==== Sys2Proof/Machine/Frames.lean ====
section
/-! DEFINITION. The frame sequencer (`43_frame_sequencer.md`): frame boundaries, pixels, durations, the residue. -/

namespace Sys2Proof.Machine

/-- A frame begun (R172): a new zero-valued frame of index `NFRAMES`, `X` and `Y` zero. -/
def State.beginFrame (s : State) : State :=
  { s with
    fs := s.fs.take s.nframes ++ [zeroFrame (s.width.toNat * s.height.toNat)]
    x := 0, y := 0, phase := .fPixel }

/-- `FRAME_TEST` (R171, R172): stop where less than a pixel block is unread; else `CapacityExceeded` at
`MAX_FRAMES`, or a frame is begun. -/
def execFrameTest (s : State) : Res :=
  if s.remaining < s.frameBits.toNat then .next { s with phase := .done }
  else if s.build.maxFrames = some s.nframes then .next (s.raise .capacityExceeded s.cur)
  else .next s.beginFrame

/-- `RD_PIX1` (R173, R161): the code zero-extended in its cell (R165). -/
def execPix1 (v : Bit) (s : State) : Res :=
  pixelElement 1 (v.setWidth 3) s

/-- `RD_PIX3` (R173, R162). -/
def execPix3 (c : Code) (s : State) : Res :=
  pixelElement 3 c s

/-- `DUR_TEST` (R174): a duration follows where 8 bits are unread; otherwise the frame is complete without one. -/
def execDurTest (s : State) : Res :=
  if 8 ≤ s.remaining then .next { s with phase := .dRead }
  else .next { s with nframes := s.nframes + 1, phase := .fTest }

/-- `RD_DUR` (R175): `DUR` and `DURV` of the frame, which is then complete. -/
def execDur (d : Byte) (s : State) : Res :=
  if s.remaining < 8 then .fault .readPastLimit
  else
    match storeDur s.fs s.nframes d with
    | none => .fault .noSuchCell
    | some fs => .next { s with cur := s.cur + 8, fs := fs, nframes := s.nframes + 1, phase := .fTest }

/-- `PAD` (R176, R102): the residue is never read; in `DONE` the decoder takes no step, so nothing changes. -/
def execPad (_n : Nat) (s : State) : Res :=
  .next s

end Sys2Proof.Machine
end

