-- ==== Sys2Proof/Machine/Header.lean ====
section
/-! DEFINITION. The header parser (`41_header_parser.md`): one meaning per field element, the check, and the
sixteen whole headers. -/

namespace Sys2Proof.Machine

/-- `RD_FMT` (R140). The `InvalidFormat` test can never hold (R251) and is kept as the rule keeps it. -/
def execFmt (f : Bit) (s : State) : Res :=
  headerField 1 (fun t =>
    if f ≠ 0 ∧ f ≠ 1 then s.raise .invalidFormat s.cur else { t with fmt := f, phase := .hCmp }) s

/-- `RD_CMP` (R141). -/
def execCmp (c : Bit) (s : State) : Res :=
  headerField 1 (fun t => { t with cmp := c, phase := .hLen }) s

/-- `RD_LEN` (R142). -/
def execLen (l : BitVec 4) (s : State) : Res :=
  headerField 4 (fun t => { t with len := l, phase := .hWidth }) s

/-- `RD_WIDTH` (R143): `WIDTH <- WM1 + 1`, 17 bits. -/
def execWm1 (w : BitVec 16) (s : State) : Res :=
  headerField s.dimBits (fun t => { t with width := BitVec.ofNat 17 (w.toNat + 1), phase := .hHeight }) s

/-- `RD_HEIGHT` (R144): `HEIGHT <- HM1 + 1`. -/
def execHm1 (h : BitVec 16) (s : State) : Res :=
  headerField s.dimBits (fun t => { t with height := BitVec.ofNat 17 (h.toNat + 1), phase := .hCheck }) s

/-- `HDR_CHECK` (R145): `FRAME_BITS <- WIDTH * HEIGHT * b`, 34 bits, exact for dimensions up to 65536 (R31). -/
def execHdrCheck (s : State) : Res :=
  if s.width.toNat < 1 ∨ s.height.toNat < 1 then .next (s.raise .malformedHeader s.cur)
  else
    .next { s with
      frameBits := BitVec.ofNat 34 (s.width.toNat * s.height.toNat * pixelBits s.fmt), phase := .pSelect }

/-- A whole header (R147): the six operations R140 to R145 in order, ending at the first that raises. -/
def wholeHeader (f c : Bit) (l : BitVec 4) (w h : BitVec 16) (s : State) : Res :=
  andThen (execFmt f s) fun s =>
  andThen (execCmp c s) fun s =>
  andThen (execLen l s) fun s =>
  andThen (execWm1 w s) fun s =>
  andThen (execHm1 h s) execHdrCheck

/-- `HDR_L1` (R92, R147): `LEN = 0`. -/
def execHdrL1 (f c : Bit) (w h : BitVec 1) (s : State) : Res :=
  wholeHeader f c 0 (w.setWidth 16) (h.setWidth 16) s

/-- `HDR_L2` (R92, R147): `LEN = 1`. -/
def execHdrL2 (f c : Bit) (w h : BitVec 2) (s : State) : Res :=
  wholeHeader f c 1 (w.setWidth 16) (h.setWidth 16) s

/-- `HDR_L3` (R92, R147): `LEN = 2`. -/
def execHdrL3 (f c : Bit) (w h : BitVec 3) (s : State) : Res :=
  wholeHeader f c 2 (w.setWidth 16) (h.setWidth 16) s

/-- `HDR_L4` (R92, R147): `LEN = 3`. -/
def execHdrL4 (f c : Bit) (w h : BitVec 4) (s : State) : Res :=
  wholeHeader f c 3 (w.setWidth 16) (h.setWidth 16) s

/-- `HDR_L5` (R92, R147): `LEN = 4`. -/
def execHdrL5 (f c : Bit) (w h : BitVec 5) (s : State) : Res :=
  wholeHeader f c 4 (w.setWidth 16) (h.setWidth 16) s

/-- `HDR_L6` (R92, R147): `LEN = 5`. -/
def execHdrL6 (f c : Bit) (w h : BitVec 6) (s : State) : Res :=
  wholeHeader f c 5 (w.setWidth 16) (h.setWidth 16) s

/-- `HDR_L7` (R92, R147): `LEN = 6`. -/
def execHdrL7 (f c : Bit) (w h : BitVec 7) (s : State) : Res :=
  wholeHeader f c 6 (w.setWidth 16) (h.setWidth 16) s

/-- `HDR_L8` (R92, R147): `LEN = 7`. -/
def execHdrL8 (f c : Bit) (w h : BitVec 8) (s : State) : Res :=
  wholeHeader f c 7 (w.setWidth 16) (h.setWidth 16) s

/-- `HDR_L9` (R92, R147): `LEN = 8`. -/
def execHdrL9 (f c : Bit) (w h : BitVec 9) (s : State) : Res :=
  wholeHeader f c 8 (w.setWidth 16) (h.setWidth 16) s

/-- `HDR_L10` (R92, R147): `LEN = 9`. -/
def execHdrL10 (f c : Bit) (w h : BitVec 10) (s : State) : Res :=
  wholeHeader f c 9 (w.setWidth 16) (h.setWidth 16) s

/-- `HDR_L11` (R92, R147): `LEN = 10`. -/
def execHdrL11 (f c : Bit) (w h : BitVec 11) (s : State) : Res :=
  wholeHeader f c 10 (w.setWidth 16) (h.setWidth 16) s

/-- `HDR_L12` (R92, R147): `LEN = 11`. -/
def execHdrL12 (f c : Bit) (w h : BitVec 12) (s : State) : Res :=
  wholeHeader f c 11 (w.setWidth 16) (h.setWidth 16) s

/-- `HDR_L13` (R92, R147): `LEN = 12`. -/
def execHdrL13 (f c : Bit) (w h : BitVec 13) (s : State) : Res :=
  wholeHeader f c 12 (w.setWidth 16) (h.setWidth 16) s

/-- `HDR_L14` (R92, R147): `LEN = 13`. -/
def execHdrL14 (f c : Bit) (w h : BitVec 14) (s : State) : Res :=
  wholeHeader f c 13 (w.setWidth 16) (h.setWidth 16) s

/-- `HDR_L15` (R92, R147): `LEN = 14`. -/
def execHdrL15 (f c : Bit) (w h : BitVec 15) (s : State) : Res :=
  wholeHeader f c 14 (w.setWidth 16) (h.setWidth 16) s

/-- `HDR_L16` (R92, R147): `LEN = 15`. -/
def execHdrL16 (f c : Bit) (w h : BitVec 16) (s : State) : Res :=
  wholeHeader f c 15 (w.setWidth 16) (h.setWidth 16) s

end Sys2Proof.Machine
end

