-- ==== Sys2Proof/Machine/Payload.lean ====
section
/-! DEFINITION. Payload source selection and the inflate hand-off (`44_payload_select.md`). -/

namespace Sys2Proof.Machine

/-- `SEL_RAW` (R200): decoding continues in the stream buffer. -/
def execSelRaw (s : State) : Res :=
  .next { s with phase := .fTest }

/-- The source switched to an inflate answer (R202): `IB <- r`, `SRC <- 1`, `CUR <- 0`, `LIMIT <- 8 * len(r)`. -/
def State.switchSource (s : State) (r : List Byte) : State :=
  { s with ib := Memory.ofBytes r, src := .ib, cur := 0, limit := 8 * r.length, phase := .fTest }

/-- What `SEL_INFLATE` does with the inflate agent's answer (R202, R253, R213). -/
def takeInflated (answer : Option (List Byte)) (s : State) : Res :=
  match answer with
  | none => .next (s.raise .inflateFault (6 + 2 * s.dimBits))
  | some r => if 8 * r.length < 2 ^ s.build.cursorW then .next (s.switchSource r) else .refused .inflateTooLong

/-- `SEL_INFLATE` (R202, R203): the compressed bytes handed to the inflate agent, one call (R71). -/
def execCbyte (bytes : List Byte) (s : State) : Res :=
  takeInflated (Config.inflate bytes) s

end Sys2Proof.Machine
end

