-- ==== Sys2Proof/Machine/Dispatch.lean ====
section
/-! DEFINITION. One arm per stream element: its meaning. -/

namespace Sys2Proof.Machine

def exec (i : Instr) (s : State) : Host.Outcome State Fault Refusal :=
  match i with
  | .hdrL1 f c w h => Sys2Proof.Machine.execHdrL1 f c w h s
  | .hdrL2 f c w h => Sys2Proof.Machine.execHdrL2 f c w h s
  | .hdrL3 f c w h => Sys2Proof.Machine.execHdrL3 f c w h s
  | .hdrL4 f c w h => Sys2Proof.Machine.execHdrL4 f c w h s
  | .hdrL5 f c w h => Sys2Proof.Machine.execHdrL5 f c w h s
  | .hdrL6 f c w h => Sys2Proof.Machine.execHdrL6 f c w h s
  | .hdrL7 f c w h => Sys2Proof.Machine.execHdrL7 f c w h s
  | .hdrL8 f c w h => Sys2Proof.Machine.execHdrL8 f c w h s
  | .hdrL9 f c w h => Sys2Proof.Machine.execHdrL9 f c w h s
  | .hdrL10 f c w h => Sys2Proof.Machine.execHdrL10 f c w h s
  | .hdrL11 f c w h => Sys2Proof.Machine.execHdrL11 f c w h s
  | .hdrL12 f c w h => Sys2Proof.Machine.execHdrL12 f c w h s
  | .hdrL13 f c w h => Sys2Proof.Machine.execHdrL13 f c w h s
  | .hdrL14 f c w h => Sys2Proof.Machine.execHdrL14 f c w h s
  | .hdrL15 f c w h => Sys2Proof.Machine.execHdrL15 f c w h s
  | .hdrL16 f c w h => Sys2Proof.Machine.execHdrL16 f c w h s
  | .fmt f => Sys2Proof.Machine.execFmt f s
  | .cmp c => Sys2Proof.Machine.execCmp c s
  | .len l => Sys2Proof.Machine.execLen l s
  | .wm1 w => Sys2Proof.Machine.execWm1 w s
  | .hm1 h => Sys2Proof.Machine.execHm1 h s
  | .pix1 v => Sys2Proof.Machine.execPix1 v s
  | .pix3 c => Sys2Proof.Machine.execPix3 c s
  | .dur d => Sys2Proof.Machine.execDur d s
  | .cbyte bytes => Sys2Proof.Machine.execCbyte bytes s
  | .pad n => Sys2Proof.Machine.execPad n s
  | .hdrCheck => Sys2Proof.Machine.execHdrCheck s
  | .selRaw => Sys2Proof.Machine.execSelRaw s
  | .frameTest => Sys2Proof.Machine.execFrameTest s
  | .durTest => Sys2Proof.Machine.execDurTest s

end Sys2Proof.Machine
end

