-- ==== Sys2Proof/Machine/HostPort.lean ====
section
/-! DEFINITION. The host commands (`45_host_commands.md`): register writes and reads, `SB` writes, `FS` reads, reset. -/

namespace Sys2Proof.Machine

/-- `START` (R210): acts in `IDLE`, `DONE`, `ERROR`, ignored while `BUSY`; over a byte of `SB` below
`STREAM_LEN` that was never written it is refused (R213). -/
def startCommand (s : State) : Res :=
  if s.busy then .next s
  else if Memory.written s.sb s.streamLen then .next s.launch
  else .refused .launchOverUnwritten

/-- A write of `CTRL` (R35): `SRST` is bit 1 and wins; else `START`, bit 0; higher bits are ignored. -/
def writeCtrl (v : Nat) (s : State) : Res :=
  if v.testBit 1 then .next s.softReset
  else if v.testBit 0 then startCommand s
  else .next s

/-- A write of `STREAM_LEN` (R33, R213): refused while `BUSY`; the register keeps its `CURSOR_W - 3` bits
(DEDUCED, log entry 10), none where `CURSOR_W` is below 3, for which the spec gives no rule (DESIGN CHOICE, log
entry 26). -/
def writeStreamLen (v : Nat) (s : State) : Res :=
  if s.busy then .refused .hostWriteWhileBusy
  else .next { s with streamLen := v % 2 ^ (s.build.cursorW - 3) }

/-- A host write of a register: a write of a read-only one is ignored (R34, R213). -/
def hostWriteReg (r : HostReg) (v : Nat) (s : State) : Res :=
  match r with
  | .ctrl => writeCtrl v s
  | .streamLen => writeStreamLen v s
  | .status | .errcode | .errpos | .fmt | .cmp | .len | .width | .height | .frameBits | .nframes | .remain => .next s

/-- A host write of a byte of `SB` (R212): refused while `BUSY` (R213). -/
def hostWriteSb (addr : Nat) (v : Byte) (s : State) : Res :=
  if s.busy then .refused .hostWriteWhileBusy else .next { s with sb := Memory.write s.sb addr v }

/-- What a register reads as (R34 to R39), zero-extended. -/
def hostRegValue (r : HostReg) (s : State) : Nat :=
  match r with
  | .ctrl => 0
  | .status => s.status.toNat
  | .errcode => (errNumber s.errcode).toNat
  | .errpos => s.errpos
  | .streamLen => s.streamLen
  | .fmt => s.fmt.toNat
  | .cmp => s.cmp.toNat
  | .len => s.len.toNat
  | .width => s.width.toNat
  | .height => s.height.toNat
  | .frameBits => s.frameBits.toNat
  | .nframes => s.nframes
  | .remain => s.remaining

/-- Registers that a host may read in every state (R213): `CTRL`, `STATUS`, `STREAM_LEN`. The others hold a run's
results or its error. -/
def readableWhileBusy : HostReg → Bool
  | .ctrl | .status | .streamLen => true
  | .errcode | .errpos | .fmt | .cmp | .len | .width | .height | .frameBits | .nframes | .remain => false

/-- What a read of a register leaves of the hand-over (R69, R214): a `STATUS` read that returns `DONE` or `ERR` hands
the results over. -/
def State.handOver (s : State) : HostReg → Bool
  | .status => s.handedOver || s.doneFlag || s.errFlag
  | .ctrl | .streamLen | .errcode | .errpos | .fmt | .cmp | .len | .width | .height | .frameBits | .nframes | .remain =>
    s.handedOver

/-- Results may be read once handed over (R286); in `IDLE` there is no run's result, and the registers read as at
reset (R34; log entry 27). -/
def State.resultsReadable (s : State) : Bool :=
  decide (s.phase = .idle) || s.handedOver

/-- A host read of a register (R214, R215): of a result or an error, refused while `BUSY` (R213) and before the poll
that hands it over (R286). -/
def hostReadReg (r : HostReg) (s : State) : Res :=
  if !readableWhileBusy r && s.busy then .refused .hostReadWhileBusy
  else if !readableWhileBusy r && !s.resultsReadable then .refused .hostReadBeforePoll
  else .next { s with hostData := some (hostRegValue r s), handedOver := s.handOver r }

/-- A frame the host may read (R213): in `DONE`, index below `NFRAMES`. -/
def State.frameReadable (s : State) (f : Nat) : Bool :=
  decide (s.phase = .done) && decide (f < s.nframes)

/-- A host read of frame `f` of the frame store: refused out of range (R213) and before the poll that hands the
frames over (R286); otherwise what `k` makes of the frame. -/
def fetchFrame (f : Nat) (inRange : Bool) (k : Frame → Res) (s : State) : Res :=
  if s.frameReadable f && inRange then
    if s.handedOver then
      match s.fs[f]? with
      | some fr => k fr
      | none => .fault .noSuchCell
    else .refused .hostReadBeforePoll
  else .refused .frameStoreRead

/-- A host read of `pix[f][y][x]` (R215, R213). -/
def hostReadPix (f y x : Nat) (s : State) : Res :=
  fetchFrame f (decide (y < s.height.toNat) && decide (x < s.width.toNat)) (fun fr =>
    match fr.pix[y * s.width.toNat + x]? with
    | some c => .next { s with hostData := some c.toNat }
    | none => .fault .noSuchCell) s

/-- A host read of `DURV[f]` (R215, R40). -/
def hostReadDurv (f : Nat) (s : State) : Res :=
  fetchFrame f true (fun fr => .next { s with hostData := some fr.dur.isSome.toNat }) s

/-- A host read of `DUR[f]` (R215): with `DURV[f] = 0` the value is free (U6, log entry 9). -/
def hostReadDur (f : Nat) (s : State) : Res :=
  fetchFrame f true (fun fr =>
    match fr.dur with
    | some d => .next { s with hostData := some d.toNat }
    | none =>
      .next { s with hostData := some (Config.unsetDuration s.freeReads).toNat, freeReads := s.freeReads + 1 }) s

/-- One host action. -/
def hostAct (a : HostAction) (s : State) : Res :=
  match a with
  | .writeSb addr v => hostWriteSb addr v s
  | .writeReg r v => hostWriteReg r v s
  | .readReg r => hostReadReg r s
  | .readPix f y x => hostReadPix f y x s
  | .readDurv f => hostReadDurv f s
  | .readDur f => hostReadDur f s
  | .reset => .next s.hardReset

/-- The turns of `LOAD` for a byte list (R212, R283 steps 2 and 3): its bytes from an address up. -/
def loadTurns (addr : Nat) : List Byte → List (Option HostAction)
  | [] => []
  | v :: vs => some (.writeSb addr v) :: loadTurns (addr + 1) vs

/-- The start-up sequence of R283: load the bytes, write `STREAM_LEN`, write `CTRL.START`. -/
def launchTurns (bytes : List Byte) : List (Option HostAction) :=
  loadTurns 0 bytes ++ [some (.writeReg .streamLen bytes.length), some (.writeReg .ctrl 1)]

end Sys2Proof.Machine
end

