-- ==== Sys2Proof/Machine/Step.lean ====
section
/-! DEFINITION. One step of the machine: one host action, or one transition of the sequencer
(`43_frame_sequencer.md` R177, `60_exceptions.md` R257). -/

namespace Sys2Proof.Machine

/-- One transition of the decoder (R177): the element at the cursor is fetched and run. `IDLE` and `ERROR` have
none and stay as they are; in `DONE` the element is the residue, `PAD`. -/
def decoderStep (s : State) : Host.Outcome State Fault Refusal :=
  match s.phase with
  | .idle | .error => .next s
  | .hFmt | .hCmp | .hLen | .hWidth | .hHeight | .hCheck | .pSelect | .fTest | .fPixel | .dTest | .dRead | .done =>
    match s.fetch with
    | some i => exec i s
    | none => .fault .unwrittenByte

/-- One step: the host's next turn, if it acts in it; otherwise the decoder's transition (log entry 5). -/
def step (s : State) : Host.Outcome State Fault Refusal :=
  match s.hostTurns with
  | [] => decoderStep s
  | none :: rest => decoderStep { s with hostTurns := rest }
  | some a :: rest => hostAct a { s with hostTurns := rest }

/-- `s` with a table word stored where the next step takes its element from (log entries 12, 13). -/
def State.withFetchWord (s : State) (nbits w : Nat) : State := s.placeWord nbits w

end Sys2Proof.Machine
end

