-- ==== Sys2Proof/Machine/BigStep.lean ====
section
/-! DEFINITION. The decoder's big-step functions, which the step machine agrees with: `ParseHeader`
(`41_header_parser.md` R147), `DecodeFrames` and its closed form (`43_frame_sequencer.md` R178, R180). -/

namespace Sys2Proof.Machine

/-- What a parsed header gives (R147). -/
structure Header where
  fmt : Bit
  cmp : Bit
  len : BitVec 4
  width : Nat
  height : Nat
  frameBits : Nat
  cur : Nat
deriving DecidableEq, Repr

/-- The header of a stream that has all its bits (R147, R91). -/
def headerOf (bits : List Bool) : Header :=
  let l := field bits 2 4 + 1
  let f := BitVec.ofNat 1 (field bits 0 1)
  let w := field bits 6 l + 1
  let h := field bits (6 + l) l + 1
  { fmt := f, cmp := .ofNat 1 (field bits 1 1), len := .ofNat 4 (l - 1)
    width := w, height := h, frameBits := w * h * pixelBits f, cur := 6 + 2 * l }

/-- `ParseHeader` (R147): the error and its position, or the header. -/
def parseHeader (bytes : List Byte) : Except (ErrCode × Nat) Header :=
  let bits := bitsOfBytes bytes
  let l := field bits 2 4 + 1
  if bits.length < 1 then .error (.truncatedStream, 0)
  else if bits.length < 6 + l then .error (.truncatedStream, 6)
  else if bits.length < 6 + 2 * l then .error (.truncatedStream, 6 + l)
  else .ok (headerOf bits)

/-- `n` pixel codes of `b` bits from the front of a bit list (R178). -/
def readCodes (b : Nat) : Nat → List Bool → List Code
  | 0, _ => []
  | n + 1, bits => BitVec.ofNat 3 (natOfBits (bits.take b)) :: readCodes b n (bits.drop b)

/-- The loop of `DecodeFrames` (R178) on the unread bits, for frames of `n` codes of `b` bits: the frames and the
residue, or `none` for `CapacityExceeded`. One unit of `fuel` a frame. -/
def frameLoop (maxFrames : Option Nat) (b n : Nat) : Nat → List Frame → List Bool → Option (List Frame × List Bool)
  | 0, frames, bits => some (frames, bits)
  | fuel + 1, frames, bits =>
    if bits.length < n * b then some (frames, bits)
    else if maxFrames = some frames.length then none
    else
      let px := readCodes b n bits
      let rest := bits.drop (n * b)
      if 8 ≤ rest.length then
        frameLoop maxFrames b n fuel (frames ++ [{ pix := px, dur := some (.ofNat 8 (natOfBits (rest.take 8))) }])
          (rest.drop 8)
      else frameLoop maxFrames b n fuel (frames ++ [{ pix := px, dur := none }]) rest

/-- `DecodeFrames` (R178). The fuel is enough wherever a frame has at least one bit (R179). -/
def decodeFrames (maxFrames : Option Nat) (b n : Nat) (bits : List Bool) : Option (List Frame × List Bool) :=
  frameLoop maxFrames b n (bits.length + 1) [] bits

/-- `n_d` of R180: frames with a duration. -/
def framesWithDuration (r0 p : Nat) : Nat := r0 / (p + 8)

/-- `n_u` of R180: frames without a duration. -/
def framesWithout (r0 p : Nat) : Nat := r0 % (p + 8) / p

/-- `REMAIN` of R180. -/
def residueBits (r0 p : Nat) : Nat := r0 % (p + 8) % p

end Sys2Proof.Machine
end

