-- ==== Sys2Proof/Machine/Encoder.lean ====
section
/-! DEFINITION. The reference encoder, a pure function beside the machine (`46_reference_encoder.md`), the
assembler of the notation of `30_encoding.md` R110. -/

namespace Sys2Proof.Machine

/-- The search of `clog2`: the least `k` from a start on with `n <= 2^k`. -/
def clog2From (n : Nat) : Nat → Nat → Nat
  | 0, k => k
  | fuel + 1, k => if n ≤ 2 ^ k then k else clog2From n fuel (k + 1)

/-- `clog2(n)` (R10): the least `k` with `2^k >= n`. -/
def clog2 (n : Nat) : Nat := clog2From n n 0

/-- A frame given to the encoder (R230): pixel codes in linear order, and a duration in ticks if it has one. -/
structure ImageFrame where
  pix : List Code
  ticks : Option Nat
deriving DecidableEq, Repr

/-- An image given to the encoder (R230): `fmt` 0 Monochrome, 1 EightColor. -/
structure Image where
  fmt : Bit
  width : Nat
  height : Nat
  frames : List ImageFrame
deriving DecidableEq, Repr

/-- A frame's preconditions (R230): `W*H` codes of the format's width, a duration of at most 255 ticks. -/
def ImageFrame.valid (fmt : Bit) (n : Nat) (fr : ImageFrame) : Bool :=
  decide (fr.pix.length = n) && fr.pix.all (fun c => decide (c.toNat < 2 ^ pixelBits fmt)) &&
    fr.ticks.all fun t => decide (t ≤ 255)

/-- The preconditions of `Encode` (R230). -/
def Image.valid (img : Image) : Bool :=
  decide (1 ≤ img.width) && decide (img.width ≤ 65536) && decide (1 ≤ img.height) && decide (img.height ≤ 65536) &&
    img.frames.all (ImageFrame.valid img.fmt (img.width * img.height))

/-- The canonical `L` (R231): `max(L_FLOOR, clog2(W), clog2(H))`. -/
def canonicalL (w h : Nat) : Nat := max Config.lFloor (max (clog2 w) (clog2 h))

/-- `ENC_HDR` (R232) with a given `L`. -/
def encHeader (img : Image) (lzw : Bool) (L : Nat) : List Bool :=
  bitsOfNat 1 img.fmt.toNat ++ bitsOfNat 1 lzw.toNat ++ bitsOfNat 4 (L - 1) ++
    bitsOfNat L (img.width - 1) ++ bitsOfNat L (img.height - 1)

/-- `ENC_PIXELS` (R233): one pixel block. -/
def encPixels (fmt : Bit) (fr : ImageFrame) : List Bool :=
  fr.pix.flatMap fun c => bitsOfNat (pixelBits fmt) c.toNat

/-- `ENC_DUR` (R234): 8 bits, 0 if unset, only where the image has more than one frame. -/
def encDur (many : Bool) (fr : ImageFrame) : List Bool :=
  if many then bitsOfNat 8 (fr.ticks.getD 0) else []

/-- The raw payload (R235). -/
def rawPayload (img : Image) : List Bool :=
  img.frames.flatMap fun fr => encPixels img.fmt fr ++ encDur (decide (1 < img.frames.length)) fr

/-- The payload after `hdr` header bits (R237): raw, or the compressor's bytes, under `byte_aligned` from the
next byte boundary on. -/
def encPayload (deflate : List Byte → List Byte) (align : PayloadAlign) (img : Image) (lzw : Bool) (hdr : Nat) : List Bool :=
  if lzw then
    (match align with
      | .bitAdjacent => []
      | .byteAligned => List.replicate ((8 - hdr % 8) % 8) false) ++
    bitsOfBytes (deflate (finishBytes (rawPayload img)))
  else rawPayload img

/-- A stream with a given `L` and explicit bits after the payload (R110 `len`, `pad`), zero-padded to a byte. -/
def assemble (deflate : List Byte → List Byte) (align : PayloadAlign) (img : Image) (lzw : Bool)
    (L : Nat) (tail : List Bool) : Option (List Byte) :=
  if img.valid && decide (canonicalL img.width img.height ≤ L) && decide (L ≤ 16) then
    some (finishBytes (encHeader img lzw L ++ encPayload deflate align img lzw (6 + 2 * L) ++ tail))
  else none

/-- `Encode` (R238): the canonical stream; `none` for an input that breaks a precondition of R230. -/
def encodeImage (deflate : List Byte → List Byte) (align : PayloadAlign) (img : Image) (lzw : Bool) : Option (List Byte) :=
  assemble deflate align img lzw (canonicalL img.width img.height) []

/-- The ticks of a duration in milliseconds (R241): for the multiples of 10 up to 2550; no other is defined. -/
def ticksOfMs (ms : Nat) : Option Nat :=
  if ms % Config.tickMs = 0 ∧ ms ≤ 2550 then some (ms / Config.tickMs) else none

/-- The frames a decode of the image's own stream gives (R183, C8): durations set, 0 where unset, if there are two
or more frames; unset otherwise. -/
def Image.normalised (img : Image) : List Frame :=
  img.frames.map fun fr =>
    { pix := fr.pix, dur := if 1 < img.frames.length then some (.ofNat 8 (fr.ticks.getD 0)) else none }

end Sys2Proof.Machine
end

