-- ==== Sys2Proof/Safety.lean ====
section
/-! DEFINITION. What counts as a safe run, in the terms the claims use: the launch premise and the observation of
a run (`45_host_commands.md` R218), and the invariants of `10_state.md` R47. -/

namespace Sys2Proof.Machine

/-- The buffer holds exactly these bytes from address 0 on. -/
def Holds (m : Memory) (bytes : List Byte) : Prop :=
  ∀ a, a < bytes.length → Memory.read m a = bytes[a]?

/-- The host's next action, its passed turns left out. -/
def nextAction : List (Option HostAction) → Option HostAction
  | [] => none
  | none :: turns => nextAction turns
  | some a :: _ => some a

/-- A host action that is `START` (R35, R210): a write of `CTRL` with bit 0 and without bit 1. -/
def isStart : HostAction → Bool
  | .writeReg .ctrl v => v.testBit 0 && !v.testBit 1
  | .writeReg _ _ | .writeSb _ _ | .readReg _ | .readPix _ _ _ | .readDurv _ | .readDur _ | .reset => false

/-- `CleanLaunch(bytes)` (R218), its four conditions: not busy, the length, the bytes, and the next host action `START`. -/
def CleanLaunch (bytes : List Byte) (s : State) : Prop :=
  (s.phase = .idle ∨ s.phase = .done ∨ s.phase = .error) ∧ s.streamLen = bytes.length ∧ Holds s.sb bytes ∧
    (nextAction s.hostTurns).any isStart = true

/-- A run of `bytes` has just been launched: `H_FMT` at stream bit 0 of `SB` (R210, R281), the host silent and
headers taken field by field. -/
structure Launched (bytes : List Byte) (s : State) : Prop where
  phase : s.phase = .hFmt
  src : s.src = .sb
  cur : s.cur = 0
  limit : s.limit = 8 * bytes.length
  holds : Holds s.sb bytes
  silent : s.hostTurns = []
  grain : s.build.grain = .perField

/-- What is observed of a run (R218). -/
inductive Observation where
  | image (fmt cmp : Bit) (len : BitVec 4) (width height nframes : Nat) (frames : List Frame) (remain : Nat)
  | failed (e : ErrCode) (pos : Nat)
deriving DecidableEq, Repr

/-- The observation of a state that has ended a run (R218, R215). -/
def observe (s : State) : Option Observation :=
  match s.phase with
  | .done =>
    some (.image s.fmt s.cmp s.len s.width.toNat s.height.toNat s.nframes (s.fs.take s.nframes) s.remaining)
  | .error => some (.failed s.errcode s.errpos)
  | .idle | .hFmt | .hCmp | .hLen | .hWidth | .hHeight | .hCheck | .pSelect | .fTest | .fPixel | .dTest | .dRead => none

/-- The states in which a whole header has been read and checked, 7 to 12 (R47 c). -/
def headerKnown : Phase → Bool
  | .pSelect | .fTest | .fPixel | .dTest | .dRead | .done => true
  | .idle | .hFmt | .hCmp | .hLen | .hWidth | .hHeight | .hCheck | .error => false

/-- The states in which a frame is being decoded. -/
def inFrame : Phase → Bool
  | .fPixel | .dTest | .dRead => true
  | .idle | .hFmt | .hCmp | .hLen | .hWidth | .hHeight | .hCheck | .pSelect | .fTest | .done | .error => false

/-- The states in which all pixels of the frame being decoded have been read. -/
def frameRead : Phase → Bool
  | .dTest | .dRead => true
  | .idle | .hFmt | .hCmp | .hLen | .hWidth | .hHeight | .hCheck | .pSelect | .fTest | .fPixel | .done | .error => false

/-- Where the cursor stands in a header state (R91, R93). -/
def headerCursor (L : Nat) : Phase → Option Nat
  | .hFmt => some 0
  | .hCmp => some 1
  | .hLen => some 2
  | .hWidth => some 6
  | .hHeight => some (6 + L)
  | .hCheck | .pSelect => some (6 + 2 * L)
  | .idle | .fTest | .fPixel | .dTest | .dRead | .done | .error => none

/-- A dimension that fits the header's field (R97, R47 c). -/
def DimOk (len : BitVec 4) (d : BitVec 17) : Prop :=
  1 ≤ d.toNat ∧ d.toNat ≤ 65536 ∧ d.toNat ≤ 2 ^ (len.toNat + 1)

/-- The invariants of R47, the bounds of R32, R33, R38, R39 and the hand-over of R286, which every step keeps. -/
structure Inv (s : State) : Prop where
  /-- R47 a. -/
  cur_le_limit : s.cur ≤ s.limit
  /-- R47 a. -/
  limit_fits : s.limit < 2 ^ s.build.cursorW
  /-- R33: `8 * STREAM_LEN < 2^CURSOR_W`. -/
  streamLen_fits : 8 * s.streamLen < 2 ^ s.build.cursorW
  /-- `ERRPOS` fits its register (R38). -/
  errpos_fits : s.errpos < 2 ^ s.build.cursorW
  /-- R47 f. -/
  error_iff : s.errcode ≠ .none ↔ s.phase = .error
  /-- R34, R39, R45: in `IDLE` and `ERROR` the cursor, its limit and every result read as at reset. -/
  quiet : s.phase = .idle ∨ s.phase = .error →
    s.cur = 0 ∧ s.limit = 0 ∧ s.src = .sb ∧ s.fmt = 0 ∧ s.cmp = 0 ∧ s.len = 0 ∧ s.width = 0 ∧ s.height = 0 ∧
      s.frameBits = 0 ∧ s.nframes = 0
  /-- The header is read from `SB`, its fields at the places of R91. -/
  header_place : ∀ n, headerCursor s.dimBits s.phase = some n → s.src = .sb ∧ s.cur = n ∧ s.nframes = 0
  /-- `WIDTH` once read (R143). -/
  width_read : s.phase = .hHeight ∨ s.phase = .hCheck → DimOk s.len s.width
  /-- `HEIGHT` once read (R144). -/
  height_read : s.phase = .hCheck → DimOk s.len s.height
  /-- R47 c. -/
  header_known : headerKnown s.phase = true →
    DimOk s.len s.width ∧ DimOk s.len s.height ∧
      s.frameBits.toNat = s.width.toNat * s.height.toNat * pixelBits s.fmt
  /-- R47 d. -/
  pixel_left : s.phase = .fPixel →
    s.x.toNat < s.width.toNat ∧ s.y.toNat < s.height.toNat ∧
      pixelBits s.fmt * (s.width.toNat * (s.height.toNat - s.y.toNat) - s.x.toNat) ≤ s.remaining
  /-- R131 b: a duration is read only where 8 bits are unread. -/
  duration_left : s.phase = .dRead → 8 ≤ s.remaining
  /-- R47 e. -/
  residue_short : s.phase = .done → s.remaining < s.frameBits.toNat
  /-- R47 g. -/
  source_compressed : s.src = .ib → s.cmp = 1
  /-- The frame store holds the completed frames and, inside a frame, the one being decoded (R32, R42). -/
  frame_count : s.fs.length = s.nframes + (inFrame s.phase).toNat
  /-- R32: each frame has consumed a bit of the source, so `NFRAMES <= CUR <= LIMIT`. -/
  nframes_le : s.nframes + (frameRead s.phase).toNat ≤ s.cur
  /-- R47 h, R42: every frame has all `WIDTH*HEIGHT` codes. -/
  frame_full : ∀ fr ∈ s.fs, fr.pix.length = s.width.toNat * s.height.toNat
  /-- R165: a Monochrome cell never holds a value above 1. -/
  mono_codes : s.fmt = 0 → ∀ fr ∈ s.fs, ∀ c ∈ fr.pix, c.toNat ≤ 1
  /-- R69, R286: results are handed over only when a run has ended. -/
  handed_over : s.handedOver = true → s.phase = .done ∨ s.phase = .error
  /-- The buffers are in canonical form. -/
  sb_wf : Memory.wf s.sb
  /-- The buffers are in canonical form. -/
  ib_wf : Memory.wf s.ib
  /-- R22, R131, R213: while `BUSY` the source is whole bytes, all of which have a value; `SB`'s number is `STREAM_LEN`. -/
  source_readable : s.busy = true →
    ∃ n, s.limit = 8 * n ∧ Memory.written s.source n = true ∧ (s.src = .sb → n = s.streamLen)

/-- The decoder's bound on the steps it still takes from `F_TEST` on (R179). -/
def stepsLeft (s : State) : Nat :=
  match s.phase with
  | .fTest | .dRead => 3 * s.remaining + 1
  | .dTest => 3 * s.remaining + 2
  | .fPixel => 3 * s.remaining
  | .idle | .hFmt | .hCmp | .hLen | .hWidth | .hHeight | .hCheck | .pSelect | .done | .error => 0

/-- The unread bits of the current source (R132), `none` where one has no value. -/
def State.unread (s : State) : Option (List Bool) := readBits s.source s.cur s.remaining

/-- What a whole header of `n`-bit dimensions leaves (R147, its `Ok`): the fields, `FRAME_BITS`, the cursor past
the header's `6 + 2n` bits, `STATE` at `P_SELECT`; nothing else changes. -/
def State.headerResult (s : State) (n : Nat) (f c : Bit) (w h : Nat) : State :=
  { s with
    fmt := f, cmp := c, len := BitVec.ofNat 4 (n - 1), width := BitVec.ofNat 17 (w + 1), height := BitVec.ofNat 17 (h + 1)
    frameBits := BitVec.ofNat 34 ((w + 1) * (h + 1) * pixelBits f), cur := s.cur + (6 + 2 * n), phase := .pSelect }

/-- Where a header of `n`-bit dimensions that does not fit is cut off: the first bit of the first field with fewer
unread bits than its width (R146). -/
def State.headerFailure (s : State) (n : Nat) : Nat :=
  if s.remaining < 1 then s.cur
  else if s.remaining < 2 then s.cur + 1
  else if s.remaining < 6 then s.cur + 2
  else if s.remaining < 6 + n then s.cur + 6
  else s.cur + (6 + n)

/-- The code in a frame store cell (R42). -/
def cell (fs : List Frame) (f i : Nat) : Option Code := (fs[f]?).bind fun fr => fr.pix[i]?

/-- The duration of a frame, `none` where unset or where there is no frame (R42). -/
def duration (fs : List Frame) (f : Nat) : Option Byte := (fs[f]?).bind Frame.dur

/-- The table of R177 with no host write, one step per header field: where the decoder goes from a state, by its
conditions; out of `P_SELECT`, where it goes unless `Inflate` answers `fail`. -/
def State.tableNext (s : State) : Phase :=
  match s.phase with
  | .idle => .idle
  | .hFmt => if 1 ≤ s.remaining then .hCmp else .error
  | .hCmp => if 1 ≤ s.remaining then .hLen else .error
  | .hLen => if 4 ≤ s.remaining then .hWidth else .error
  | .hWidth => if s.dimBits ≤ s.remaining then .hHeight else .error
  | .hHeight => if s.dimBits ≤ s.remaining then .hCheck else .error
  | .hCheck => .pSelect
  | .pSelect => .fTest
  | .fTest =>
    if s.remaining < s.frameBits.toNat then .done
    else if s.build.maxFrames = some s.nframes then .error
    else .fPixel
  | .fPixel => if s.x.toNat + 1 = s.width.toNat ∧ s.y.toNat + 1 = s.height.toNat then .dTest else .fPixel
  | .dTest => if 8 ≤ s.remaining then .dRead else .fTest
  | .dRead => .fTest
  | .done => .done
  | .error => .error

end Sys2Proof.Machine
end

