-- ==== Sys2Proof/Certificates/Slice0/Obligations.lean ====
section
/-! DEFINITION. The statements for the provers, from the spec's numbered rules. -/

open Sys2Proof Sys2Proof.Machine

/-! ## Encoding -/

/-- Decode and encode agree (R91, R92, R99 to R104): a well formed element, encoded and followed by any bits, is
decoded in its context to itself, and the bits after it are left. -/
def Obligations.DecodeInvertsEncode : Prop :=
  ∀ (c : Ctx) (i : Instr) (rest : List Bool), wellFormed c i = true →
    decode c (encode c i ++ rest) = .ok (i, rest)

/-- The other direction (R91, R104): what is decoded is encoded in the very bits it was read from. The residue is
never read (R102) and the bits skipped under `byte_aligned` are not examined (R203), so these two are left out. -/
def Obligations.DecodedBitsAreTheElement : Prop :=
  ∀ (c : Ctx) (bits rest : List Bool) (i : Instr), c.phase ≠ .done → (c.phase = .pSelect → c.skip = 0) →
    decode c bits = .ok (i, rest) → encode c i ++ rest = bits

/-- R106: every string of `6 + 2L` bits, for the `L` its own bits 2..5 give, is a header, encoded in those very bits;
every bit is a `PIX1`, every 3 bits a `PIX3`, every 8 bits a `DUR`; and in every other context the bits of the selected
element's width are that element (the residue is not read, R102, and the bits skipped under `byte_aligned` are not
examined, R203, so there the bits are not those of its encoding). -/
def Obligations.NoEncodingIsIllegal : Prop :=
  (∀ (c : Ctx) (bits : List Bool), c.phase = .hFmt → c.whole = true →
    6 + 2 * (field bits 2 4 + 1) ≤ bits.length →
    ∃ i rest, decode c bits = .ok (i, rest) ∧ wellFormed c i = true ∧ encode c i ++ rest = bits ∧
      (encode c i).length = 6 + 2 * (field bits 2 4 + 1)) ∧
  (∀ (c : Ctx) (bits : List Bool), c.phase ≠ .idle → c.phase ≠ .error → c.whole = false →
    elementWidth c ≤ bits.length →
    ∃ i rest, decode c bits = .ok (i, rest) ∧ wellFormed c i = true ∧
      (c.phase ≠ .done → (c.phase = .pSelect → c.skip = 0) →
        encode c i ++ rest = bits ∧ (encode c i).length = elementWidth c)) ∧
  (∀ (c : Ctx) (bits : List Bool), c.phase = .fPixel → c.fmt = 0 → bits.length = 1 →
    ∃ v : Bit, decode c bits = .ok (.pix1 v, []) ∧ bitsOfNat 1 v.toNat = bits) ∧
  (∀ (c : Ctx) (bits : List Bool), c.phase = .fPixel → c.fmt = 1 → bits.length = 3 →
    ∃ v : Code, decode c bits = .ok (.pix3 v, []) ∧ bitsOfNat 3 v.toNat = bits) ∧
  (∀ (c : Ctx) (bits : List Bool), c.phase = .dRead → bits.length = 8 →
    ∃ d : Byte, decode c bits = .ok (.dur d, []) ∧ bitsOfNat 8 d.toNat = bits)

/-- A few words of the opcode table, their bits written out from R92: the decoder gives the row's header (a sanity
check). How a word is numbered, its `nbits` in whole bytes and the zero bits after it are the model's choice (DESIGN
CHOICE, log entry 12). -/
def Obligations.TableWordsDecode : Prop :=
  decodeTableWord 8 0b10000011 = some (.hdrL1 1 0 1 1) ∧
  decodeTableWord 16 0b0100011001 = some (.hdrL2 0 1 2 1) ∧
  decodeTableWord 24 0b0001111111111011111110 = some (.hdrL8 0 0 254 254) ∧
  decodeTableWord 40 0b10111111111111111111111111111111111111 = some (.hdrL16 1 0 0xFFFF 0xFFFF)

/-! ## Bits and bytes -/

/-- R62: the source is `SB` when `SRC = 0`, `IB` when `SRC = 1`; its bit `i` is bit `7 - (i mod 8)` of the byte
`i div 8`; a field's first stream bit is its most significant bit. -/
def Obligations.SourceBitOrder : Prop :=
  (∀ s : State, s.src = .sb → s.source = s.sb) ∧
  (∀ s : State, s.src = .ib → s.source = s.ib) ∧
  (∀ (m : Memory) (i : Nat) (b : Byte), Memory.read m (i / 8) = some b → srcBit m i = some (b.getLsbD (7 - i % 8))) ∧
  (∀ (b : Bool) (bits : List Bool), natOfBits (b :: bits) = b.toNat * 2 ^ bits.length + natOfBits bits)

/-- R134: with `B` the source's bytes as one number, `n` bits read at cursor `c` have the value
`(B div 2^(LIMIT - c - n)) mod 2^n`; two reads in a row of `m` and `n` bits return `hi`, `lo` with
`hi * 2^n + lo` equal to one read of `m + n` bits. -/
def Obligations.ReadBitsIsAQuotient : Prop :=
  (∀ (m : Memory) (bytes : List Byte) (c n : Nat), Holds m bytes → c + n ≤ 8 * bytes.length →
    (readBits m c n).map natOfBits =
      some (natOfBits (bitsOfBytes bytes) / 2 ^ (8 * bytes.length - c - n) % 2 ^ n)) ∧
  (∀ (mem : Memory) (c m n : Nat) (hi lo : List Bool), readBits mem c m = some hi → readBits mem (c + m) n = some lo →
    (readBits mem c (m + n)).map natOfBits = some (natOfBits hi * 2 ^ n + natOfBits lo))

/-- R202 and R203, the lift: in `P_SELECT` with `CMP = 1` the element at the cursor is all the whole compressed
bytes: under `bit_adjacent` the `REMAINING div 8` bytes from the cursor on, each of eight stream bits (R133); under
`byte_aligned` the bytes of the buffer from `(CUR + 7) div 8` on. -/
def Obligations.CompressedBytesLifted : Prop :=
  ∀ (s : State) (bytes : List Byte), s.phase = .pSelect → s.cmp = 1 → Holds s.source bytes →
    s.limit = 8 * bytes.length → s.cur ≤ s.limit →
    (s.build.payloadAlign = .bitAdjacent →
      s.fetch = some (.cbyte (bytesOfBits (s.remaining / 8) ((bitsOfBytes bytes).drop s.cur)))) ∧
    (s.build.payloadAlign = .byteAligned → s.fetch = some (.cbyte (bytes.drop ((s.cur + 7) / 8))))

/-! ## The header parser -/

/-- `FMT`, `CMP`, `LEN` complete wherever their bits are unread (R140, R141, R142): the register written, the
cursor past the field, the next state; nothing else changes. -/
def Obligations.FlagFieldsComplete : Prop :=
  (∀ (f : Bit) (s : State), 1 ≤ s.remaining →
    exec (.fmt f) s = .next { s with fmt := f, cur := s.cur + 1, phase := .hCmp }) ∧
  (∀ (c : Bit) (s : State), 1 ≤ s.remaining →
    exec (.cmp c) s = .next { s with cmp := c, cur := s.cur + 1, phase := .hLen }) ∧
  (∀ (l : BitVec 4) (s : State), 4 ≤ s.remaining →
    exec (.len l) s = .next { s with len := l, cur := s.cur + 4, phase := .hWidth })

/-- `WM1`, `HM1` complete wherever `L = LEN + 1` bits are unread (R143, R144): the dimension is the field plus one,
which never wraps in 17 bits; nothing else changes. -/
def Obligations.DimensionFieldsComplete : Prop :=
  (∀ (w : BitVec 16) (s : State), s.len.toNat + 1 ≤ s.remaining →
    exec (.wm1 w) s =
      .next { s with width := BitVec.ofNat 17 (w.toNat + 1), cur := s.cur + (s.len.toNat + 1), phase := .hHeight }) ∧
  (∀ (h : BitVec 16) (s : State), s.len.toNat + 1 ≤ s.remaining →
    exec (.hm1 h) s =
      .next { s with height := BitVec.ofNat 17 (h.toNat + 1), cur := s.cur + (s.len.toNat + 1), phase := .hCheck }) ∧
  (∀ v : BitVec 16, (BitVec.ofNat 17 (v.toNat + 1)).toNat = v.toNat + 1)

/-- A header field with fewer unread bits than its width raises `TruncatedStream` at its first bit (R146). -/
def Obligations.ShortHeaderFieldRaises : Prop :=
  ∀ s : State,
    (s.remaining < 1 → ∀ f, exec (.fmt f) s = .next (s.raise .truncatedStream s.cur)) ∧
    (s.remaining < 1 → ∀ c, exec (.cmp c) s = .next (s.raise .truncatedStream s.cur)) ∧
    (s.remaining < 4 → ∀ l, exec (.len l) s = .next (s.raise .truncatedStream s.cur)) ∧
    (s.remaining < s.len.toNat + 1 → ∀ w, exec (.wm1 w) s = .next (s.raise .truncatedStream s.cur)) ∧
    (s.remaining < s.len.toNat + 1 → ∀ h, exec (.hm1 h) s = .next (s.raise .truncatedStream s.cur))

/-- The five header steps of R140 to R144 as the machine takes them, the host silent and one step a field: with the
field's bits unread, the step writes the value `ReadBits` gives (plus one for a dimension), moves the cursor past
the field and goes to the next state; with fewer unread, it raises `TruncatedStream(CUR)`. -/
def Obligations.HeaderFieldSteps : Prop :=
  ∀ (s : State), s.hostTurns = [] → s.build.grain = .perField →
    (∀ bits, s.phase = .hFmt → 1 ≤ s.remaining → readBits s.source s.cur 1 = some bits →
      step s = .next { s with fmt := .ofNat 1 (natOfBits bits), cur := s.cur + 1, phase := .hCmp }) ∧
    (∀ bits, s.phase = .hCmp → 1 ≤ s.remaining → readBits s.source s.cur 1 = some bits →
      step s = .next { s with cmp := .ofNat 1 (natOfBits bits), cur := s.cur + 1, phase := .hLen }) ∧
    (∀ bits, s.phase = .hLen → 4 ≤ s.remaining → readBits s.source s.cur 4 = some bits →
      step s = .next { s with len := .ofNat 4 (natOfBits bits), cur := s.cur + 4, phase := .hWidth }) ∧
    (∀ bits, s.phase = .hWidth → s.dimBits ≤ s.remaining → readBits s.source s.cur s.dimBits = some bits →
      step s = .next { s with width := .ofNat 17 (natOfBits bits + 1), cur := s.cur + s.dimBits, phase := .hHeight }) ∧
    (∀ bits, s.phase = .hHeight → s.dimBits ≤ s.remaining → readBits s.source s.cur s.dimBits = some bits →
      step s = .next { s with height := .ofNat 17 (natOfBits bits + 1), cur := s.cur + s.dimBits, phase := .hCheck }) ∧
    ((s.phase = .hFmt ∨ s.phase = .hCmp) → s.remaining < 1 → step s = .next (s.raise .truncatedStream s.cur)) ∧
    (s.phase = .hLen → s.remaining < 4 → step s = .next (s.raise .truncatedStream s.cur)) ∧
    ((s.phase = .hWidth ∨ s.phase = .hHeight) → s.remaining < s.dimBits →
      step s = .next (s.raise .truncatedStream s.cur))

/-- `HDR_CHECK` (R145): with dimensions of 1 to 65536, `FRAME_BITS` is exactly `WIDTH * HEIGHT * b` with `b` 3 for
`FMT = 1` and 1 for `FMT = 0`, and nothing else changes but `STATE`; with a zero dimension, `MalformedHeader(CUR)`. -/
def Obligations.HeaderCheckComputesFrameBits : Prop :=
  (∀ s : State, 1 ≤ s.width.toNat → s.width.toNat ≤ 65536 → 1 ≤ s.height.toNat → s.height.toNat ≤ 65536 →
    ∃ p : BitVec 34, p.toNat = s.width.toNat * s.height.toNat * (if s.fmt = 1 then 3 else 1) ∧
      exec .hdrCheck s = .next { s with frameBits := p, phase := .pSelect }) ∧
  (∀ s : State, s.width.toNat < 1 ∨ s.height.toNat < 1 →
    exec .hdrCheck s = .next (s.raise .malformedHeader s.cur))

/-- The sixteen whole headers complete wherever their `6 + 2L` bits are unread (R92, R147): `FMT`, `CMP`, `LEN`,
`WIDTH = w + 1`, `HEIGHT = h + 1`, `FRAME_BITS` their product with the pixel width, the cursor past the header,
`STATE` at `P_SELECT`; nothing else changes. The last clause: none of these values wraps in its register. -/
def Obligations.WholeHeadersComplete : Prop :=
  (∀ (s : State) (f c : Bit),
    (8 ≤ s.remaining → ∀ w h, exec (.hdrL1 f c w h) s = .next (s.headerResult 1 f c w.toNat h.toNat)) ∧
    (10 ≤ s.remaining → ∀ w h, exec (.hdrL2 f c w h) s = .next (s.headerResult 2 f c w.toNat h.toNat)) ∧
    (12 ≤ s.remaining → ∀ w h, exec (.hdrL3 f c w h) s = .next (s.headerResult 3 f c w.toNat h.toNat)) ∧
    (14 ≤ s.remaining → ∀ w h, exec (.hdrL4 f c w h) s = .next (s.headerResult 4 f c w.toNat h.toNat)) ∧
    (16 ≤ s.remaining → ∀ w h, exec (.hdrL5 f c w h) s = .next (s.headerResult 5 f c w.toNat h.toNat)) ∧
    (18 ≤ s.remaining → ∀ w h, exec (.hdrL6 f c w h) s = .next (s.headerResult 6 f c w.toNat h.toNat)) ∧
    (20 ≤ s.remaining → ∀ w h, exec (.hdrL7 f c w h) s = .next (s.headerResult 7 f c w.toNat h.toNat)) ∧
    (22 ≤ s.remaining → ∀ w h, exec (.hdrL8 f c w h) s = .next (s.headerResult 8 f c w.toNat h.toNat)) ∧
    (24 ≤ s.remaining → ∀ w h, exec (.hdrL9 f c w h) s = .next (s.headerResult 9 f c w.toNat h.toNat)) ∧
    (26 ≤ s.remaining → ∀ w h, exec (.hdrL10 f c w h) s = .next (s.headerResult 10 f c w.toNat h.toNat)) ∧
    (28 ≤ s.remaining → ∀ w h, exec (.hdrL11 f c w h) s = .next (s.headerResult 11 f c w.toNat h.toNat)) ∧
    (30 ≤ s.remaining → ∀ w h, exec (.hdrL12 f c w h) s = .next (s.headerResult 12 f c w.toNat h.toNat)) ∧
    (32 ≤ s.remaining → ∀ w h, exec (.hdrL13 f c w h) s = .next (s.headerResult 13 f c w.toNat h.toNat)) ∧
    (34 ≤ s.remaining → ∀ w h, exec (.hdrL14 f c w h) s = .next (s.headerResult 14 f c w.toNat h.toNat)) ∧
    (36 ≤ s.remaining → ∀ w h, exec (.hdrL15 f c w h) s = .next (s.headerResult 15 f c w.toNat h.toNat)) ∧
    (38 ≤ s.remaining → ∀ w h, exec (.hdrL16 f c w h) s = .next (s.headerResult 16 f c w.toNat h.toNat))) ∧
  (∀ (s : State) (n : Nat) (f c : Bit) (w h : BitVec 16), 1 ≤ n → n ≤ 16 →
    (s.headerResult n f c w.toNat h.toNat).len.toNat = n - 1 ∧
    (s.headerResult n f c w.toNat h.toNat).width.toNat = w.toNat + 1 ∧
    (s.headerResult n f c w.toNat h.toNat).height.toNat = h.toNat + 1 ∧
    (s.headerResult n f c w.toNat h.toNat).frameBits.toNat =
      (w.toNat + 1) * (h.toNat + 1) * (if f = 1 then 3 else 1))

/-- The sixteen whole headers with fewer unread bits than `6 + 2L` raise `TruncatedStream` at the first bit of the
first field that does not fit (R146, R147). -/
def Obligations.WholeHeadersTruncate : Prop :=
  ∀ (s : State) (f c : Bit),
    (s.remaining < 8 → ∀ w h, exec (.hdrL1 f c w h) s = .next (s.raise .truncatedStream (s.headerFailure 1))) ∧
    (s.remaining < 10 → ∀ w h, exec (.hdrL2 f c w h) s = .next (s.raise .truncatedStream (s.headerFailure 2))) ∧
    (s.remaining < 12 → ∀ w h, exec (.hdrL3 f c w h) s = .next (s.raise .truncatedStream (s.headerFailure 3))) ∧
    (s.remaining < 14 → ∀ w h, exec (.hdrL4 f c w h) s = .next (s.raise .truncatedStream (s.headerFailure 4))) ∧
    (s.remaining < 16 → ∀ w h, exec (.hdrL5 f c w h) s = .next (s.raise .truncatedStream (s.headerFailure 5))) ∧
    (s.remaining < 18 → ∀ w h, exec (.hdrL6 f c w h) s = .next (s.raise .truncatedStream (s.headerFailure 6))) ∧
    (s.remaining < 20 → ∀ w h, exec (.hdrL7 f c w h) s = .next (s.raise .truncatedStream (s.headerFailure 7))) ∧
    (s.remaining < 22 → ∀ w h, exec (.hdrL8 f c w h) s = .next (s.raise .truncatedStream (s.headerFailure 8))) ∧
    (s.remaining < 24 → ∀ w h, exec (.hdrL9 f c w h) s = .next (s.raise .truncatedStream (s.headerFailure 9))) ∧
    (s.remaining < 26 → ∀ w h, exec (.hdrL10 f c w h) s = .next (s.raise .truncatedStream (s.headerFailure 10))) ∧
    (s.remaining < 28 → ∀ w h, exec (.hdrL11 f c w h) s = .next (s.raise .truncatedStream (s.headerFailure 11))) ∧
    (s.remaining < 30 → ∀ w h, exec (.hdrL12 f c w h) s = .next (s.raise .truncatedStream (s.headerFailure 12))) ∧
    (s.remaining < 32 → ∀ w h, exec (.hdrL13 f c w h) s = .next (s.raise .truncatedStream (s.headerFailure 13))) ∧
    (s.remaining < 34 → ∀ w h, exec (.hdrL14 f c w h) s = .next (s.raise .truncatedStream (s.headerFailure 14))) ∧
    (s.remaining < 36 → ∀ w h, exec (.hdrL15 f c w h) s = .next (s.raise .truncatedStream (s.headerFailure 15))) ∧
    (s.remaining < 38 → ∀ w h, exec (.hdrL16 f c w h) s = .next (s.raise .truncatedStream (s.headerFailure 16)))

/-- The big step of a header and its small steps agree (R147, D2): where a whole header is unread in `H_FMT`, the
one step of the whole-header grain and the six steps of the per-field grain lead to the same state. (The grain
itself is the model's choice, log entry 4.) -/
def Obligations.WholeHeaderStepIsSixSteps : Prop :=
  ∀ (s t : State), s.phase = .hFmt → s.hostTurns = [] → s.build.grain = .wholeHeader → s.ctx.whole = true →
    step s = .next t →
    Host.Core.run core 6 { s with build := { s.build with grain := .perField } } =
      .next { t with build := { t.build with grain := .perField } }

/-- R147: `ParseHeader` agrees with the six steps R140 to R145 run in order from the launch of any byte list: its
error is the error entry with its position, its result the header registers, the cursor after the header and
`P_SELECT`; nothing else changes. (`ERROR` is kept by further steps, so six steps serve both.) -/
def Obligations.HeaderRunIsParseHeader : Prop :=
  ∀ (s : State) (bytes : List Byte), Launched bytes s →
    match parseHeader bytes with
    | .error (e, pos) => Host.Core.run core 6 s = .next (s.raise e pos)
    | .ok h =>
      Host.Core.run core 6 s = .next { s with
        fmt := h.fmt, cmp := h.cmp, len := h.len, width := .ofNat 17 h.width, height := .ofNat 17 h.height
        frameBits := .ofNat 34 h.frameBits, cur := h.cur, phase := .pSelect } ∧
      h.width ≤ 65536 ∧ h.height ≤ 65536 ∧ h.frameBits < 2 ^ 34

/-- R148: for every `W`, `H` in 1..65536 and every `L` with `max(1, clog2(W), clog2(H)) <= L <= 16`, the header that
carries `L - 1`, `W - 1`, `H - 1`, followed by anything, parses to `W` and `H`; the canonical `L` of the source's
test dimensions. -/
def Obligations.HeaderRoundTrip : Prop :=
  (∀ (img : Image) (lzw : Bool) (L : Nat) (rest : List Bool), 1 ≤ img.width → img.width ≤ 65536 → 1 ≤ img.height →
    img.height ≤ 65536 → max 1 (max (clog2 img.width) (clog2 img.height)) ≤ L → L ≤ 16 →
    parseHeader (finishBytes (encHeader img lzw L ++ rest)) =
      .ok { fmt := img.fmt, cmp := BitVec.ofBool lzw, len := .ofNat 4 (L - 1), width := img.width, height := img.height
            frameBits := img.width * img.height * pixelBits img.fmt, cur := 6 + 2 * L }) ∧
  [1, 2, 7, 16, 255, 256].map (fun d => canonicalL d d) = [1, 1, 3, 4, 8, 8]

/-- R10: `clog2(n)` is the least `k` with `2^k >= n`, equivalently the number of bits of the numeral of `n - 1`, which
fits that many bits; and its values as the spec lists them. -/
def Obligations.ClogIsLeastExponent : Prop :=
  (∀ n : Nat, 1 ≤ n →
    n ≤ 2 ^ clog2 n ∧ (∀ k, n ≤ 2 ^ k → clog2 n ≤ k) ∧ clog2 n = Nat.size (n - 1) ∧ n - 1 < 2 ^ clog2 n) ∧
  [1, 2, 3, 4, 5, 7, 8, 9, 16, 17, 255, 256, 257, 65535, 65536].map clog2 =
    [0, 1, 2, 2, 3, 3, 3, 4, 4, 5, 8, 8, 9, 16, 16]

/-! ## Errors -/

/-- R258: the error entry sets `ERRCODE` and `ERRPOS`, clears every result, the cursor registers and the frame store,
goes to `ERROR` with `STATUS = 0xD4`, and leaves `SB`, `IB` and `STREAM_LEN` as they are.
(That it also clears the model's own record of the poll, `handedOver`, is the model's: DEDUCED, log entry 27.) -/
def Obligations.ErrorEntry : Prop :=
  ∀ (s : State) (e : ErrCode) (pos : Nat),
    let t := s.raise e pos
    t.errcode = e ∧ t.errpos = pos ∧
      t.fmt = 0 ∧ t.cmp = 0 ∧ t.len = 0 ∧ t.width = 0 ∧ t.height = 0 ∧ t.frameBits = 0 ∧ t.nframes = 0 ∧ t.fs = [] ∧
      t.cur = 0 ∧ t.limit = 0 ∧ t.src = .sb ∧ t.x = 0 ∧ t.y = 0 ∧ t.phase = .error ∧ t.status = 0xD4 ∧
      t.sb = s.sb ∧ t.ib = s.ib ∧ t.streamLen = s.streamLen ∧ t.build = s.build ∧ t.hostTurns = s.hostTurns ∧
      t.handedOver = false

/-- R259: the only ways out of `ERROR` are the host's `START`, `SRST` and reset: no decoder step leaves it, and a
host action that does is a write of `CTRL` with one of its two bits, or the reset. -/
def Obligations.ErrorIsLeftByHostOnly : Prop :=
  (∀ s t : State, s.phase = .error → decoderStep s = .next t → t = s) ∧
  (∀ (s t : State) (a : HostAction), s.phase = .error → hostAct a s = .next t → t.phase ≠ .error →
    a = .reset ∨ ∃ v : Nat, a = .writeReg .ctrl v ∧ (v.testBit 0 = true ∨ v.testBit 1 = true))

/-! ## Payload selection -/

/-- `SEL_RAW` (R200): in `P_SELECT` with `CMP = 0` the step only goes to `F_TEST`; `SRC`, `CUR`, `LIMIT` and
everything else unchanged; where the state meets the invariants they are 0, `6 + 2L` and `8*N`. -/
def Obligations.RawPayloadSelected : Prop :=
  (∀ s : State, exec .selRaw s = .next { s with phase := .fTest }) ∧
  (∀ s : State, s.hostTurns = [] → s.phase = .pSelect → s.cmp = 0 → step s = .next { s with phase := .fTest }) ∧
  (∀ s : State, Inv s → s.phase = .pSelect →
    s.src = .sb ∧ s.cur = 6 + 2 * (s.len.toNat + 1) ∧ s.limit = 8 * s.streamLen)

/-- `SEL_INFLATE` (R202, R213) on every state and every answer of the inflate agent: `fail` raises
`InflateFault(6 + 2*(LEN+1))`; an answer that fits the cursor fills `IB`, which is then the source, read from bit 0;
a longer one is refused. -/
def Obligations.InflateHandOff : Prop :=
  ∀ (bytes : List Byte) (s : State),
    exec (.cbyte bytes) s =
      match Config.inflate bytes with
      | none => .next (s.raise .inflateFault (6 + 2 * (s.len.toNat + 1)))
      | some r =>
        if 8 * r.length < 2 ^ s.build.cursorW then
          .next { s with ib := Memory.ofBytes r, src := .ib, cur := 0, limit := 8 * r.length, phase := .fTest }
        else .refused .inflateTooLong

/-- `CBYTE` completes wherever the inflate agent's answer fits the cursor (R202, R253): a next state, `IB` holding
exactly the answer from address 0 and being the source; or the error entry where the agent answers `fail`. `SB`,
`STREAM_LEN`, the header registers and the frame store are unchanged where it succeeds. -/
def Obligations.CompressedPayloadCompletes : Prop :=
  ∀ (bytes : List Byte) (s : State), (∀ r, Config.inflate bytes = some r → 8 * r.length < 2 ^ s.build.cursorW) →
    ∃ t, exec (.cbyte bytes) s = .next t ∧
      (Config.inflate bytes = none → t = s.raise .inflateFault (6 + 2 * (s.len.toNat + 1))) ∧
      (∀ r, Config.inflate bytes = some r →
        (∀ a, Memory.read t.ib a = r[a]?) ∧ t.src = .ib ∧ t.cur = 0 ∧ t.limit = 8 * r.length ∧ t.phase = .fTest ∧
        t = { s with ib := t.ib, src := .ib, cur := 0, limit := 8 * r.length, phase := .fTest })

/-! ## The frame sequencer -/

/-- `FRAME_TEST`, stop branch (R171): with fewer bits unread than a pixel block the run is done; `STATUS.DONE` is set
and `STATUS.BUSY` clear; nothing else changes. -/
def Obligations.FrameTestStops : Prop :=
  ∀ s : State, s.remaining < s.frameBits.toNat →
    exec .frameTest s = .next { s with phase := .done } ∧
      ({ s with phase := .done } : State).doneFlag = true ∧ ({ s with phase := .done } : State).busy = false

/-- `FRAME_TEST`, frame branch (R172): with a pixel block unread and room in the store, a zero-valued frame with its
duration unset is begun, `X` and `Y` are zero, `NFRAMES` is not yet counted. -/
def Obligations.FrameTestBegins : Prop :=
  ∀ s : State, s.frameBits.toNat ≤ s.remaining → s.build.maxFrames ≠ some s.nframes → s.fs.length = s.nframes →
    exec .frameTest s = .next { s with
      fs := s.fs ++ [{ pix := List.replicate (s.width.toNat * s.height.toNat) 0, dur := none }]
      x := 0, y := 0, phase := .fPixel }

/-- R172 and R254, the capacity: with a pixel block unread and `NFRAMES = MAX_FRAMES`, `CapacityExceeded(CUR)`. -/
def Obligations.FrameStoreOverflowRaises : Prop :=
  ∀ s : State, s.frameBits.toNat ≤ s.remaining → s.build.maxFrames = some s.nframes →
    exec .frameTest s = .next (s.raise .capacityExceeded s.cur)

/-- `RD_PIX1` and `RD_PIX3` (R173): the code goes to cell `(NFRAMES, Y, X)`, at linear index `Y*WIDTH + X` of the frame,
the cursor passes its 1 or 3 bits; then `X + 1`, or the next row, or `D_TEST` after the last pixel; nothing else changes. -/
def Obligations.PixelsStored : Prop :=
  ∀ (s : State) (fr : Frame) (n : Nat) (i : Instr) (code : Code),
    ((∃ v : Bit, i = .pix1 v ∧ n = 1 ∧ code.toNat = v.toNat) ∨ (i = .pix3 code ∧ n = 3)) →
    n ≤ s.remaining → s.fs[s.nframes]? = some fr → s.y.toNat * s.width.toNat + s.x.toNat < fr.pix.length →
    let u := { s with
      cur := s.cur + n
      fs := s.fs.set s.nframes { fr with pix := fr.pix.set (s.y.toNat * s.width.toNat + s.x.toNat) code } }
    (s.x.toNat + 1 < s.width.toNat → exec i s = .next { u with x := s.x + 1 }) ∧
    (¬ s.x.toNat + 1 < s.width.toNat → s.y.toNat + 1 < s.height.toNat → exec i s = .next { u with x := 0, y := s.y + 1 }) ∧
    (¬ s.x.toNat + 1 < s.width.toNat → ¬ s.y.toNat + 1 < s.height.toNat → exec i s = .next { u with phase := .dTest })

/-- The frame of a pixel (R173, R65, R66): the addressed cell holds the code read, every other cell and every
duration is unchanged, and so are all registers but `CUR`, `X`, `Y` and `STATE`, and the buffers. -/
def Obligations.PixelFrame : Prop :=
  ∀ (s t : State) (i : Instr) (code : Code),
    ((∃ v : Bit, i = .pix1 v ∧ code = v.setWidth 3) ∨ i = .pix3 code) → exec i s = .next t →
    cell t.fs s.nframes (s.y.toNat * s.width.toNat + s.x.toNat) = some code ∧
    (∀ f j, (f, j) ≠ (s.nframes, s.y.toNat * s.width.toNat + s.x.toNat) → cell t.fs f j = cell s.fs f j) ∧
    (∀ f, duration t.fs f = duration s.fs f) ∧
    t = { s with cur := t.cur, x := t.x, y := t.y, phase := t.phase, fs := t.fs }

/-- `DUR_TEST` (R174): with 8 bits unread a duration follows; with fewer the frame is complete, its duration unset. -/
def Obligations.DurationTested : Prop :=
  (∀ s : State, 8 ≤ s.remaining → exec .durTest s = .next { s with phase := .dRead }) ∧
  (∀ s : State, s.remaining < 8 → exec .durTest s = .next { s with nframes := s.nframes + 1, phase := .fTest })

/-- `RD_DUR` (R175): the byte is the duration of frame `NFRAMES`, set; the frame is complete; no other frame and no
pixel changes; in milliseconds it is ten times the byte. -/
def Obligations.DurationStored : Prop :=
  ∀ (s : State) (d : Byte) (fr : Frame), 8 ≤ s.remaining → s.fs[s.nframes]? = some fr →
    exec (.dur d) s = .next { s with
      cur := s.cur + 8, fs := s.fs.set s.nframes { fr with dur := some d }, nframes := s.nframes + 1, phase := .fTest } ∧
    duration (s.fs.set s.nframes { fr with dur := some d }) s.nframes = some d ∧
    (∀ f, f ≠ s.nframes → duration (s.fs.set s.nframes { fr with dur := some d }) f = duration s.fs f) ∧
    (∀ f j, cell (s.fs.set s.nframes { fr with dur := some d }) f j = cell s.fs f j) ∧
    durationMs d = 10 * d.toNat

/-- `PAD` and `DONE` (R176, R102): the residue has no effect; in `DONE` the decoder's step changes nothing, whatever
the residue bits are, even where they have no value. -/
def Obligations.ResidueHasNoEffect : Prop :=
  (∀ (n : Nat) (s : State), exec (.pad n) s = .next s) ∧
  (∀ s : State, s.hostTurns = [] → s.phase = .done → step s = .next s)

/-- R163: `Unpack3` is a bijection from the eight codes onto the triples with inverse `Pack3`, the channels being R
bit 2, G bit 1, B bit 0; `Unpack1` is the identity. -/
def Obligations.PixelCodesBijective : Prop :=
  (∀ c : Code, pack3 (unpack3 c).1 (unpack3 c).2.1 (unpack3 c).2.2 = c) ∧
  (∀ r g b : Bool, unpack3 (pack3 r g b) = (r, g, b) ∧ (pack3 r g b).toNat = 4 * r.toNat + 2 * g.toNat + b.toNat) ∧
  (∀ c : Bit, pack1 (unpack1 c) = c ∧ (unpack1 c).toNat = c.toNat) ∧ (∀ v : Bool, unpack1 (pack1 v) = v)

/-- The payload steps of R171 to R175 as the machine takes them from every state that meets the invariants, the host
silent: a pixel or a duration is read at the cursor and never runs out of bits (R131 b, R47 d), and each step gives
a next state. -/
def Obligations.PayloadSteps : Prop :=
  ∀ s : State, Inv s → s.hostTurns = [] →
    (s.phase = .fTest → step s = exec .frameTest s ∧ ∃ t, step s = .next t) ∧
    (s.phase = .fPixel → s.fmt = 0 → ∃ v : Bit, readBits s.source s.cur 1 = some (bitsOfNat 1 v.toNat) ∧
      step s = exec (.pix1 v) s ∧ ∃ t, step s = .next t) ∧
    (s.phase = .fPixel → s.fmt = 1 → ∃ c : Code, readBits s.source s.cur 3 = some (bitsOfNat 3 c.toNat) ∧
      step s = exec (.pix3 c) s ∧ ∃ t, step s = .next t) ∧
    (s.phase = .dTest → step s = exec .durTest s ∧ ∃ t, step s = .next t) ∧
    (s.phase = .dRead → ∃ d : Byte, readBits s.source s.cur 8 = some (bitsOfNat 8 d.toNat) ∧
      step s = exec (.dur d) s ∧ ∃ t, step s = .next t)

/-- R180, the closed form of the frame loop with `MAX_FRAMES = none`: `R0 div (P+8)` frames with a duration, first;
then `(R0 mod (P+8)) div P` without; the residue; and where each frame's block and duration stand. -/
def Obligations.FrameLoopClosedForm : Prop :=
  ∀ (b n : Nat) (bits : List Bool), 1 ≤ n * b →
    let p := n * b
    let nd := framesWithDuration bits.length p
    let nu := framesWithout bits.length p
    ∃ frames rest, decodeFrames none b n bits = some (frames, rest) ∧
      frames.length = nd + nu ∧ rest.length = residueBits bits.length p ∧
      (∀ k, k < nd → frames[k]? = some
        { pix := readCodes b n (bits.drop (k * (p + 8)))
          dur := some (.ofNat 8 (natOfBits ((bits.drop (k * (p + 8) + p)).take 8))) }) ∧
      (∀ j, j < nu → frames[nd + j]? = some
        { pix := readCodes b n (bits.drop (nd * (p + 8) + j * p)), dur := none }) ∧
      (2 ≤ nu → p < 8)

/-- R178: `DecodeFrames` agrees with the steps R171 to R175 run to the end, from every state at its first
`F_TEST` that meets the invariants, the host silent: the frames, their number and the residue in `DONE`, all other
registers unchanged; or the error entry of `CapacityExceeded`. -/
def Obligations.PayloadRunIsDecodeFrames : Prop :=
  ∀ (s : State) (bits : List Bool), Inv s → s.phase = .fTest → s.nframes = 0 → s.hostTurns = [] →
    s.unread = some bits →
    ∃ k, match decodeFrames s.build.maxFrames (pixelBits s.fmt) (s.width.toNat * s.height.toNat) bits with
      | some (frames, rest) =>
        ∃ t, Host.Core.run core k s = .next t ∧ t.phase = .done ∧ t.fs = frames ∧ t.nframes = frames.length ∧
          t.remaining = rest.length ∧
          t = { s with cur := t.cur, x := t.x, y := t.y, fs := t.fs, nframes := t.nframes, phase := .done }
      | none => ∃ pos, Host.Core.run core k s = .next (s.raise .capacityExceeded pos)

/-- R179: every run ends. From every `F_TEST` state that meets the invariants, the host silent, at most
`3 * REMAINING + 1` steps lead to `DONE` or `ERROR`; and from `H_FMT` at most seven lead to `F_TEST` or `ERROR`, or
to the refusal of an over-long inflate answer (R213). `Inflate` answers at once and always here (U9, log entry 21). -/
def Obligations.EveryRunEnds : Prop :=
  (∀ s : State, Inv s → s.phase = .fTest → s.hostTurns = [] →
    ∃ k t, k ≤ 3 * s.remaining + 1 ∧ Host.Core.run core k s = .next t ∧ (t.phase = .done ∨ t.phase = .error)) ∧
  (∀ s : State, Inv s → s.phase = .hFmt → s.hostTurns = [] →
    ∃ k, k ≤ 7 ∧ ((∃ t, Host.Core.run core k s = .next t ∧ (t.phase = .fTest ∨ t.phase = .error)) ∨
      Host.Core.run core k s = .refused .inflateTooLong))

/-- R183 on the raw payload, with R181: an image's raw payload followed by `p < 8` zero bits of pad decodes to its
frames, pixels equal, durations normalised (set, 0 where unset, for two or more frames; unset for one), then
`p div P` all-zero frames without a duration; the residue is `p mod P` zero bits. -/
def Obligations.RawPayloadRoundTrip : Prop :=
  ∀ (img : Image) (p : Nat), img.valid = true → p < 8 →
    let P := img.width * img.height * pixelBits img.fmt
    decodeFrames none (pixelBits img.fmt) (img.width * img.height) (rawPayload img ++ List.replicate p false) =
      some (img.normalised ++ List.replicate (p / P) (zeroFrame (img.width * img.height)), List.replicate (p % P) false)

/-- R183 on the machine, `MAX_FRAMES = none`. Uncompressed: launched over the stream the reference encoder gives an
image, it ends in `DONE` and observes (R218) the image's format and dimensions, its frames, durations normalised, and
after them the `p div P` all-zero frames of R181, `p` the stream's pad; the residue is `p mod P`. Compressed: the same
with the pad `p1` of the raw payload, from the state in which the inflate agent has given that payload back; and from
the launch of the compressed stream: after the six header steps the agent is handed the compressor's bytes, and on the
answer that is the payload (in bytes, where it fits the cursor, R213) the run ends so. Where `Inflate` itself gives that
answer, that is the machine's own run (`Config.inflate` is a free value, log entry 3). -/
def Obligations.EncodedImageDecodes : Prop :=
  (∀ (img : Image) (deflate : List Byte → List Byte) (bytes : List Byte) (s : State),
    encodeImage deflate s.build.payloadAlign img false = some bytes → Inv s → Launched bytes s →
    s.build.maxFrames = none →
    let P := img.width * img.height * pixelBits img.fmt
    let L := canonicalL img.width img.height
    let p := (8 - (6 + 2 * L + (rawPayload img).length) % 8) % 8
    ∃ k t, Host.Core.run core k s = .next t ∧
      observe t = some (.image img.fmt 0 (.ofNat 4 (L - 1)) img.width img.height (img.frames.length + p / P)
        (img.normalised ++ List.replicate (p / P) (zeroFrame (img.width * img.height))) (p % P))) ∧
  (∀ (img : Image) (s : State), img.valid = true → Inv s → s.phase = .fTest → s.src = .ib → s.cur = 0 →
    Holds s.ib (finishBytes (rawPayload img)) → s.limit = 8 * (finishBytes (rawPayload img)).length → s.nframes = 0 →
    s.hostTurns = [] → s.build.maxFrames = none → s.fmt = img.fmt → s.width.toNat = img.width →
    s.height.toNat = img.height →
    let P := img.width * img.height * pixelBits img.fmt
    let p := (8 - (rawPayload img).length % 8) % 8
    ∃ k t, Host.Core.run core k s = .next t ∧
      observe t = some (.image img.fmt 1 s.len img.width img.height (img.frames.length + p / P)
        (img.normalised ++ List.replicate (p / P) (zeroFrame (img.width * img.height))) (p % P))) ∧
  (∀ (img : Image) (deflate : List Byte → List Byte) (bytes : List Byte) (s : State),
    encodeImage deflate s.build.payloadAlign img true = some bytes → Inv s → Launched bytes s →
    s.build.maxFrames = none → 8 * (finishBytes (rawPayload img)).length < 2 ^ s.build.cursorW →
    let payload := finishBytes (rawPayload img)
    let P := img.width * img.height * pixelBits img.fmt
    let L := canonicalL img.width img.height
    let p := (8 - (rawPayload img).length % 8) % 8
    ∃ u v t k, Host.Core.run core 6 s = .next u ∧ step u = takeInflated (Config.inflate (deflate payload)) u ∧
      takeInflated (some payload) u = .next v ∧ Host.Core.run core k v = .next t ∧
      observe t = some (.image img.fmt 1 (.ofNat 4 (L - 1)) img.width img.height (img.frames.length + p / P)
        (img.normalised ++ List.replicate (p / P) (zeroFrame (img.width * img.height))) (p % P)) ∧
      (Config.inflate (deflate payload) = some payload → Host.Core.run core (7 + k) s = .next t))

/-- R43, U5: the bits left unread do not matter. Of the frame loop: bits that differ only where it leaves them give the
same frames. Of the machine, the host silent: a run that ends in `DONE` without a change of source, and the run from a
state whose buffers agree with it on the bits of the source it has read, are observed alike; and of two launched
compressed streams that agree on the header and on the whole compressed bytes, whatever their bits after the last whole
byte (and, under `byte_aligned`, before the first), every run of the one is matched by the other. -/
def Obligations.ResidueBitsDoNotMatter : Prop :=
  (∀ (mf : Option Nat) (b n : Nat) (used rest rest' : List Bool) (frames : List Frame), 1 ≤ n * b →
    decodeFrames mf b n (used ++ rest) = some (frames, rest) → rest'.length = rest.length →
    decodeFrames mf b n (used ++ rest') = some (frames, rest')) ∧
  (∀ (s s' t : State) (k : Nat), Inv s → Inv s' → s.hostTurns = [] → s' = { s with sb := s'.sb, ib := s'.ib } →
    Host.Core.run core k s = .next t → t.phase = .done → t.src = s.src →
    (∀ i, i < t.cur → srcBit s'.source i = srcBit s.source i) →
    ∃ t', Host.Core.run core k s' = .next t' ∧ observe t' = observe t) ∧
  (∀ (bytes bytes' : List Byte) (s s' u : State), Launched bytes s → Launched bytes' s' →
    s' = { s with sb := s'.sb, ib := s'.ib } → Host.Core.run core 6 s = .next u → u.phase = .pSelect → u.cmp = 1 →
    (∀ i, i < u.cur ∨ (u.cur + u.skip ≤ i ∧ i < u.cur + u.skip + 8 * ((u.remaining - u.skip) / 8)) →
      srcBit s'.sb i = srcBit s.sb i) →
    ∀ (k : Nat) (t : State), Host.Core.run core k s = .next t →
      ∃ t', Host.Core.run core k s' = .next t' ∧ t'.phase = t.phase ∧ observe t' = observe t)

/-! ## What the operations leave alone -/

/-- The frame of every element (R41, R46): `SB`, `STREAM_LEN` and the build are unchanged by every one, raising or
not, and so are the host's turns and data; `IB` is unchanged by every one but `CBYTE`. -/
def Obligations.ElementsKeepBuffers : Prop :=
  ∀ (i : Instr) (s t : State), exec i s = .next t →
    (∀ a, Memory.read t.sb a = Memory.read s.sb a) ∧ t.streamLen = s.streamLen ∧ t.build = s.build ∧
    t.hostTurns = s.hostTurns ∧ t.hostData = s.hostData ∧ t.freeReads = s.freeReads ∧
    ((∀ bytes, i ≠ .cbyte bytes) → ∀ a, Memory.read t.ib a = Memory.read s.ib a)

/-- The write columns of R46: an element that does not raise writes only the registers and memories of its row. -/
def Obligations.ElementsWriteTheirColumns : Prop :=
  ∀ s t : State, t.phase ≠ .error →
    (∀ f, exec (.fmt f) s = .next t → t = { s with phase := t.phase, cur := t.cur, fmt := t.fmt }) ∧
    (∀ c, exec (.cmp c) s = .next t → t = { s with phase := t.phase, cur := t.cur, cmp := t.cmp }) ∧
    (∀ l, exec (.len l) s = .next t → t = { s with phase := t.phase, cur := t.cur, len := t.len }) ∧
    (∀ w, exec (.wm1 w) s = .next t → t = { s with phase := t.phase, cur := t.cur, width := t.width }) ∧
    (∀ h, exec (.hm1 h) s = .next t → t = { s with phase := t.phase, cur := t.cur, height := t.height }) ∧
    (exec .hdrCheck s = .next t → t = { s with phase := t.phase, frameBits := t.frameBits }) ∧
    (exec .selRaw s = .next t → t = { s with phase := t.phase }) ∧
    (∀ bytes, exec (.cbyte bytes) s = .next t →
      t = { s with phase := t.phase, cur := t.cur, limit := t.limit, src := t.src, ib := t.ib }) ∧
    (exec .frameTest s = .next t → t = { s with phase := t.phase, x := t.x, y := t.y, fs := t.fs }) ∧
    (∀ v, exec (.pix1 v) s = .next t → t = { s with phase := t.phase, cur := t.cur, x := t.x, y := t.y, fs := t.fs }) ∧
    (∀ v, exec (.pix3 v) s = .next t → t = { s with phase := t.phase, cur := t.cur, x := t.x, y := t.y, fs := t.fs }) ∧
    (exec .durTest s = .next t → t = { s with phase := t.phase, nframes := t.nframes }) ∧
    (∀ d, exec (.dur d) s = .next t → t = { s with phase := t.phase, cur := t.cur, nframes := t.nframes, fs := t.fs }) ∧
    (∀ n, exec (.pad n) s = .next t → t = s)

/-! ## The reference encoder -/

/-- R109: the lengths. A raw payload has `S = F*P` bits for at most one frame, `S = F*(P+8)` for more; uncompressed,
the stream has `6 + 2L + S` bits and the pad to a byte; compressed, the payload is padded to bytes, and the stream
has `6 + 2L + 8k` bits and the pad to a byte. No stream is shorter than one byte, and `03` is one. -/
def Obligations.StreamLengths : Prop :=
  (∀ (img : Image) (deflate : List Byte → List Byte), img.valid = true →
    let P := img.width * img.height * pixelBits img.fmt
    let F := img.frames.length
    let S := if F ≤ 1 then F * P else F * (P + 8)
    let hdr := 6 + 2 * canonicalL img.width img.height
    let k := (deflate (finishBytes (rawPayload img))).length
    (rawPayload img).length = S ∧
    8 * (finishBytes (rawPayload img)).length = S + (8 - S % 8) % 8 ∧
    (∃ bytes, encodeImage deflate .bitAdjacent img false = some bytes ∧
      8 * bytes.length = (hdr + S) + (8 - (hdr + S) % 8) % 8 ∧ 1 ≤ bytes.length) ∧
    (∃ bytes, encodeImage deflate .bitAdjacent img true = some bytes ∧
      8 * bytes.length = (hdr + 8 * k) + (8 - hdr % 8) % 8 ∧ 1 ≤ bytes.length)) ∧
  encodeImage id .bitAdjacent { fmt := 0, width := 2, height := 2, frames := [] } false = some [0x03]

/-- R239: `WriteBits` is the inverse of `ReadBits`: a buffer that holds the bytes of fields written in order and
finished gives back to `ReadBits`, at each field's place, the value written. -/
def Obligations.WrittenFieldsReadBack : Prop :=
  ∀ (m : Memory) (before after : List (Nat × Nat)) (n v : Nat), 1 ≤ n → n ≤ 16 → v < 2 ^ n →
    let write := fun fields : List (Nat × Nat) => fields.flatMap fun f => bitsOfNat f.1 f.2
    Holds m (finishBytes (write (before ++ (n, v) :: after))) →
    (readBits m (write before).length n).map natOfBits = some v

/-! ## The host -/

/-- R36: `STATUS` is `16*STATE + 4*ERR + 2*DONE + BUSY`, `BUSY` in states 1 to 11, `DONE` in 12, `ERR` in 13; bit 3 is 0;
the three flags are all 0 exactly in `IDLE`, and no two are 1. -/
def Obligations.StatusIsAFunctionOfState : Prop :=
  ∀ s : State,
    s.status.toNat = 16 * (phaseCode s.phase).toNat + 4 * s.errFlag.toNat + 2 * s.doneFlag.toNat + s.busy.toNat ∧
    (s.busy = true ↔ 1 ≤ (phaseCode s.phase).toNat ∧ (phaseCode s.phase).toNat ≤ 11) ∧
    (s.doneFlag = true ↔ (phaseCode s.phase).toNat = 12) ∧ (s.errFlag = true ↔ (phaseCode s.phase).toNat = 13) ∧
    s.status.getLsbD 3 = false ∧ ((s.busy || s.doneFlag || s.errFlag) = false ↔ s.phase = .idle) ∧
    s.busy.toNat + s.doneFlag.toNat + s.errFlag.toNat ≤ 1

/-- R210: `START`, a write of 1 to `CTRL`, in `IDLE`, `DONE` or `ERROR` over bytes that all have a value: every result
and error register 0, the frame store empty, `LIMIT = 8 * STREAM_LEN`, `STATUS = 0x11`;
while `BUSY` it does nothing. (That it also
clears the model's own record of the poll is the model's: DEDUCED, log entry 27.) -/
def Obligations.StartBeginsARun : Prop :=
  (∀ s : State, s.busy = false → Memory.written s.sb s.streamLen = true →
    hostAct (.writeReg .ctrl 1) s = .next { s with
      fmt := 0, cmp := 0, len := 0, width := 0, height := 0, frameBits := 0, nframes := 0, fs := []
      errcode := .none, errpos := 0, x := 0, y := 0, src := .sb, cur := 0, limit := 8 * s.streamLen, phase := .hFmt
      handedOver := false } ∧
    ({ s with phase := .hFmt } : State).status = 0x11) ∧
  (∀ s : State, s.busy = true → hostAct (.writeReg .ctrl 1) s = .next s)

/-- R35: a write of `CTRL` with bit 1 is `SRST`, whatever bit 0; with bit 0 only it is `START`; with neither it does
nothing; bits above bit 1 are ignored; `CTRL` reads as 0. -/
def Obligations.ControlBits : Prop :=
  ∀ (s : State) (v : Nat),
    (v.testBit 1 = true → hostAct (.writeReg .ctrl v) s = .next s.softReset) ∧
    (v.testBit 1 = false → v.testBit 0 = true → hostAct (.writeReg .ctrl v) s = startCommand s) ∧
    (v.testBit 1 = false → v.testBit 0 = false → hostAct (.writeReg .ctrl v) s = .next s) ∧
    hostAct (.writeReg .ctrl v) s = hostAct (.writeReg .ctrl (v % 4)) s ∧
    hostAct (.readReg .ctrl) s = .next { s with hostData := some 0 }

/-- R216: `SRST`, in any state, puts every register but `STREAM_LEN` to its reset value, so `STATE = IDLE` and the
frame store is empty, and leaves `SB` and `IB` as they are.
(That it also clears the model's own record of the poll is the model's: DEDUCED, log entry 27.) -/
def Obligations.SoftReset : Prop :=
  ∀ s : State, hostAct (.writeReg .ctrl 2) s =
    .next { State.reset with
      streamLen := s.streamLen, sb := s.sb, ib := s.ib
      build := s.build, hostTurns := s.hostTurns, hostData := s.hostData, freeReads := s.freeReads }

/-- R213: the accesses the model refuses, and those it ignores or allows. (That a `STATUS`
read that returns `DONE` or `ERR` also sets the model's own record of the hand-over of R69 is the model's: DEDUCED, log
entry 27.) -/
def Obligations.RefusedAccesses : Prop :=
  (∀ s : State, s.busy = true →
    (∀ a v, hostAct (.writeSb a v) s = .refused .hostWriteWhileBusy) ∧
    (∀ v, hostAct (.writeReg .streamLen v) s = .refused .hostWriteWhileBusy) ∧
    (∀ r, r ∈ [HostReg.fmt, .cmp, .len, .width, .height, .frameBits, .nframes, .remain, .errcode, .errpos] →
      hostAct (.readReg r) s = .refused .hostReadWhileBusy) ∧
    hostAct (.writeReg .ctrl 1) s = .next s) ∧
  (∀ (s : State) (f y x : Nat), ¬ (s.phase = .done ∧ f < s.nframes ∧ y < s.height.toNat ∧ x < s.width.toNat) →
    hostAct (.readPix f y x) s = .refused .frameStoreRead) ∧
  (∀ (s : State) (f : Nat), ¬ (s.phase = .done ∧ f < s.nframes) →
    hostAct (.readDurv f) s = .refused .frameStoreRead ∧ hostAct (.readDur f) s = .refused .frameStoreRead) ∧
  (∀ s : State, s.busy = false → Memory.written s.sb s.streamLen = false →
    hostAct (.writeReg .ctrl 1) s = .refused .launchOverUnwritten) ∧
  (∀ (s : State) (r : List Byte), 2 ^ s.build.cursorW ≤ 8 * r.length → takeInflated (some r) s = .refused .inflateTooLong) ∧
  (∀ (s : State) (r : HostReg) (v : Nat), r ≠ .ctrl → r ≠ .streamLen → hostAct (.writeReg r v) s = .next s) ∧
  (∀ s : State, hostAct (.readReg .status) s = .next { s with
      hostData := some s.status.toNat, handedOver := s.handedOver || decide (s.phase = .done) || decide (s.phase = .error) } ∧
    hostAct (.readReg .streamLen) s = .next { s with hostData := some s.streamLen } ∧
    hostAct (.readReg .ctrl) s = .next { s with hostData := some 0 })

/-- R214 and R215, `POLL` and `FETCH` of registers: in `DONE` and `ERROR`, once a `STATUS` read has handed the results
over (R69, R286), and in `IDLE`, every register reads as its value and nothing but the host's data changes; a poll in
`DONE` or `ERROR` hands them over, and before it a read of a result or error register there is refused. R34:
thirteen ids, 0 to 12; where the invariants hold every value fits its register, and in `IDLE` and `ERROR` the
result registers and `REMAIN` read 0. (That `IDLE` needs no poll is the model's reading of R34, and the record of the
poll the model's own field: DEDUCED, log entry 27.) -/
def Obligations.RegistersRead : Prop :=
  (∀ s : State, s.phase = .idle ∨ (s.phase = .done ∨ s.phase = .error) ∧ s.handedOver = true →
    hostAct (.readReg .status) s = .next { s with hostData := some s.status.toNat } ∧
    hostAct (.readReg .errcode) s = .next { s with hostData := some (errNumber s.errcode).toNat } ∧
    hostAct (.readReg .errpos) s = .next { s with hostData := some s.errpos } ∧
    hostAct (.readReg .streamLen) s = .next { s with hostData := some s.streamLen } ∧
    hostAct (.readReg .fmt) s = .next { s with hostData := some s.fmt.toNat } ∧
    hostAct (.readReg .cmp) s = .next { s with hostData := some s.cmp.toNat } ∧
    hostAct (.readReg .len) s = .next { s with hostData := some s.len.toNat } ∧
    hostAct (.readReg .width) s = .next { s with hostData := some s.width.toNat } ∧
    hostAct (.readReg .height) s = .next { s with hostData := some s.height.toNat } ∧
    hostAct (.readReg .frameBits) s = .next { s with hostData := some s.frameBits.toNat } ∧
    hostAct (.readReg .nframes) s = .next { s with hostData := some s.nframes } ∧
    hostAct (.readReg .remain) s = .next { s with hostData := some (s.limit - s.cur) }) ∧
  (∀ (s : State) (r : HostReg), s.phase = .done ∨ s.phase = .error →
    ∃ t, hostAct (.readReg .status) s = .next t ∧ t = { s with hostData := some s.status.toNat, handedOver := true } ∧
      hostAct (.readReg r) t = .next { t with hostData := some (hostRegValue r s) }) ∧
  (∀ s : State, s.phase = .done ∨ s.phase = .error → s.handedOver = false →
    ∀ r, r ∈ [HostReg.fmt, .cmp, .len, .width, .height, .frameBits, .nframes, .remain, .errcode, .errpos] →
      hostAct (.readReg r) s = .refused .hostReadBeforePoll) ∧
  (∀ r r' : HostReg, hostRegId r ≤ 12 ∧ (hostRegId r = hostRegId r' → r = r')) ∧
  (∀ (s : State) (r : HostReg), Inv s → hostRegValue r s < 2 ^ hostRegWidth s.build r) ∧
  (∀ s : State, Inv s → s.phase = .idle ∨ s.phase = .error →
    ∀ r ∈ [HostReg.fmt, .cmp, .len, .width, .height, .frameBits, .nframes, .remain], hostRegValue r s = 0)

/-- R215, `FETCH` of the frame store, in `DONE` below `NFRAMES`, once handed over (R286): the code in the cell, `DURV`,
and `DUR` where it is set; where it is not, some byte, unspecified (U6; a free value, log entry 9). Before the poll that
hands the results over, each of these reads is refused (R286, log entry 27). -/
def Obligations.FrameStoreRead : Prop :=
  (∀ (s : State) (f : Nat), s.phase = .done → s.handedOver = true → f < s.nframes →
    (∀ (y x : Nat) (c : Code), y < s.height.toNat → x < s.width.toNat → cell s.fs f (y * s.width.toNat + x) = some c →
      hostAct (.readPix f y x) s = .next { s with hostData := some c.toNat }) ∧
    (∀ fr, s.fs[f]? = some fr → hostAct (.readDurv f) s = .next { s with hostData := some fr.dur.isSome.toNat }) ∧
    (∀ fr d, s.fs[f]? = some fr → fr.dur = some d →
      hostAct (.readDur f) s = .next { s with hostData := some d.toNat }) ∧
    (∀ fr, s.fs[f]? = some fr → fr.dur = none → ∃ d : Byte,
      hostAct (.readDur f) s = .next { s with hostData := some d.toNat, freeReads := s.freeReads + 1 })) ∧
  (∀ (s : State) (f : Nat), s.phase = .done → s.handedOver = false → f < s.nframes →
    (∀ y x, y < s.height.toNat → x < s.width.toNat → hostAct (.readPix f y x) s = .refused .hostReadBeforePoll) ∧
    hostAct (.readDurv f) s = .refused .hostReadBeforePoll ∧ hostAct (.readDur f) s = .refused .hostReadBeforePoll)

/-- R283, the start-up sequence: not busy, the turns that write the bytes of a file to `SB`, their number to
`STREAM_LEN` and 1 to `CTRL` lead, in as many steps, to the launch of those bytes; before the last of them the launch
premise `CleanLaunch` of R218 holds. -/
def Obligations.StartUpLaunches : Prop :=
  ∀ (s : State) (bytes : List Byte), s.busy = false → s.hostTurns = launchTurns bytes → s.build.grain = .perField →
    8 * bytes.length < 2 ^ s.build.cursorW →
    (∃ u, Host.Core.run core (bytes.length + 1) s = .next u ∧ CleanLaunch bytes u) ∧
    ∃ t, Host.Core.run core (bytes.length + 2) s = .next t ∧ Launched bytes t ∧ t.streamLen = bytes.length ∧
      t.status = 0x11

/-- R45, R280: the state after reset, as the spec gives it; `STATUS` and `REMAIN` read 0. -/
def Obligations.ResetState : Prop :=
  let s := State.reset
  s.phase = .idle ∧ s.cur = 0 ∧ s.limit = 0 ∧ s.src = .sb ∧ s.x = 0 ∧ s.y = 0 ∧ s.fmt = 0 ∧ s.cmp = 0 ∧ s.len = 0 ∧
    s.width = 0 ∧ s.height = 0 ∧ s.frameBits = 0 ∧ s.nframes = 0 ∧ s.errcode = .none ∧ s.errpos = 0 ∧
    s.streamLen = 0 ∧ s.fs = [] ∧ s.status = 0 ∧ s.remaining = 0 ∧
    hostAct (.readReg .ctrl) s = .next { s with hostData := some 0 }

/-- R280, the reset as a host action: every register at its reset value, `STREAM_LEN` too. (That no byte of `SB` and
`IB` has a value after it is the model's reading of R282, log entry 11; that it
clears the model's own record of the poll is log entry 27.) -/
def Obligations.ResetAction : Prop :=
  ∀ s : State, hostAct .reset s =
    .next { State.reset with
      build := s.build, hostTurns := s.hostTurns, hostData := s.hostData, freeReads := s.freeReads }

/-- R211: runs are independent. `START` from any two states with the same `STREAM_LEN` and `SB` (and the same build
and host) leads to states that differ at most in `IB`. And a run depends on nothing but its bytes (R8, R218): from any
two clean launch states for the same bytes, the host's `START` after any number of passed turns is the launch, and the
runs after it, in which the host does nothing but poll, and both hosts alike, agree, step for step, in what is observed
of them. -/
def Obligations.RunsAreIndependent : Prop :=
  (∀ s s' t t' : State, s.sb = s'.sb → s.streamLen = s'.streamLen → s.build = s'.build → s.hostTurns = s'.hostTurns →
    s.hostData = s'.hostData → s.freeReads = s'.freeReads → s.busy = false → s'.busy = false →
    startCommand s = .next t → startCommand s' = .next t' → t' = { t with ib := s'.ib }) ∧
  (∀ (bytes : List Byte) (s s' : State) (n n' v v' : Nat) (turns : List (Option HostAction)),
    CleanLaunch bytes s → CleanLaunch bytes s' → s.build = s'.build →
    s.hostTurns = List.replicate n none ++ some (.writeReg .ctrl v) :: turns →
    s'.hostTurns = List.replicate n' none ++ some (.writeReg .ctrl v') :: turns →
    (∀ a ∈ turns, a = none ∨ a = some (.readReg .status)) →
    Host.Core.run core (n + 1) s = .next { s.launch with hostTurns := turns } ∧
    ∀ (k : Nat) (u : State), Host.Core.run core (n + 1 + k) s = .next u →
      ∃ u', Host.Core.run core (n' + 1 + k) s' = .next u' ∧ u'.phase = u.phase ∧ observe u' = observe u)

/-! ## The machine -/

/-- A step runs the decoded instruction: where the bits at the cursor, as many as the selected element is wide,
are unread, have values and decode to an element, and the host does not act in the step, the step is that element's
meaning, with the host's passed turn taken off; a host's action is the whole step. (That the host acts in turns, and that
a turn with an action is the whole step, is the model's choice: DESIGN CHOICE, log entry 5.) -/
def Obligations.StepRunsTheElement : Prop :=
  (∀ (s : State) (bits rest : List Bool) (i : Instr), s.hostTurns = [] → elementWidth s.ctx ≤ s.remaining →
    readBits s.source s.cur (elementWidth s.ctx) = some bits → decode s.ctx bits = .ok (i, rest) → step s = exec i s) ∧
  (∀ (s : State) (bits rest : List Bool) (i : Instr) (turns : List (Option HostAction)), s.hostTurns = none :: turns →
    elementWidth s.ctx ≤ s.remaining → readBits s.source s.cur (elementWidth s.ctx) = some bits →
    decode s.ctx bits = .ok (i, rest) → step s = exec i { s with hostTurns := turns }) ∧
  (∀ (s : State) (a : HostAction) (turns : List (Option HostAction)), s.hostTurns = some a :: turns →
    step s = hostAct a { s with hostTurns := turns })

/-- R177, last row: with no host action, `IDLE`, `DONE` and `ERROR` stay as they are. -/
def Obligations.QuietStatesWait : Prop :=
  ∀ s : State, s.hostTurns = [] → s.phase = .idle ∨ s.phase = .done ∨ s.phase = .error → step s = .next s

/-- R177, the transition table, from every state that meets the invariants, one step a header field: `START` from
`IDLE`, `DONE`, `ERROR` to `H_FMT`; `SRST` and reset from anywhere to `IDLE`; with no host action, and outside
`P_SELECT` with `CMP = 1`, the arc whose condition holds; from there `F_TEST`, or `ERROR` where `Inflate` fails. -/
def Obligations.TransitionTable : Prop :=
  ∀ s : State, Inv s → s.build.grain = .perField →
    (s.phase = .idle ∨ s.phase = .done ∨ s.phase = .error → Memory.written s.sb s.streamLen = true →
      ∃ t, hostAct (.writeReg .ctrl 1) s = .next t ∧ t.phase = .hFmt) ∧
    (∀ a, a = .writeReg .ctrl 2 ∨ a = .reset → ∃ t, hostAct a s = .next t ∧ t.phase = .idle) ∧
    (s.hostTurns = [] → (s.phase = .pSelect → s.cmp = 0) → ∃ t, step s = .next t ∧ t.phase = s.tableNext) ∧
    (s.hostTurns = [] → s.phase = .pSelect → s.cmp = 1 → ∃ bytes, s.fetch = some (.cbyte bytes) ∧
      (Config.inflate bytes = none → step s = .next (s.raise .inflateFault (6 + 2 * (s.len.toNat + 1)))) ∧
      (∀ r, Config.inflate bytes = some r → 8 * r.length < 2 ^ s.build.cursorW →
        ∃ t, step s = .next t ∧ t.phase = s.tableNext))

/-- The reset state meets the invariants (R47). -/
def Obligations.ResetMeetsInvariants : Prop := Inv State.reset

/-- R47 (with the bounds of R32, R33, R38, R39 and the hand-over of R286): every step, of the decoder or the host, from a
state that meets the invariants leads to one that does. (The record of the poll
that the hand-over is said of is the model's own field: DEDUCED, log entry 27.) -/
def Obligations.StepKeepsInvariants : Prop :=
  ∀ s t : State, Inv s → step s = .next t → Inv t

/-- R131, R287: from a state that meets the invariants no step faults, whatever the host does; and in a busy state,
the host silent, the decoder's step gives a next state or the refusal of an over-long inflate answer (R213). -/
def Obligations.InvariantStepsNeverFault : Prop :=
  (∀ (s : State) (r : Fault), Inv s → step s ≠ .fault r) ∧
  (∀ s : State, Inv s → s.hostTurns = [] →
    (∃ t, step s = .next t) ∨ (s.phase = .pSelect ∧ step s = .refused .inflateTooLong))
end

