-- ==== Sys2Proof/Laws/Bits.lean ====
section
/-! SUPPORT. Laws of bit lists: lengths, the value of a field, bits and values inverse to each other
(`00_scope.md` R12, `46_reference_encoder.md` R239). -/

namespace Sys2Proof

@[simp] theorem length_bitsOfNat (n v : Nat) : (bitsOfNat n v).length = n := by
  induction n with
  | zero => rfl
  | succ n ih => simp [bitsOfNat, ih]

@[simp] theorem natOfBits_nil : natOfBits [] = 0 := rfl

theorem foldl_bits (bits : List Bool) (a : Nat) :
    bits.foldl (fun v b => 2 * v + b.toNat) a = a * 2 ^ bits.length + natOfBits bits := by
  induction bits generalizing a with
  | nil => simp [natOfBits]
  | cons b bs ih =>
    simp only [natOfBits, List.foldl_cons, List.length_cons] at *
    rw [ih, ih (2 * 0 + b.toNat)]
    ring

theorem natOfBits_append (xs ys : List Bool) :
    natOfBits (xs ++ ys) = natOfBits xs * 2 ^ ys.length + natOfBits ys := by
  rw [natOfBits, List.foldl_append, foldl_bits]
  rfl

theorem natOfBits_cons (b : Bool) (bs : List Bool) :
    natOfBits (b :: bs) = b.toNat * 2 ^ bs.length + natOfBits bs := by
  have h := natOfBits_append [b] bs
  have hb : natOfBits [b] = b.toNat := by simp [natOfBits]
  rw [hb] at h
  exact h

theorem natOfBits_lt (bits : List Bool) : natOfBits bits < 2 ^ bits.length := by
  induction bits with
  | nil => simp
  | cons b bs ih =>
    rw [natOfBits_cons, List.length_cons, pow_succ]
    cases b <;> simp <;> omega

/-- The value of the `n` low bits of `v` is `v mod 2^n`. -/
theorem natOfBits_bitsOfNat_mod (n v : Nat) : natOfBits (bitsOfNat n v) = v % 2 ^ n := by
  induction n with
  | zero => simp [bitsOfNat, Nat.mod_one]
  | succ n ih =>
    rw [bitsOfNat, natOfBits_cons, ih, length_bitsOfNat, Nat.mod_pow_succ, Nat.toNat_testBit]
    ring

/-- A field written and read gives its value (R239). -/
theorem natOfBits_bitsOfNat {n v : Nat} (h : v < 2 ^ n) : natOfBits (bitsOfNat n v) = v := by
  rw [natOfBits_bitsOfNat_mod, Nat.mod_eq_of_lt h]

theorem bitsOfNat_mod (n v : Nat) : ∀ m, n ≤ m → bitsOfNat n (v % 2 ^ m) = bitsOfNat n v := by
  induction n with
  | zero => intros; rfl
  | succ n ih =>
    intro m hm
    simp only [bitsOfNat]
    rw [ih m (by omega), Nat.testBit_mod_two_pow]
    simp [show n < m by omega]

/-- A field read and written gives its bits. -/
theorem bitsOfNat_natOfBits (bits : List Bool) : bitsOfNat bits.length (natOfBits bits) = bits := by
  induction bits with
  | nil => rfl
  | cons b bs ih =>
    have hlt := natOfBits_lt bs
    rw [List.length_cons, bitsOfNat, natOfBits_cons]
    congr 1
    · cases b
      · simpa using Nat.testBit_lt_two_pow hlt
      · simp [Nat.testBit_two_pow_add_eq, Nat.testBit_lt_two_pow hlt]
    · rw [← bitsOfNat_mod bs.length _ bs.length le_rfl, Nat.mul_add_mod_self_right, Nat.mod_eq_of_lt hlt, ih]

@[simp] theorem length_bitsOfBytes (bytes : List Byte) : (bitsOfBytes bytes).length = 8 * bytes.length := by
  induction bytes with
  | nil => rfl
  | cons b bs ih => simp [bitsOfBytes] at *; omega

theorem bitsOfBytes_cons (b : Byte) (bs : List Byte) :
    bitsOfBytes (b :: bs) = bitsOfNat 8 b.toNat ++ bitsOfBytes bs := rfl

@[simp] theorem length_bytesOfBits (k : Nat) (bits : List Bool) : (bytesOfBits k bits).length = k := by
  induction k generalizing bits with
  | zero => rfl
  | succ k ih => simp [bytesOfBits, ih]

/-- Bytes written as bits and cut again are the bytes (R133). -/
theorem bytesOfBits_bitsOfBytes (bytes : List Byte) (rest : List Bool) :
    bytesOfBits bytes.length (bitsOfBytes bytes ++ rest) = bytes := by
  induction bytes with
  | nil => rfl
  | cons b bs ih =>
    rw [bitsOfBytes_cons, List.append_assoc, List.length_cons, bytesOfBits]
    rw [List.take_left' (length_bitsOfNat 8 _), List.drop_left' (length_bitsOfNat 8 _), ih,
      natOfBits_bitsOfNat b.isLt]
    simp

/-- Bits cut into bytes and written again are the bits. -/
theorem bitsOfBytes_bytesOfBits (k : Nat) (bits : List Bool) (h : 8 * k ≤ bits.length) :
    bitsOfBytes (bytesOfBits k bits) = bits.take (8 * k) := by
  induction k generalizing bits with
  | zero => simp [bytesOfBits, bitsOfBytes]
  | succ k ih =>
    have h8 : (bits.take 8).length = 8 := by simp; omega
    have hlt := natOfBits_lt (bits.take 8)
    rw [h8] at hlt
    rw [bytesOfBits, bitsOfBytes_cons, ih _ (by simp; omega), BitVec.toNat_ofNat, Nat.mod_eq_of_lt hlt]
    have hb := bitsOfNat_natOfBits (bits.take 8)
    rw [h8] at hb
    rw [hb, show 8 * (k + 1) = 8 + 8 * k by ring, List.take_add]

/-- The field at the front of a list that begins with it. -/
theorem field_append_left {n v : Nat} (h : v < 2 ^ n) (rest : List Bool) :
    field (bitsOfNat n v ++ rest) 0 n = v := by
  rw [field, List.drop_zero, List.take_left' (length_bitsOfNat n v), natOfBits_bitsOfNat h]

/-- A field after `k` other bits. -/
theorem field_append_right (xs rest : List Bool) (n : Nat) :
    field (xs ++ rest) xs.length n = field rest 0 n := by
  simp [field]

theorem field_lt (bits : List Bool) (start n : Nat) : field bits start n < 2 ^ n := by
  have h := natOfBits_lt ((bits.drop start).take n)
  exact lt_of_lt_of_le h (Nat.pow_le_pow_right (by norm_num) (by simp))

@[simp] theorem length_headerBits (n : Nat) (f c : Bit) (w h : BitVec n) :
    (headerBits n f c w h).length = 6 + 2 * n := by
  simp [headerBits]; omega

end Sys2Proof
end

