-- ==== Sys2Proof/Laws/Decode.lean ====
section
/-! SUPPORT. Laws of the decoder and the encoder: a field and a header at the front of a bit list, what is decoded
is well formed, and bits enough are always decoded (`30_encoding.md` R91, R104, R106). -/

namespace Sys2Proof

/-- A field at the front of a bit list decodes to its value and leaves the rest. -/
theorem decodeField_bitsOfNat {n v : Nat} (h : v < 2 ^ n) (mk : Nat → Instr) (rest : List Bool) :
    decodeField n mk (bitsOfNat n v ++ rest) = .ok (mk v, rest) := by
  rw [decodeField, if_neg (by simp), field_append_left h, List.drop_left' (length_bitsOfNat n v)]

/-- What a field decode can answer. -/
theorem decodeField_ok {n : Nat} {mk : Nat → Instr} {bits rest : List Bool} {i : Instr}
    (h : decodeField n mk bits = .ok (i, rest)) :
    n ≤ bits.length ∧ i = mk (field bits 0 n) ∧ rest = bits.drop n := by
  unfold decodeField at h
  split at h
  · cases h
  · cases h
    exact ⟨by omega, rfl, rfl⟩

theorem decodeField_isOk {n : Nat} (mk : Nat → Instr) {bits : List Bool} (h : n ≤ bits.length) :
    decodeField n mk bits = .ok (mk (field bits 0 n), bits.drop n) := by
  rw [decodeField, if_neg (by omega)]

/-- The fields of a header at the front of a bit list are read back (R91). -/
theorem decodeHeader_bits (f c : Bit) {l : Nat} (hl : l < 16) {w h : Nat} (hw : w < 2 ^ (l + 1)) (hh : h < 2 ^ (l + 1))
    (rest : List Bool) :
    decodeHeader (bitsOfNat 1 f.toNat ++ bitsOfNat 1 c.toNat ++ bitsOfNat 4 l ++ bitsOfNat (l + 1) w ++
      bitsOfNat (l + 1) h ++ rest) = .ok (headerInstr l f c w h, rest) := by
  have hf : f.toNat < 2 ^ 1 := f.isLt
  have hc : c.toNat < 2 ^ 1 := c.isLt
  generalize hB : bitsOfNat 1 f.toNat ++ bitsOfNat 1 c.toNat ++ bitsOfNat 4 l ++ bitsOfNat (l + 1) w ++
      bitsOfNat (l + 1) h ++ rest = B
  have hlen : B.length = 6 + 2 * (l + 1) + rest.length := by subst hB; simp; omega
  have h0 : field B 0 1 = f.toNat := by
    subst hB; simp only [List.append_assoc]; exact field_append_left hf _
  have h1 : field B 1 1 = c.toNat := by
    subst hB
    have := field_append_right (bitsOfNat 1 f.toNat)
      (bitsOfNat 1 c.toNat ++ (bitsOfNat 4 l ++ (bitsOfNat (l + 1) w ++ (bitsOfNat (l + 1) h ++ rest)))) 1
    rw [length_bitsOfNat, field_append_left hc] at this
    simpa only [List.append_assoc] using this
  have h2 : field B 2 4 = l := by
    subst hB
    have := field_append_right (bitsOfNat 1 f.toNat ++ bitsOfNat 1 c.toNat)
      (bitsOfNat 4 l ++ (bitsOfNat (l + 1) w ++ (bitsOfNat (l + 1) h ++ rest))) 4
    rw [List.length_append, length_bitsOfNat, length_bitsOfNat, field_append_left (by omega)] at this
    simpa only [List.append_assoc] using this
  have h3 : field B 6 (l + 1) = w := by
    subst hB
    have := field_append_right (bitsOfNat 1 f.toNat ++ bitsOfNat 1 c.toNat ++ bitsOfNat 4 l)
      (bitsOfNat (l + 1) w ++ (bitsOfNat (l + 1) h ++ rest)) (l + 1)
    rw [field_append_left hw] at this
    simpa only [List.append_assoc, List.length_append, length_bitsOfNat] using this
  have h4 : field B (6 + (l + 1)) (l + 1) = h := by
    subst hB
    have := field_append_right (bitsOfNat 1 f.toNat ++ bitsOfNat 1 c.toNat ++ bitsOfNat 4 l ++ bitsOfNat (l + 1) w)
      (bitsOfNat (l + 1) h ++ rest) (l + 1)
    rw [field_append_left hh] at this
    simp only [List.append_assoc, List.length_append, length_bitsOfNat] at this
    rw [show 1 + (1 + (4 + (l + 1))) = 6 + (l + 1) by omega] at this
    simpa only [List.append_assoc] using this
  have h5 : B.drop (6 + 2 * (l + 1)) = rest := by
    subst hB
    refine List.drop_left' ?_
    simp; omega
  rw [decodeHeader, if_neg (by omega)]
  simp only [h0, h1, h2, h3, h4, h5]
  rw [if_neg (by omega)]
  simp

/-- A header format is a header: it is well formed exactly where a header is taken whole. -/
theorem wellFormed_headerInstr (c : Ctx) (l : Nat) (f m : Bit) (w h : Nat) :
    wellFormed c (headerInstr l f m w h) = (decide (c.phase = .hFmt) && c.whole) := by
  unfold headerInstr
  split <;> rfl

/-- What the decoder answers is well formed in its context (R104). -/
theorem decode_wellFormed {c : Ctx} {bits rest : List Bool} {i : Instr} (h : decode c bits = .ok (i, rest)) :
    wellFormed c i = true := by
  unfold decode at h
  split at h
  · cases h
  · cases h
  · rename_i hp
    split at h
    · rename_i hw
      unfold decodeHeader at h
      split at h
      · cases h
      · simp only at h
        split at h
        · cases h
        · cases h
          rw [wellFormed_headerInstr]
          simp [hp, hw]
    · obtain ⟨-, rfl, -⟩ := decodeField_ok h
      simp_all [wellFormed]
  · obtain ⟨-, rfl, -⟩ := decodeField_ok h
    simp_all [wellFormed]
  · obtain ⟨-, rfl, -⟩ := decodeField_ok h
    simp_all [wellFormed]
  · obtain ⟨-, rfl, -⟩ := decodeField_ok h
    have := field_lt bits 0 (c.len.toNat + 1)
    have := Nat.mod_le (field bits 0 (c.len.toNat + 1)) 65536
    simp_all [wellFormed]
    omega
  · obtain ⟨-, rfl, -⟩ := decodeField_ok h
    have := field_lt bits 0 (c.len.toNat + 1)
    have := Nat.mod_le (field bits 0 (c.len.toNat + 1)) 65536
    simp_all [wellFormed]
    omega
  · cases h; simp_all [wellFormed]
  · split at h
    · split at h
      · cases h
      · cases h; simp_all [wellFormed, compressedBytes]
    · rename_i hp hc
      cases h
      have : c.cmp = 0 := by
        have := c.cmp.isLt
        exact BitVec.eq_of_toNat_eq (by
          have h1 : c.cmp.toNat ≠ 1 := fun e => hc (BitVec.eq_of_toNat_eq (by simpa using e))
          simp; omega)
      simp_all [wellFormed]
  · cases h; simp_all [wellFormed]
  · split at h
    · obtain ⟨-, rfl, -⟩ := decodeField_ok h
      simp_all [wellFormed]
    · rename_i hp hc
      obtain ⟨-, rfl, -⟩ := decodeField_ok h
      have : c.fmt = 0 := by
        have := c.fmt.isLt
        exact BitVec.eq_of_toNat_eq (by
          have h1 : c.fmt.toNat ≠ 1 := fun e => hc (BitVec.eq_of_toNat_eq (by simpa using e))
          simp; omega)
      simp_all [wellFormed]
  · cases h; simp_all [wellFormed]
  · obtain ⟨-, rfl, -⟩ := decodeField_ok h
    simp_all [wellFormed]
  · cases h; simp_all [wellFormed]

/-- Bits as many as the selected element's width are decoded, in a context whose element is not a header taken
whole (R106). -/
theorem decode_isOk {c : Ctx} {bits : List Bool} (hp : c.phase ≠ .idle ∧ c.phase ≠ .error) (hw : c.whole = false)
    (h : elementWidth c ≤ bits.length) : ∃ i rest, decode c bits = .ok (i, rest) := by
  unfold decode
  unfold elementWidth at h
  split <;> simp_all [decodeField_isOk] <;> split <;> simp_all [decodeField_isOk, elementWidth]
  rw [if_neg (by omega)]
  exact ⟨_, _, rfl⟩

/-- A header taken whole is decoded from all its bits. -/
theorem decodeHeader_isOk {bits : List Bool} (h : 6 + 2 * (field bits 2 4 + 1) ≤ bits.length) :
    ∃ i rest, decodeHeader bits = .ok (i, rest) := by
  unfold decodeHeader
  simp only
  rw [if_neg (by omega), if_neg (by omega)]
  exact ⟨_, _, rfl⟩

end Sys2Proof
end

