-- ==== Sys2Proof/Laws/Exec.lean ====
section
/-! SUPPORT. Each arm of `exec`, as a rewriting lemma: a later proof unfolds one meaning, not the whole dispatch. -/

namespace Sys2Proof.Machine

@[simp] theorem exec_hdrL1 (f c : Bit) (w h : BitVec 1) (s : State) : exec (.hdrL1 f c w h) s = execHdrL1 f c w h s := rfl
@[simp] theorem exec_hdrL2 (f c : Bit) (w h : BitVec 2) (s : State) : exec (.hdrL2 f c w h) s = execHdrL2 f c w h s := rfl
@[simp] theorem exec_hdrL3 (f c : Bit) (w h : BitVec 3) (s : State) : exec (.hdrL3 f c w h) s = execHdrL3 f c w h s := rfl
@[simp] theorem exec_hdrL4 (f c : Bit) (w h : BitVec 4) (s : State) : exec (.hdrL4 f c w h) s = execHdrL4 f c w h s := rfl
@[simp] theorem exec_hdrL5 (f c : Bit) (w h : BitVec 5) (s : State) : exec (.hdrL5 f c w h) s = execHdrL5 f c w h s := rfl
@[simp] theorem exec_hdrL6 (f c : Bit) (w h : BitVec 6) (s : State) : exec (.hdrL6 f c w h) s = execHdrL6 f c w h s := rfl
@[simp] theorem exec_hdrL7 (f c : Bit) (w h : BitVec 7) (s : State) : exec (.hdrL7 f c w h) s = execHdrL7 f c w h s := rfl
@[simp] theorem exec_hdrL8 (f c : Bit) (w h : BitVec 8) (s : State) : exec (.hdrL8 f c w h) s = execHdrL8 f c w h s := rfl
@[simp] theorem exec_hdrL9 (f c : Bit) (w h : BitVec 9) (s : State) : exec (.hdrL9 f c w h) s = execHdrL9 f c w h s := rfl
@[simp] theorem exec_hdrL10 (f c : Bit) (w h : BitVec 10) (s : State) : exec (.hdrL10 f c w h) s = execHdrL10 f c w h s := rfl
@[simp] theorem exec_hdrL11 (f c : Bit) (w h : BitVec 11) (s : State) : exec (.hdrL11 f c w h) s = execHdrL11 f c w h s := rfl
@[simp] theorem exec_hdrL12 (f c : Bit) (w h : BitVec 12) (s : State) : exec (.hdrL12 f c w h) s = execHdrL12 f c w h s := rfl
@[simp] theorem exec_hdrL13 (f c : Bit) (w h : BitVec 13) (s : State) : exec (.hdrL13 f c w h) s = execHdrL13 f c w h s := rfl
@[simp] theorem exec_hdrL14 (f c : Bit) (w h : BitVec 14) (s : State) : exec (.hdrL14 f c w h) s = execHdrL14 f c w h s := rfl
@[simp] theorem exec_hdrL15 (f c : Bit) (w h : BitVec 15) (s : State) : exec (.hdrL15 f c w h) s = execHdrL15 f c w h s := rfl
@[simp] theorem exec_hdrL16 (f c : Bit) (w h : BitVec 16) (s : State) : exec (.hdrL16 f c w h) s = execHdrL16 f c w h s := rfl
@[simp] theorem exec_fmt (f : Bit) (s : State) : exec (.fmt f) s = execFmt f s := rfl
@[simp] theorem exec_cmp (c : Bit) (s : State) : exec (.cmp c) s = execCmp c s := rfl
@[simp] theorem exec_len (l : BitVec 4) (s : State) : exec (.len l) s = execLen l s := rfl
@[simp] theorem exec_wm1 (w : BitVec 16) (s : State) : exec (.wm1 w) s = execWm1 w s := rfl
@[simp] theorem exec_hm1 (h : BitVec 16) (s : State) : exec (.hm1 h) s = execHm1 h s := rfl
@[simp] theorem exec_pix1 (v : Bit) (s : State) : exec (.pix1 v) s = execPix1 v s := rfl
@[simp] theorem exec_pix3 (c : Code) (s : State) : exec (.pix3 c) s = execPix3 c s := rfl
@[simp] theorem exec_dur (d : Byte) (s : State) : exec (.dur d) s = execDur d s := rfl
@[simp] theorem exec_cbyte (bytes : List Byte) (s : State) : exec (.cbyte bytes) s = execCbyte bytes s := rfl
@[simp] theorem exec_pad (n : Nat) (s : State) : exec (.pad n) s = execPad n s := rfl
@[simp] theorem exec_hdrCheck (s : State) : exec .hdrCheck s = execHdrCheck s := rfl
@[simp] theorem exec_selRaw (s : State) : exec .selRaw s = execSelRaw s := rfl
@[simp] theorem exec_frameTest (s : State) : exec .frameTest s = execFrameTest s := rfl
@[simp] theorem exec_durTest (s : State) : exec .durTest s = execDurTest s := rfl

end Sys2Proof.Machine
end

