-- ==== Sys2Proof/Laws/Memory.lean ====
section
/-! SUPPORT. Laws of the byte buffers: a read after a write, the canonical form kept, which bytes have a value, and
the bits of a buffer that holds given bytes (`20_memory.md` R60 to R65). -/

namespace Sys2Proof.Machine

@[simp] theorem Memory.read_nil (a : Nat) : Memory.read [] a = none := rfl

theorem Memory.read_cons (b : Nat) (v : Byte) (m : Memory) (a : Nat) :
    Memory.read ((b, v) :: m) a = if a = b then some v else Memory.read m a := rfl

/-- Below every listed address nothing has a value. -/
theorem Memory.read_none_of_lt {m : Memory} {a : Nat} (h : ∀ c ∈ m, a < c.1) : Memory.read m a = none := by
  induction m with
  | nil => rfl
  | cons c m ih =>
    obtain ⟨b, v⟩ := c
    have hb := h (b, v) (by simp)
    rw [Memory.read_cons, if_neg (by simp at hb; omega)]
    exact ih fun c hc => h c (by simp [hc])

/-- A read after a write gives the byte written. -/
theorem Memory.read_write_same (m : Memory) (a : Nat) (v : Byte) : Memory.read (Memory.write m a v) a = some v := by
  induction m with
  | nil => simp [Memory.write, Memory.read_cons]
  | cons c m ih =>
    obtain ⟨b, w⟩ := c
    rw [Memory.write]
    split
    · simp [Memory.read_cons]
    · split
      · simp [Memory.read_cons]
      · rename_i h1 h2
        rw [Memory.read_cons, if_neg h2, ih]

/-- A write leaves every other byte alone. -/
theorem Memory.read_write_other (m : Memory) {a a' : Nat} (v : Byte) (h : a' ≠ a) :
    Memory.read (Memory.write m a v) a' = Memory.read m a' := by
  induction m with
  | nil => simp [Memory.write, Memory.read_cons, h]
  | cons c m ih =>
    obtain ⟨b, w⟩ := c
    rw [Memory.write]
    split
    · simp [Memory.read_cons, h]
    · split
      · rename_i h1 h2
        subst h2
        simp [Memory.read_cons, h]
      · simp only [Memory.read_cons, ih]

theorem Memory.mem_write {m : Memory} {a : Nat} {v : Byte} {c : Host.Cell} (h : c ∈ Memory.write m a v) :
    c = (a, v) ∨ c ∈ m := by
  induction m with
  | nil => simpa [Memory.write] using h
  | cons d m ih =>
    obtain ⟨b, w⟩ := d
    rw [Memory.write] at h
    split at h
    · simpa using h
    · split at h
      · simp at h ⊢; tauto
      · simp only [List.mem_cons] at h ⊢
        rcases h with h | h
        · exact .inr (.inl h)
        · exact (ih h).imp_right .inr

/-- A write keeps the canonical form. -/
theorem Memory.wf_write {m : Memory} (h : Memory.wf m) (a : Nat) (v : Byte) : Memory.wf (Memory.write m a v) := by
  induction m with
  | nil => simp [Memory.write, Memory.wf]
  | cons c m ih =>
    obtain ⟨b, w⟩ := c
    obtain ⟨hb, hm⟩ := List.pairwise_cons.1 h
    rw [Memory.write]
    split
    · rename_i hab
      refine List.pairwise_cons.2 ⟨fun d hd => ?_, h⟩
      rcases List.mem_cons.1 hd with rfl | hd
      · exact hab
      · exact lt_trans hab (hb d hd)
    · split
      · rename_i h1 h2
        subst h2
        exact List.pairwise_cons.2 ⟨hb, hm⟩
      · rename_i h1 h2
        refine List.pairwise_cons.2 ⟨fun d hd => ?_, ih hm⟩
        rcases Memory.mem_write hd with rfl | hd
        · show b < a
          omega
        · exact hb d hd

/-- Consecutive writes keep the canonical form. -/
theorem Memory.wf_writeBytes {m : Memory} (h : Memory.wf m) (a : Nat) (bytes : List Byte) :
    Memory.wf (Memory.writeBytes m a bytes) := by
  induction bytes generalizing m a with
  | nil => exact h
  | cons v vs ih => exact ih (Memory.wf_write h a v) (a + 1)

theorem Memory.wf_ofBytes (bytes : List Byte) : Memory.wf (Memory.ofBytes bytes) :=
  Memory.wf_writeBytes List.Pairwise.nil 0 bytes

/-- What consecutive writes leave: the bytes from `a` on, everything else as before. -/
theorem Memory.read_writeBytes (m : Memory) (a : Nat) (bytes : List Byte) (i : Nat) :
    Memory.read (Memory.writeBytes m a bytes) i =
      if a ≤ i ∧ i < a + bytes.length then bytes[i - a]? else Memory.read m i := by
  induction bytes generalizing m a with
  | nil => simp [Memory.writeBytes]
  | cons v vs ih =>
    rw [Memory.writeBytes, ih]
    by_cases h1 : a + 1 ≤ i ∧ i < a + 1 + vs.length
    · rw [if_pos h1, if_pos (by simp; omega), show i - a = (i - (a + 1)) + 1 by omega]
      simp
    · rw [if_neg h1]
      by_cases h2 : i = a
      · subst h2
        rw [Memory.read_write_same, if_pos (by simp)]
        simp
      · rw [Memory.read_write_other m v h2, if_neg (by simp; omega)]

/-- A buffer made of bytes reads as them, and has no value beyond. -/
theorem Memory.read_ofBytes (bytes : List Byte) (i : Nat) : Memory.read (Memory.ofBytes bytes) i = bytes[i]? := by
  rw [Memory.ofBytes, Memory.read_writeBytes]
  by_cases h : i < bytes.length
  · rw [if_pos (by omega)]
    simp
  · rw [if_neg (by omega), Memory.read_nil, List.getElem?_eq_none (by omega)]

/-- `written` says that every byte below has a value. -/
theorem Memory.written_iff (m : Memory) (n : Nat) :
    Memory.written m n = true ↔ ∀ a, a < n → ∃ v, Memory.read m a = some v := by
  induction n with
  | zero => simp [Memory.written]
  | succ n ih =>
    rw [Memory.written, Bool.and_eq_true, ih, Option.isSome_iff_exists]
    constructor
    · rintro ⟨h1, h2⟩ a ha
      rcases Nat.lt_succ_iff_lt_or_eq.1 ha with h | rfl
      · exact h2 a h
      · exact h1
    · exact fun h => ⟨h n (by omega), fun a ha => h a (by omega)⟩

theorem Memory.written_ofBytes (bytes : List Byte) : Memory.written (Memory.ofBytes bytes) bytes.length = true := by
  refine (Memory.written_iff _ _).2 fun a ha => ⟨bytes[a], ?_⟩
  rw [Memory.read_ofBytes, List.getElem?_eq_getElem ha]

/-- A write keeps the bytes that have a value. -/
theorem Memory.written_write {m : Memory} {n : Nat} (h : Memory.written m n = true) (a : Nat) (v : Byte) :
    Memory.written (Memory.write m a v) n = true := by
  refine (Memory.written_iff _ _).2 fun i hi => ?_
  by_cases hia : i = a
  · exact ⟨v, hia ▸ Memory.read_write_same m a v⟩
  · rw [Memory.read_write_other m v hia]
    exact (Memory.written_iff m n).1 h i hi

/-! ## Bits of a buffer -/

theorem readBits_length {m : Memory} {i n : Nat} {bits : List Bool} (h : readBits m i n = some bits) :
    bits.length = n := by
  induction n generalizing i bits with
  | zero => simp [readBits] at h; simp [h]
  | succ n ih =>
    rw [readBits] at h
    split at h
    · rename_i b bs _ hbs
      cases h
      simp [ih hbs]
    · cases h

/-- A read of `n` bits succeeds where every byte below `k` has a value and the bits lie below it. -/
theorem readBits_isSome {m : Memory} {k i n : Nat} (h : Memory.written m k = true) (hi : i + n ≤ 8 * k) :
    ∃ bits, readBits m i n = some bits := by
  induction n generalizing i with
  | zero => exact ⟨[], rfl⟩
  | succ n ih =>
    obtain ⟨v, hv⟩ := (Memory.written_iff m k).1 h (i / 8) (by omega)
    obtain ⟨bs, hbs⟩ := ih (i := i + 1) (by omega)
    exact ⟨v.getLsbD (7 - i % 8) :: bs, by rw [readBits, srcBit, hv, hbs]; rfl⟩

/-- Two reads in a row are one read (R63, R134). -/
theorem readBits_add (m : Memory) (i a b : Nat) :
    readBits m i (a + b) = (readBits m i a).bind fun xs => (readBits m (i + a) b).map fun ys => xs ++ ys := by
  induction a generalizing i with
  | zero =>
    simp only [Nat.zero_add, readBits, Option.bind_some, List.nil_append]
    simp
  | succ a ih =>
    rw [show a + 1 + b = (a + b) + 1 by omega, readBits, readBits, ih, show i + 1 + a = i + (a + 1) by omega]
    cases h1 : srcBit m i <;> cases h2 : readBits m (i + 1) a <;> cases h3 : readBits m (i + (a + 1)) b <;> simp

theorem bitsOfNat_eq_map (n v : Nat) : bitsOfNat n v = (List.range n).map fun j => v.testBit (n - 1 - j) := by
  induction n with
  | zero => rfl
  | succ n ih =>
    rw [bitsOfNat, List.range_succ_eq_map, List.map_cons, List.map_map, ih]
    refine congrArg₂ _ (by simp) (List.map_congr_left fun j hj => ?_)
    simp only [Function.comp, Nat.succ_eq_add_one]
    congr 1
    omega

/-- Bit `i` of a byte list's stream: bit `7 - (i mod 8)` of byte `i div 8` (R62). -/
theorem getElem?_bitsOfBytes (bytes : List Byte) (i : Nat) :
    (bitsOfBytes bytes)[i]? = (bytes[i / 8]?).map fun b => b.getLsbD (7 - i % 8) := by
  induction bytes generalizing i with
  | nil => simp [bitsOfBytes]
  | cons b bs ih =>
    rw [bitsOfBytes_cons]
    by_cases h : i < 8
    · rw [List.getElem?_append_left (by simpa using h), bitsOfNat_eq_map, Nat.div_eq_of_lt h, Nat.mod_eq_of_lt h]
      simp [List.getElem?_range h, BitVec.getLsbD]
    · rw [List.getElem?_append_right (by simpa using h), length_bitsOfNat, ih,
        show i / 8 = (i - 8) / 8 + 1 by omega, show (i - 8) % 8 = i % 8 by omega]
      simp

/-- A source bit of a buffer that reads as `bytes` below its length. -/
theorem srcBit_eq {m : Memory} {bytes : List Byte} (h : ∀ a, a < bytes.length → Memory.read m a = bytes[a]?)
    {i : Nat} (hi : i < 8 * bytes.length) : srcBit m i = (bitsOfBytes bytes)[i]? := by
  rw [srcBit, h _ (by omega), getElem?_bitsOfBytes]

/-- The bits read from a buffer that reads as `bytes` are those of their stream (R130, R134). -/
theorem readBits_eq {m : Memory} {bytes : List Byte} (h : ∀ a, a < bytes.length → Memory.read m a = bytes[a]?)
    {i n : Nat} (hi : i + n ≤ 8 * bytes.length) :
    readBits m i n = some (((bitsOfBytes bytes).drop i).take n) := by
  induction n generalizing i with
  | zero => simp [readBits]
  | succ n ih =>
    have hlt : i < (bitsOfBytes bytes).length := by simp; omega
    rw [readBits, srcBit_eq h (by omega), ih (by omega), List.getElem?_eq_getElem hlt]
    exact congrArg some (by rw [List.drop_eq_getElem_cons hlt, List.take_succ_cons])

end Sys2Proof.Machine
end

