-- ==== Sys2Proof/Laws/State.lean ====
section
/-! SUPPORT. One lemma per field per named update of State, true by `rfl`, for `simp`: a later proof does not unfold
the record updates. -/

namespace Sys2Proof.Machine

/-! ### `State.cleared` -/

@[simp] theorem State.cleared_phase (s : State) : (s.cleared).phase = s.phase := rfl
@[simp] theorem State.cleared_cur (s : State) : (s.cleared).cur = 0 := rfl
@[simp] theorem State.cleared_limit (s : State) : (s.cleared).limit = 0 := rfl
@[simp] theorem State.cleared_src (s : State) : (s.cleared).src = .sb := rfl
@[simp] theorem State.cleared_x (s : State) : (s.cleared).x = 0 := rfl
@[simp] theorem State.cleared_y (s : State) : (s.cleared).y = 0 := rfl
@[simp] theorem State.cleared_fmt (s : State) : (s.cleared).fmt = 0 := rfl
@[simp] theorem State.cleared_cmp (s : State) : (s.cleared).cmp = 0 := rfl
@[simp] theorem State.cleared_len (s : State) : (s.cleared).len = 0 := rfl
@[simp] theorem State.cleared_width (s : State) : (s.cleared).width = 0 := rfl
@[simp] theorem State.cleared_height (s : State) : (s.cleared).height = 0 := rfl
@[simp] theorem State.cleared_frameBits (s : State) : (s.cleared).frameBits = 0 := rfl
@[simp] theorem State.cleared_nframes (s : State) : (s.cleared).nframes = 0 := rfl
@[simp] theorem State.cleared_streamLen (s : State) : (s.cleared).streamLen = s.streamLen := rfl
@[simp] theorem State.cleared_errcode (s : State) : (s.cleared).errcode = .none := rfl
@[simp] theorem State.cleared_errpos (s : State) : (s.cleared).errpos = 0 := rfl
@[simp] theorem State.cleared_sb (s : State) : (s.cleared).sb = s.sb := rfl
@[simp] theorem State.cleared_ib (s : State) : (s.cleared).ib = s.ib := rfl
@[simp] theorem State.cleared_fs (s : State) : (s.cleared).fs = [] := rfl
@[simp] theorem State.cleared_build (s : State) : (s.cleared).build = s.build := rfl
@[simp] theorem State.cleared_hostTurns (s : State) : (s.cleared).hostTurns = s.hostTurns := rfl
@[simp] theorem State.cleared_hostData (s : State) : (s.cleared).hostData = s.hostData := rfl
@[simp] theorem State.cleared_freeReads (s : State) : (s.cleared).freeReads = s.freeReads := rfl
@[simp] theorem State.cleared_handedOver (s : State) : (s.cleared).handedOver = false := rfl

/-! ### `State.raise` (R258) -/

@[simp] theorem State.raise_phase (s : State) (e : ErrCode) (p : Nat) : (s.raise e p).phase = .error := rfl
@[simp] theorem State.raise_cur (s : State) (e : ErrCode) (p : Nat) : (s.raise e p).cur = 0 := rfl
@[simp] theorem State.raise_limit (s : State) (e : ErrCode) (p : Nat) : (s.raise e p).limit = 0 := rfl
@[simp] theorem State.raise_src (s : State) (e : ErrCode) (p : Nat) : (s.raise e p).src = .sb := rfl
@[simp] theorem State.raise_x (s : State) (e : ErrCode) (p : Nat) : (s.raise e p).x = 0 := rfl
@[simp] theorem State.raise_y (s : State) (e : ErrCode) (p : Nat) : (s.raise e p).y = 0 := rfl
@[simp] theorem State.raise_fmt (s : State) (e : ErrCode) (p : Nat) : (s.raise e p).fmt = 0 := rfl
@[simp] theorem State.raise_cmp (s : State) (e : ErrCode) (p : Nat) : (s.raise e p).cmp = 0 := rfl
@[simp] theorem State.raise_len (s : State) (e : ErrCode) (p : Nat) : (s.raise e p).len = 0 := rfl
@[simp] theorem State.raise_width (s : State) (e : ErrCode) (p : Nat) : (s.raise e p).width = 0 := rfl
@[simp] theorem State.raise_height (s : State) (e : ErrCode) (p : Nat) : (s.raise e p).height = 0 := rfl
@[simp] theorem State.raise_frameBits (s : State) (e : ErrCode) (p : Nat) : (s.raise e p).frameBits = 0 := rfl
@[simp] theorem State.raise_nframes (s : State) (e : ErrCode) (p : Nat) : (s.raise e p).nframes = 0 := rfl
@[simp] theorem State.raise_streamLen (s : State) (e : ErrCode) (p : Nat) : (s.raise e p).streamLen = s.streamLen := rfl
@[simp] theorem State.raise_errcode (s : State) (e : ErrCode) (p : Nat) : (s.raise e p).errcode = e := rfl
@[simp] theorem State.raise_errpos (s : State) (e : ErrCode) (p : Nat) : (s.raise e p).errpos = p := rfl
@[simp] theorem State.raise_sb (s : State) (e : ErrCode) (p : Nat) : (s.raise e p).sb = s.sb := rfl
@[simp] theorem State.raise_ib (s : State) (e : ErrCode) (p : Nat) : (s.raise e p).ib = s.ib := rfl
@[simp] theorem State.raise_fs (s : State) (e : ErrCode) (p : Nat) : (s.raise e p).fs = [] := rfl
@[simp] theorem State.raise_build (s : State) (e : ErrCode) (p : Nat) : (s.raise e p).build = s.build := rfl
@[simp] theorem State.raise_hostTurns (s : State) (e : ErrCode) (p : Nat) : (s.raise e p).hostTurns = s.hostTurns := rfl
@[simp] theorem State.raise_hostData (s : State) (e : ErrCode) (p : Nat) : (s.raise e p).hostData = s.hostData := rfl
@[simp] theorem State.raise_freeReads (s : State) (e : ErrCode) (p : Nat) : (s.raise e p).freeReads = s.freeReads := rfl
@[simp] theorem State.raise_handedOver (s : State) (e : ErrCode) (p : Nat) : (s.raise e p).handedOver = false := rfl

/-! ### `State.launch` (R210) -/

@[simp] theorem State.launch_phase (s : State) : (s.launch).phase = .hFmt := rfl
@[simp] theorem State.launch_cur (s : State) : (s.launch).cur = 0 := rfl
@[simp] theorem State.launch_limit (s : State) : (s.launch).limit = 8 * s.streamLen := rfl
@[simp] theorem State.launch_src (s : State) : (s.launch).src = .sb := rfl
@[simp] theorem State.launch_x (s : State) : (s.launch).x = 0 := rfl
@[simp] theorem State.launch_y (s : State) : (s.launch).y = 0 := rfl
@[simp] theorem State.launch_fmt (s : State) : (s.launch).fmt = 0 := rfl
@[simp] theorem State.launch_cmp (s : State) : (s.launch).cmp = 0 := rfl
@[simp] theorem State.launch_len (s : State) : (s.launch).len = 0 := rfl
@[simp] theorem State.launch_width (s : State) : (s.launch).width = 0 := rfl
@[simp] theorem State.launch_height (s : State) : (s.launch).height = 0 := rfl
@[simp] theorem State.launch_frameBits (s : State) : (s.launch).frameBits = 0 := rfl
@[simp] theorem State.launch_nframes (s : State) : (s.launch).nframes = 0 := rfl
@[simp] theorem State.launch_streamLen (s : State) : (s.launch).streamLen = s.streamLen := rfl
@[simp] theorem State.launch_errcode (s : State) : (s.launch).errcode = .none := rfl
@[simp] theorem State.launch_errpos (s : State) : (s.launch).errpos = 0 := rfl
@[simp] theorem State.launch_sb (s : State) : (s.launch).sb = s.sb := rfl
@[simp] theorem State.launch_ib (s : State) : (s.launch).ib = s.ib := rfl
@[simp] theorem State.launch_fs (s : State) : (s.launch).fs = [] := rfl
@[simp] theorem State.launch_build (s : State) : (s.launch).build = s.build := rfl
@[simp] theorem State.launch_hostTurns (s : State) : (s.launch).hostTurns = s.hostTurns := rfl
@[simp] theorem State.launch_hostData (s : State) : (s.launch).hostData = s.hostData := rfl
@[simp] theorem State.launch_freeReads (s : State) : (s.launch).freeReads = s.freeReads := rfl
@[simp] theorem State.launch_handedOver (s : State) : (s.launch).handedOver = false := rfl

/-! ### `State.softReset` (R216) -/

@[simp] theorem State.softReset_phase (s : State) : (s.softReset).phase = .idle := rfl
@[simp] theorem State.softReset_cur (s : State) : (s.softReset).cur = 0 := rfl
@[simp] theorem State.softReset_limit (s : State) : (s.softReset).limit = 0 := rfl
@[simp] theorem State.softReset_src (s : State) : (s.softReset).src = .sb := rfl
@[simp] theorem State.softReset_x (s : State) : (s.softReset).x = 0 := rfl
@[simp] theorem State.softReset_y (s : State) : (s.softReset).y = 0 := rfl
@[simp] theorem State.softReset_fmt (s : State) : (s.softReset).fmt = 0 := rfl
@[simp] theorem State.softReset_cmp (s : State) : (s.softReset).cmp = 0 := rfl
@[simp] theorem State.softReset_len (s : State) : (s.softReset).len = 0 := rfl
@[simp] theorem State.softReset_width (s : State) : (s.softReset).width = 0 := rfl
@[simp] theorem State.softReset_height (s : State) : (s.softReset).height = 0 := rfl
@[simp] theorem State.softReset_frameBits (s : State) : (s.softReset).frameBits = 0 := rfl
@[simp] theorem State.softReset_nframes (s : State) : (s.softReset).nframes = 0 := rfl
@[simp] theorem State.softReset_streamLen (s : State) : (s.softReset).streamLen = s.streamLen := rfl
@[simp] theorem State.softReset_errcode (s : State) : (s.softReset).errcode = .none := rfl
@[simp] theorem State.softReset_errpos (s : State) : (s.softReset).errpos = 0 := rfl
@[simp] theorem State.softReset_sb (s : State) : (s.softReset).sb = s.sb := rfl
@[simp] theorem State.softReset_ib (s : State) : (s.softReset).ib = s.ib := rfl
@[simp] theorem State.softReset_fs (s : State) : (s.softReset).fs = [] := rfl
@[simp] theorem State.softReset_build (s : State) : (s.softReset).build = s.build := rfl
@[simp] theorem State.softReset_hostTurns (s : State) : (s.softReset).hostTurns = s.hostTurns := rfl
@[simp] theorem State.softReset_hostData (s : State) : (s.softReset).hostData = s.hostData := rfl
@[simp] theorem State.softReset_freeReads (s : State) : (s.softReset).freeReads = s.freeReads := rfl
@[simp] theorem State.softReset_handedOver (s : State) : (s.softReset).handedOver = false := rfl

/-! ### `State.hardReset` (R280) -/

@[simp] theorem State.hardReset_phase (s : State) : (s.hardReset).phase = .idle := rfl
@[simp] theorem State.hardReset_cur (s : State) : (s.hardReset).cur = 0 := rfl
@[simp] theorem State.hardReset_limit (s : State) : (s.hardReset).limit = 0 := rfl
@[simp] theorem State.hardReset_src (s : State) : (s.hardReset).src = .sb := rfl
@[simp] theorem State.hardReset_x (s : State) : (s.hardReset).x = 0 := rfl
@[simp] theorem State.hardReset_y (s : State) : (s.hardReset).y = 0 := rfl
@[simp] theorem State.hardReset_fmt (s : State) : (s.hardReset).fmt = 0 := rfl
@[simp] theorem State.hardReset_cmp (s : State) : (s.hardReset).cmp = 0 := rfl
@[simp] theorem State.hardReset_len (s : State) : (s.hardReset).len = 0 := rfl
@[simp] theorem State.hardReset_width (s : State) : (s.hardReset).width = 0 := rfl
@[simp] theorem State.hardReset_height (s : State) : (s.hardReset).height = 0 := rfl
@[simp] theorem State.hardReset_frameBits (s : State) : (s.hardReset).frameBits = 0 := rfl
@[simp] theorem State.hardReset_nframes (s : State) : (s.hardReset).nframes = 0 := rfl
@[simp] theorem State.hardReset_streamLen (s : State) : (s.hardReset).streamLen = 0 := rfl
@[simp] theorem State.hardReset_errcode (s : State) : (s.hardReset).errcode = .none := rfl
@[simp] theorem State.hardReset_errpos (s : State) : (s.hardReset).errpos = 0 := rfl
@[simp] theorem State.hardReset_sb (s : State) : (s.hardReset).sb = [] := rfl
@[simp] theorem State.hardReset_ib (s : State) : (s.hardReset).ib = [] := rfl
@[simp] theorem State.hardReset_fs (s : State) : (s.hardReset).fs = [] := rfl
@[simp] theorem State.hardReset_build (s : State) : (s.hardReset).build = s.build := rfl
@[simp] theorem State.hardReset_hostTurns (s : State) : (s.hardReset).hostTurns = s.hostTurns := rfl
@[simp] theorem State.hardReset_hostData (s : State) : (s.hardReset).hostData = s.hostData := rfl
@[simp] theorem State.hardReset_freeReads (s : State) : (s.hardReset).freeReads = s.freeReads := rfl
@[simp] theorem State.hardReset_handedOver (s : State) : (s.hardReset).handedOver = false := rfl

/-! ### `State.switchSource` (R202) -/

@[simp] theorem State.switchSource_phase (s : State) (r : List Byte) : (s.switchSource r).phase = .fTest := rfl
@[simp] theorem State.switchSource_cur (s : State) (r : List Byte) : (s.switchSource r).cur = 0 := rfl
@[simp] theorem State.switchSource_limit (s : State) (r : List Byte) : (s.switchSource r).limit = 8 * r.length := rfl
@[simp] theorem State.switchSource_src (s : State) (r : List Byte) : (s.switchSource r).src = .ib := rfl
@[simp] theorem State.switchSource_x (s : State) (r : List Byte) : (s.switchSource r).x = s.x := rfl
@[simp] theorem State.switchSource_y (s : State) (r : List Byte) : (s.switchSource r).y = s.y := rfl
@[simp] theorem State.switchSource_fmt (s : State) (r : List Byte) : (s.switchSource r).fmt = s.fmt := rfl
@[simp] theorem State.switchSource_cmp (s : State) (r : List Byte) : (s.switchSource r).cmp = s.cmp := rfl
@[simp] theorem State.switchSource_len (s : State) (r : List Byte) : (s.switchSource r).len = s.len := rfl
@[simp] theorem State.switchSource_width (s : State) (r : List Byte) : (s.switchSource r).width = s.width := rfl
@[simp] theorem State.switchSource_height (s : State) (r : List Byte) : (s.switchSource r).height = s.height := rfl
@[simp] theorem State.switchSource_frameBits (s : State) (r : List Byte) : (s.switchSource r).frameBits = s.frameBits := rfl
@[simp] theorem State.switchSource_nframes (s : State) (r : List Byte) : (s.switchSource r).nframes = s.nframes := rfl
@[simp] theorem State.switchSource_streamLen (s : State) (r : List Byte) : (s.switchSource r).streamLen = s.streamLen := rfl
@[simp] theorem State.switchSource_errcode (s : State) (r : List Byte) : (s.switchSource r).errcode = s.errcode := rfl
@[simp] theorem State.switchSource_errpos (s : State) (r : List Byte) : (s.switchSource r).errpos = s.errpos := rfl
@[simp] theorem State.switchSource_sb (s : State) (r : List Byte) : (s.switchSource r).sb = s.sb := rfl
@[simp] theorem State.switchSource_ib (s : State) (r : List Byte) : (s.switchSource r).ib = Memory.ofBytes r := rfl
@[simp] theorem State.switchSource_fs (s : State) (r : List Byte) : (s.switchSource r).fs = s.fs := rfl
@[simp] theorem State.switchSource_build (s : State) (r : List Byte) : (s.switchSource r).build = s.build := rfl
@[simp] theorem State.switchSource_hostTurns (s : State) (r : List Byte) : (s.switchSource r).hostTurns = s.hostTurns := rfl
@[simp] theorem State.switchSource_hostData (s : State) (r : List Byte) : (s.switchSource r).hostData = s.hostData := rfl
@[simp] theorem State.switchSource_freeReads (s : State) (r : List Byte) : (s.switchSource r).freeReads = s.freeReads := rfl
@[simp] theorem State.switchSource_handedOver (s : State) (r : List Byte) : (s.switchSource r).handedOver = s.handedOver := rfl

/-! ### `State.beginFrame` (R172) -/

@[simp] theorem State.beginFrame_phase (s : State) : (s.beginFrame).phase = .fPixel := rfl
@[simp] theorem State.beginFrame_cur (s : State) : (s.beginFrame).cur = s.cur := rfl
@[simp] theorem State.beginFrame_limit (s : State) : (s.beginFrame).limit = s.limit := rfl
@[simp] theorem State.beginFrame_src (s : State) : (s.beginFrame).src = s.src := rfl
@[simp] theorem State.beginFrame_x (s : State) : (s.beginFrame).x = 0 := rfl
@[simp] theorem State.beginFrame_y (s : State) : (s.beginFrame).y = 0 := rfl
@[simp] theorem State.beginFrame_fmt (s : State) : (s.beginFrame).fmt = s.fmt := rfl
@[simp] theorem State.beginFrame_cmp (s : State) : (s.beginFrame).cmp = s.cmp := rfl
@[simp] theorem State.beginFrame_len (s : State) : (s.beginFrame).len = s.len := rfl
@[simp] theorem State.beginFrame_width (s : State) : (s.beginFrame).width = s.width := rfl
@[simp] theorem State.beginFrame_height (s : State) : (s.beginFrame).height = s.height := rfl
@[simp] theorem State.beginFrame_frameBits (s : State) : (s.beginFrame).frameBits = s.frameBits := rfl
@[simp] theorem State.beginFrame_nframes (s : State) : (s.beginFrame).nframes = s.nframes := rfl
@[simp] theorem State.beginFrame_streamLen (s : State) : (s.beginFrame).streamLen = s.streamLen := rfl
@[simp] theorem State.beginFrame_errcode (s : State) : (s.beginFrame).errcode = s.errcode := rfl
@[simp] theorem State.beginFrame_errpos (s : State) : (s.beginFrame).errpos = s.errpos := rfl
@[simp] theorem State.beginFrame_sb (s : State) : (s.beginFrame).sb = s.sb := rfl
@[simp] theorem State.beginFrame_ib (s : State) : (s.beginFrame).ib = s.ib := rfl
@[simp] theorem State.beginFrame_fs (s : State) : (s.beginFrame).fs = s.fs.take s.nframes ++ [zeroFrame (s.width.toNat * s.height.toNat)] := rfl
@[simp] theorem State.beginFrame_build (s : State) : (s.beginFrame).build = s.build := rfl
@[simp] theorem State.beginFrame_hostTurns (s : State) : (s.beginFrame).hostTurns = s.hostTurns := rfl
@[simp] theorem State.beginFrame_hostData (s : State) : (s.beginFrame).hostData = s.hostData := rfl
@[simp] theorem State.beginFrame_freeReads (s : State) : (s.beginFrame).freeReads = s.freeReads := rfl
@[simp] theorem State.beginFrame_handedOver (s : State) : (s.beginFrame).handedOver = s.handedOver := rfl

/-! ### `State.nextPixel` (R173) -/

@[simp] theorem State.nextPixel_cur (s : State) : s.nextPixel.cur = s.cur := by
  unfold State.nextPixel; split
  · rfl
  · split <;> rfl
@[simp] theorem State.nextPixel_limit (s : State) : s.nextPixel.limit = s.limit := by
  unfold State.nextPixel; split
  · rfl
  · split <;> rfl
@[simp] theorem State.nextPixel_src (s : State) : s.nextPixel.src = s.src := by
  unfold State.nextPixel; split
  · rfl
  · split <;> rfl
@[simp] theorem State.nextPixel_fmt (s : State) : s.nextPixel.fmt = s.fmt := by
  unfold State.nextPixel; split
  · rfl
  · split <;> rfl
@[simp] theorem State.nextPixel_cmp (s : State) : s.nextPixel.cmp = s.cmp := by
  unfold State.nextPixel; split
  · rfl
  · split <;> rfl
@[simp] theorem State.nextPixel_len (s : State) : s.nextPixel.len = s.len := by
  unfold State.nextPixel; split
  · rfl
  · split <;> rfl
@[simp] theorem State.nextPixel_width (s : State) : s.nextPixel.width = s.width := by
  unfold State.nextPixel; split
  · rfl
  · split <;> rfl
@[simp] theorem State.nextPixel_height (s : State) : s.nextPixel.height = s.height := by
  unfold State.nextPixel; split
  · rfl
  · split <;> rfl
@[simp] theorem State.nextPixel_frameBits (s : State) : s.nextPixel.frameBits = s.frameBits := by
  unfold State.nextPixel; split
  · rfl
  · split <;> rfl
@[simp] theorem State.nextPixel_nframes (s : State) : s.nextPixel.nframes = s.nframes := by
  unfold State.nextPixel; split
  · rfl
  · split <;> rfl
@[simp] theorem State.nextPixel_streamLen (s : State) : s.nextPixel.streamLen = s.streamLen := by
  unfold State.nextPixel; split
  · rfl
  · split <;> rfl
@[simp] theorem State.nextPixel_errcode (s : State) : s.nextPixel.errcode = s.errcode := by
  unfold State.nextPixel; split
  · rfl
  · split <;> rfl
@[simp] theorem State.nextPixel_errpos (s : State) : s.nextPixel.errpos = s.errpos := by
  unfold State.nextPixel; split
  · rfl
  · split <;> rfl
@[simp] theorem State.nextPixel_sb (s : State) : s.nextPixel.sb = s.sb := by
  unfold State.nextPixel; split
  · rfl
  · split <;> rfl
@[simp] theorem State.nextPixel_ib (s : State) : s.nextPixel.ib = s.ib := by
  unfold State.nextPixel; split
  · rfl
  · split <;> rfl
@[simp] theorem State.nextPixel_fs (s : State) : s.nextPixel.fs = s.fs := by
  unfold State.nextPixel; split
  · rfl
  · split <;> rfl
@[simp] theorem State.nextPixel_build (s : State) : s.nextPixel.build = s.build := by
  unfold State.nextPixel; split
  · rfl
  · split <;> rfl
@[simp] theorem State.nextPixel_hostTurns (s : State) : s.nextPixel.hostTurns = s.hostTurns := by
  unfold State.nextPixel; split
  · rfl
  · split <;> rfl
@[simp] theorem State.nextPixel_hostData (s : State) : s.nextPixel.hostData = s.hostData := by
  unfold State.nextPixel; split
  · rfl
  · split <;> rfl
@[simp] theorem State.nextPixel_freeReads (s : State) : s.nextPixel.freeReads = s.freeReads := by
  unfold State.nextPixel; split
  · rfl
  · split <;> rfl
@[simp] theorem State.nextPixel_handedOver (s : State) : s.nextPixel.handedOver = s.handedOver := by
  unfold State.nextPixel; split
  · rfl
  · split <;> rfl

end Sys2Proof.Machine
end

