-- ==== Sys2Proof/Laws/Ops.lean ====
section
/-! SUPPORT. One lemma per shared operation that says what it can do, cited instead of unfolding it: the frame
store, a header field, a pixel, the sequencing of operations, the fetch, one decoder step. -/

namespace Sys2Proof.Machine

/-! ## Phases and flags -/

theorem State.busy_iff (s : State) :
    s.busy = true ↔ s.phase ≠ .idle ∧ s.phase ≠ .done ∧ s.phase ≠ .error := by
  unfold State.busy phaseBusy
  cases s.phase <;> simp [phaseCode]

theorem pixelBits_pos (f : Bit) : 1 ≤ pixelBits f := by
  unfold pixelBits; split <;> omega

theorem bit_eq_zero_or_one (f : Bit) : f = 0 ∨ f = 1 := by
  have h := f.isLt
  rcases Nat.lt_or_ge f.toNat 1 with h1 | h1
  · exact .inl (BitVec.eq_of_toNat_eq (by simp; omega))
  · exact .inr (BitVec.eq_of_toNat_eq (by simp; omega))

/-! ## The frame store -/

theorem storePix_eq_some {fs fs' : List Frame} {f i : Nat} {v : Code} (h : storePix fs f i v = some fs') :
    ∃ fr, fs[f]? = some fr ∧ i < fr.pix.length ∧ fs' = fs.set f { fr with pix := fr.pix.set i v } := by
  unfold storePix at h
  split at h
  · cases h
  · rename_i fr hfr
    split at h
    · cases h; exact ⟨fr, hfr, ‹_›, rfl⟩
    · cases h

theorem storePix_of_cell {fs : List Frame} {f i : Nat} {fr : Frame} (v : Code) (h : fs[f]? = some fr)
    (hi : i < fr.pix.length) : storePix fs f i v = some (fs.set f { fr with pix := fr.pix.set i v }) := by
  simp [storePix, h, hi]

theorem storeDur_eq_some {fs fs' : List Frame} {f : Nat} {d : Byte} (h : storeDur fs f d = some fs') :
    ∃ fr, fs[f]? = some fr ∧ fs' = fs.set f { fr with dur := some d } := by
  unfold storeDur at h
  split at h
  · cases h
  · cases h; exact ⟨_, ‹_›, rfl⟩

theorem storeDur_of_frame {fs : List Frame} {f : Nat} {fr : Frame} (d : Byte) (h : fs[f]? = some fr) :
    storeDur fs f d = some (fs.set f { fr with dur := some d }) := by
  simp [storeDur, h]

/-! ## Operations -/

theorem headerField_long {n : Nat} (effect : State → State) {s : State} (h : n ≤ s.remaining) :
    headerField n effect s = .next (effect { s with cur := s.cur + n }) := by
  rw [headerField, if_neg (by omega)]

theorem headerField_short {n : Nat} (effect : State → State) {s : State} (h : s.remaining < n) :
    headerField n effect s = .next (s.raise .truncatedStream s.cur) := by
  rw [headerField, if_pos h]

/-- What a header field can answer: the error entry, or its effect past the field. -/
theorem headerField_cases {n : Nat} {effect : State → State} {s t : State} (h : headerField n effect s = .next t) :
    (s.remaining < n ∧ t = s.raise .truncatedStream s.cur) ∨
      (n ≤ s.remaining ∧ t = effect { s with cur := s.cur + n }) := by
  unfold headerField at h
  split at h
  · cases h; exact .inl ⟨‹_›, rfl⟩
  · cases h; exact .inr ⟨by omega, rfl⟩

theorem andThen_next {t : State} (k : State → Res) (h : t.phase ≠ .error) : andThen (.next t) k = k t := by
  simp [andThen, h]

theorem andThen_error {t : State} (k : State → Res) (h : t.phase = .error) : andThen (.next t) k = .next t := by
  simp [andThen, h]

/-- What a sequence can answer: it ended at a raise, or the second operation answered. -/
theorem andThen_cases {r : Res} {k : State → Res} {t : State} (h : andThen r k = .next t) :
    (r = .next t ∧ t.phase = .error) ∨ ∃ u, r = .next u ∧ u.phase ≠ .error ∧ k u = .next t := by
  unfold andThen at h
  split at h
  · split at h
    · cases h; exact .inl ⟨rfl, ‹_›⟩
    · exact .inr ⟨_, rfl, ‹_›, h⟩
  · cases h
  · cases h

/-- What a pixel can answer: its code stored, the cursor past it, `X` and `Y` stepped. -/
theorem pixelElement_cases {n : Nat} {code : Code} {s t : State} (h : pixelElement n code s = .next t) :
    n ≤ s.remaining ∧ ∃ fr, s.fs[s.nframes]? = some fr ∧ s.pixelIndex < fr.pix.length ∧
      t = State.nextPixel { s with
        cur := s.cur + n, fs := s.fs.set s.nframes { fr with pix := fr.pix.set s.pixelIndex code } } := by
  unfold pixelElement at h
  split at h
  · cases h
  · split at h
    · cases h
    · rename_i hfs
      cases h
      obtain ⟨fr, h1, h2, rfl⟩ := storePix_eq_some hfs
      exact ⟨by omega, fr, h1, h2, rfl⟩

theorem pixelElement_of_cell {n : Nat} (code : Code) {s : State} {fr : Frame} (hn : n ≤ s.remaining)
    (hf : s.fs[s.nframes]? = some fr) (hi : s.pixelIndex < fr.pix.length) :
    pixelElement n code s = .next (State.nextPixel { s with
      cur := s.cur + n, fs := s.fs.set s.nframes { fr with pix := fr.pix.set s.pixelIndex code } }) := by
  rw [pixelElement, if_neg (by omega), storePix_of_cell code hf hi]

/-! ## The fetch -/

theorem State.wholeHeader?_eq_none {s : State} (h : s.build.grain = .perField ∨ s.phase ≠ .hFmt) :
    s.wholeHeader? = none := by
  unfold State.wholeHeader?
  rw [if_neg]
  rintro ⟨h1, h2, -⟩
  rcases h with h | h
  · rw [h] at h1; cases h1
  · exact h h2

/-- Where a header is taken whole: its `LEN` bits were read, and all its bits are unread. -/
theorem State.wholeHeader?_eq_some {s : State} {l : BitVec 4} (h : s.wholeHeader? = some l) :
    s.build.grain = .wholeHeader ∧ s.phase = .hFmt ∧ 6 + 2 * (l.toNat + 1) ≤ s.remaining ∧
      ∃ bits, readBits s.source (s.cur + 2) 4 = some bits ∧ natOfBits bits = l.toNat := by
  unfold State.wholeHeader? at h
  split at h
  · rename_i hc
    obtain ⟨h1, h2, -⟩ := hc
    split at h
    · rename_i bits hb
      split at h
      · have hlt := natOfBits_lt bits
        rw [readBits_length hb] at hlt
        have hmod : natOfBits bits % 2 ^ 4 = natOfBits bits := Nat.mod_eq_of_lt hlt
        cases h
        refine ⟨h1, h2, ?_, bits, hb, ?_⟩
        · rw [BitVec.toNat_ofNat, hmod]; assumption
        · rw [BitVec.toNat_ofNat, hmod]
      · cases h
    · cases h
  · cases h

@[simp] theorem State.ctx_phase (s : State) : s.ctx.phase = s.phase := by
  unfold State.ctx; simp only; split <;> rfl

@[simp] theorem State.ctx_fmt (s : State) : s.ctx.fmt = s.fmt := by
  unfold State.ctx; simp only; split <;> rfl

@[simp] theorem State.ctx_cmp (s : State) : s.ctx.cmp = s.cmp := by
  unfold State.ctx; simp only; split <;> rfl

@[simp] theorem State.ctx_rem (s : State) : s.ctx.rem = s.remaining := by
  unfold State.ctx; simp only; split <;> rfl

@[simp] theorem State.ctx_skip (s : State) : s.ctx.skip = s.skip := by
  unfold State.ctx; simp only; split <;> rfl

/-- The context of an element that is no whole header. -/
theorem State.ctx_of_none {s : State} (h : s.wholeHeader? = none) :
    s.ctx = { phase := s.phase, fmt := s.fmt, cmp := s.cmp, len := s.len, whole := false
              rem := s.remaining, skip := s.skip } := by
  unfold State.ctx; simp only [h]

/-- The context of a header taken whole. -/
theorem State.ctx_of_some {s : State} {l : BitVec 4} (h : s.wholeHeader? = some l) :
    s.ctx = { phase := s.phase, fmt := s.fmt, cmp := s.cmp, len := l, whole := true
              rem := s.remaining, skip := s.skip } := by
  unfold State.ctx; simp only [h]

/-- The element fetched is the one the sequencer state selects, and well formed (R104). -/
theorem State.fetch_wellFormed {s : State} {i : Instr} (h : s.fetch = some i) : wellFormed s.ctx i = true := by
  unfold State.fetch at h
  split at h
  · cases h
  · split at h
    · cases h; exact decode_wellFormed ‹_›
    · cases h

/-- An element whose bits are unread and have values is fetched as they decode. -/
theorem State.fetch_of_decode {s : State} {bits rest : List Bool} {i : Instr}
    (hlen : elementWidth s.ctx ≤ s.remaining) (hb : readBits s.source s.cur (elementWidth s.ctx) = some bits)
    (hd : decode s.ctx bits = .ok (i, rest)) : s.fetch = some i := by
  unfold State.fetch State.operandBits
  rw [if_neg (by omega), hb]
  simp only [hd]

theorem field_of_readBits {m : Memory} {i n a k : Nat} {bits sub : List Bool} (h : readBits m i n = some bits)
    (hs : readBits m (i + a) k = some sub) (hk : a + k ≤ n) : field bits a k = natOfBits sub := by
  obtain ⟨r, rfl⟩ := Nat.exists_eq_add_of_le hk
  rw [readBits_add, readBits_add] at h
  obtain ⟨xy, hxy, hz⟩ := Option.bind_eq_some_iff.1 h
  obtain ⟨z, hz', rfl⟩ := Option.map_eq_some_iff.1 hz
  obtain ⟨x, hx, hy⟩ := Option.bind_eq_some_iff.1 hxy
  obtain ⟨y, hy', rfl⟩ := Option.map_eq_some_iff.1 hy
  obtain rfl : sub = y := Option.some.inj (hs.symm.trans hy')
  have hxl := readBits_length hx
  have hyl := readBits_length hs
  rw [field, List.append_assoc, List.drop_left' hxl, List.take_left' hyl]

/-- Where every byte of the source has a value, the fetch gives an element in every state that has one (R287). -/
theorem State.fetch_isSome {s : State} {k : Nat} (hp : s.phase ≠ .idle ∧ s.phase ≠ .error)
    (hw : Memory.written s.source k = true) (hl : s.limit = 8 * k) (hc : s.cur ≤ s.limit) :
    ∃ i, s.fetch = some i := by
  cases hh : s.wholeHeader? with
  | none =>
    have hwhole : s.ctx.whole = false := by rw [State.ctx_of_none hh]
    obtain ⟨bits, hbits, hlen⟩ : ∃ bits, s.operandBits = some bits ∧ bits.length = elementWidth s.ctx := by
      unfold State.operandBits
      split
      · exact ⟨_, rfl, by simp⟩
      · obtain ⟨bits, hb⟩ := readBits_isSome (i := s.cur) (n := elementWidth s.ctx) hw
          (by unfold State.remaining at *; omega)
        exact ⟨bits, hb, readBits_length hb⟩
    obtain ⟨i, rest, hd⟩ := decode_isOk (c := s.ctx) (bits := bits) (by simpa using hp) hwhole (by omega)
    exact ⟨i, by unfold State.fetch; simp only [hbits, hd]⟩
  | some l =>
    obtain ⟨-, hph, hrem, sub, hsub, hval⟩ := State.wholeHeader?_eq_some hh
    have hew : elementWidth s.ctx = 6 + 2 * (l.toNat + 1) := by
      rw [State.ctx_of_some hh]; simp [elementWidth, hph]
    obtain ⟨bits, hb⟩ := readBits_isSome (i := s.cur) (n := elementWidth s.ctx) hw
      (by unfold State.remaining at *; omega)
    have hf := field_of_readBits hb hsub (by omega)
    have hbl := readBits_length hb
    obtain ⟨i, rest, hd⟩ := decodeHeader_isOk (bits := bits) (by omega)
    refine ⟨i, State.fetch_of_decode (rest := rest) (by omega) hb ?_⟩
    rw [State.ctx_of_some hh]
    simp only [decode, hph]
    exact hd

/-! ## Steps -/

theorem step_silent {s : State} (h : s.hostTurns = []) : step s = decoderStep s := by
  simp [step, h]

/-- In a state that has an element, the decoder's step is that element's meaning. -/
theorem decoderStep_of_fetch {s : State} {i : Instr} (h : s.fetch = some i)
    (hp : s.phase ≠ .idle ∧ s.phase ≠ .error) : decoderStep s = exec i s := by
  obtain ⟨h1, h2⟩ := hp
  unfold decoderStep
  rw [h]
  cases hs : s.phase <;> simp_all

theorem decoderStep_quiet {s : State} (hp : s.phase = .idle ∨ s.phase = .error) : decoderStep s = .next s := by
  unfold decoderStep
  rcases hp with hp | hp <;> rw [hp]

/-- What a decoder step to a next state was: nothing in `IDLE` and `ERROR`, otherwise the meaning of a well formed
element selected in the state. -/
theorem decoderStep_cases {s t : State} (h : decoderStep s = .next t) :
    ((s.phase = .idle ∨ s.phase = .error) ∧ t = s) ∨
      ((s.phase ≠ .idle ∧ s.phase ≠ .error) ∧ ∃ i, s.fetch = some i ∧ wellFormed s.ctx i = true ∧ exec i s = .next t) := by
  by_cases hq : s.phase = .idle ∨ s.phase = .error
  · rw [decoderStep_quiet hq] at h
    cases h
    exact .inl ⟨hq, rfl⟩
  · refine .inr ⟨by tauto, ?_⟩
    cases hf : s.fetch with
    | none =>
      unfold decoderStep at h
      rw [hf] at h
      cases hs : s.phase <;> simp_all
    | some i =>
      rw [decoderStep_of_fetch hf (by tauto)] at h
      exact ⟨i, rfl, State.fetch_wellFormed hf, h⟩

/-- What a step to a next state was: a decoder step, a turn the host passed and a decoder step, or a host action. -/
theorem step_cases {s t : State} (h : step s = .next t) :
    (s.hostTurns = [] ∧ decoderStep s = .next t) ∨
      (∃ rest, s.hostTurns = none :: rest ∧ decoderStep { s with hostTurns := rest } = .next t) ∨
      (∃ a rest, s.hostTurns = some a :: rest ∧ hostAct a { s with hostTurns := rest } = .next t) := by
  unfold step at h
  split at h
  · exact .inl ⟨‹_›, h⟩
  · exact .inr (.inl ⟨_, ‹_›, h⟩)
  · exact .inr (.inr ⟨_, _, ‹_›, h⟩)

end Sys2Proof.Machine
end

