-- ==== Sys2Proof/Laws/Header.lean ====
section
/-! SUPPORT. What the header check and a whole header can do, said once: `HDR_CHECK` with legal dimensions, and the
six operations in order with all their bits unread or not (`41_header_parser.md` R145 to R147). -/

namespace Sys2Proof.Machine

/-- `RD_FMT` with its bit unread: the `InvalidFormat` test cannot hold (R251). -/
theorem execFmt_long (f : Bit) {s : State} (h : 1 ≤ s.remaining) :
    execFmt f s = .next { s with fmt := f, cur := s.cur + 1, phase := .hCmp } := by
  rw [execFmt, headerField_long _ h, if_neg]
  rcases bit_eq_zero_or_one f with rfl | rfl <;> simp

/-- `HDR_CHECK` with dimensions of at least 1 (R145). -/
theorem execHdrCheck_of_dims {s : State} (hw : 1 ≤ s.width.toNat) (hh : 1 ≤ s.height.toNat) :
    execHdrCheck s = .next { s with
      frameBits := BitVec.ofNat 34 (s.width.toNat * s.height.toNat * pixelBits s.fmt), phase := .pSelect } := by
  rw [execHdrCheck, if_neg (by omega)]

/-- `HDR_CHECK` with a zero dimension (R145). -/
theorem execHdrCheck_of_zero {s : State} (h : s.width.toNat < 1 ∨ s.height.toNat < 1) :
    execHdrCheck s = .next (s.raise .malformedHeader s.cur) := by
  rw [execHdrCheck, if_pos h]

/-- `FRAME_BITS` never wraps in its 34 bits (R31). -/
theorem frameBits_lt {w h : Nat} (f : Bit) (hw : w ≤ 65536) (hh : h ≤ 65536) : w * h * pixelBits f < 2 ^ 34 := by
  have hb : pixelBits f ≤ 3 := by unfold pixelBits; split <;> omega
  have : w * h * pixelBits f ≤ 65536 * 65536 * 3 := Nat.mul_le_mul (Nat.mul_le_mul hw hh) hb
  omega

/-- A whole header with all its bits unread (R147). -/
theorem wholeHeader_long {s : State} {n : Nat} (hn1 : 1 ≤ n) (f c : Bit) {l : BitVec 4} (hl : l.toNat = n - 1)
    (w h : BitVec 16) (hr : 6 + 2 * n ≤ s.remaining) :
    wholeHeader f c l w h s = .next (s.headerResult n f c w.toNat h.toNat) := by
  have hw := w.isLt
  have hh := h.isLt
  have e1 : (BitVec.ofNat 17 (w.toNat + 1)).toNat = w.toNat + 1 := by simp; omega
  have e2 : (BitVec.ofNat 17 (h.toNat + 1)).toNat = h.toNat + 1 := by simp; omega
  have hl2 : l = BitVec.ofNat 4 (n - 1) := by rw [← hl]; simp
  have hlen : (BitVec.ofNat 4 (n - 1)).toNat = n - 1 := by rw [← hl2, hl]
  unfold State.remaining at hr
  rw [wholeHeader, execFmt_long f (by unfold State.remaining; omega), andThen_next _ (by simp), execCmp,
    headerField_long _ (by simp only [State.remaining]; omega), andThen_next _ (by simp)]
  dsimp only
  rw [execLen, headerField_long _ (by simp only [State.remaining]; omega), andThen_next _ (by simp)]
  dsimp only
  rw [execWm1, headerField_long _ (by simp only [State.remaining, State.dimBits]; omega), andThen_next _ (by simp)]
  dsimp only
  rw [execHm1, headerField_long _ (by simp only [State.remaining, State.dimBits]; omega), andThen_next _ (by simp)]
  dsimp only
  rw [execHdrCheck_of_dims (by simp only [e1]; omega) (by simp only [e2]; omega)]
  simp only [State.headerResult, e1, e2, State.dimBits, hl2, hlen]
  congr 2
  omega

/-- A whole header with too few unread bits (R146, R147). -/
theorem wholeHeader_short {s : State} {n : Nat} (hn1 : 1 ≤ n) (f c : Bit) {l : BitVec 4} (hl : l.toNat = n - 1)
    (w h : BitVec 16) (hr : s.remaining < 6 + 2 * n) :
    wholeHeader f c l w h s = .next (s.raise .truncatedStream (s.headerFailure n)) := by
  rw [wholeHeader]
  by_cases h1 : s.remaining < 1
  · have hf : s.headerFailure n = s.cur := by simp only [State.headerFailure, h1, if_true]
    rw [execFmt, headerField_short _ h1, andThen_error _ (State.raise_phase _ _ _), hf]
  rw [execFmt_long f (by omega), andThen_next _ (by simp), execCmp]
  by_cases h2 : s.remaining < 2
  · have hf : s.headerFailure n = s.cur + 1 := by simp only [State.headerFailure, h1, h2, if_true, if_false]
    rw [headerField_short _ (by unfold State.remaining at h2; simp only [State.remaining]; omega),
      andThen_error _ (State.raise_phase _ _ _), hf]
    rfl
  have r2 := h2
  unfold State.remaining at hr r2
  rw [headerField_long _ (by simp only [State.remaining]; omega), andThen_next _ (by simp)]
  dsimp only
  rw [execLen]
  by_cases h3 : s.remaining < 6
  · have hf : s.headerFailure n = s.cur + 2 := by simp only [State.headerFailure, h1, h2, h3, if_true, if_false]
    rw [headerField_short _ (by unfold State.remaining at h3; simp only [State.remaining]; omega),
      andThen_error _ (State.raise_phase _ _ _), hf]
    rfl
  have r3 := h3
  unfold State.remaining at r3
  rw [headerField_long _ (by simp only [State.remaining]; omega), andThen_next _ (by simp)]
  dsimp only
  rw [execWm1]
  by_cases h4 : s.remaining < 6 + n
  · have hf : s.headerFailure n = s.cur + 6 := by simp only [State.headerFailure, h1, h2, h3, h4, if_true, if_false]
    rw [headerField_short _ (by unfold State.remaining at h4; simp only [State.remaining, State.dimBits]; omega),
      andThen_error _ (State.raise_phase _ _ _), hf]
    rfl
  have r4 := h4
  unfold State.remaining at r4
  have hf : s.headerFailure n = s.cur + (6 + n) := by simp only [State.headerFailure, h1, h2, h3, h4, if_false]
  rw [headerField_long _ (by simp only [State.remaining, State.dimBits]; omega), andThen_next _ (by simp)]
  dsimp only
  rw [execHm1, headerField_short _ (by simp only [State.remaining, State.dimBits]; omega),
    andThen_error _ (State.raise_phase _ _ _), hf]
  simp only [State.raise, State.cleared, State.dimBits]
  congr 2
  omega

end Sys2Proof.Machine
end

