-- ==== Sys2Proof/Laws/HostPort.lean ====
section
/-! SUPPORT. What the host commands can do: a register read, a frame store read, `START`, and any host action. -/

namespace Sys2Proof.Machine

/-! ## Reads -/

theorem hostReadReg_always {r : HostReg} (s : State) (h : readableWhileBusy r = true) :
    hostReadReg r s = .next { s with hostData := some (hostRegValue r s), handedOver := s.handOver r } := by
  simp [hostReadReg, h]

theorem hostReadReg_result (r : HostReg) {s : State} (hb : s.busy = false) (hr : s.resultsReadable = true) :
    hostReadReg r s = .next { s with hostData := some (hostRegValue r s), handedOver := s.handOver r } := by
  simp [hostReadReg, hb, hr]

/-- A result or an error that the poll has not handed over (R286). -/
theorem hostReadReg_early {r : HostReg} {s : State} (h : readableWhileBusy r = false) (hb : s.busy = false)
    (hr : s.resultsReadable = false) : hostReadReg r s = .refused .hostReadBeforePoll := by
  simp [hostReadReg, h, hb, hr]

/-- Only a `STATUS` read in `DONE` or `ERROR` hands results over. -/
theorem State.handOver_eq_true {s : State} {r : HostReg} (h : s.handOver r = true) :
    s.handedOver = true ∨ s.phase = .done ∨ s.phase = .error := by
  cases r <;> simp [State.handOver, State.doneFlag, State.errFlag] at h ⊢ <;> tauto

/-- What a register read can answer. -/
theorem hostReadReg_cases {r : HostReg} {s t : State} (h : hostReadReg r s = .next t) :
    (readableWhileBusy r = true ∨ (s.busy = false ∧ s.resultsReadable = true)) ∧
      t = { s with hostData := some (hostRegValue r s), handedOver := s.handOver r } := by
  unfold hostReadReg at h
  split at h
  · cases h
  · split at h
    · cases h
    · cases h
      refine ⟨?_, rfl⟩
      cases hr : readableWhileBusy r <;> simp_all

theorem fetchFrame_of_frame {f : Nat} {s : State} {fr : Frame} (k : Frame → Res) (hd : s.phase = .done) (hf : f < s.nframes)
    (hh : s.handedOver = true) (h : s.fs[f]? = some fr) : fetchFrame f true k s = k fr := by
  simp [fetchFrame, State.frameReadable, hd, hf, hh, h]

/-- What a frame store read can answer: what its continuation makes of a frame that is handed over and in range. -/
theorem fetchFrame_cases {f : Nat} {b : Bool} {k : Frame → Res} {s t : State} (h : fetchFrame f b k s = .next t) :
    s.frameReadable f = true ∧ b = true ∧ s.handedOver = true ∧ ∃ fr, s.fs[f]? = some fr ∧ k fr = .next t := by
  unfold fetchFrame at h
  split at h
  · split at h
    · split at h
      · simp_all
      · cases h
    · cases h
  · cases h

/-! ## Actions -/

/-- What `START` can do: nothing while `BUSY`, or the launch. -/
theorem startCommand_cases {s t : State} (h : startCommand s = .next t) :
    (s.busy = true ∧ t = s) ∨ (s.busy = false ∧ Memory.written s.sb s.streamLen = true ∧ t = s.launch) := by
  unfold startCommand at h
  split at h
  · cases h; exact .inl ⟨‹_›, rfl⟩
  · split at h
    · cases h; exact .inr ⟨by simp_all, ‹_›, rfl⟩
    · cases h

theorem startCommand_accepts {s : State} (hb : s.busy = false) (hw : Memory.written s.sb s.streamLen = true) :
    startCommand s = .next s.launch := by
  simp [startCommand, hb, hw]

/-- What a host action can do: nothing, the launch, a reset, a byte or the length written while not `BUSY`, or a read. -/
theorem hostAct_cases {a : HostAction} {s t : State} (h : hostAct a s = .next t) :
    t = s ∨ (s.busy = false ∧ Memory.written s.sb s.streamLen = true ∧ t = s.launch) ∨ t = s.softReset ∨
      t = s.hardReset ∨ (s.busy = false ∧ ∃ addr v, t = { s with sb := Memory.write s.sb addr v }) ∨
      (s.busy = false ∧ ∃ v, t = { s with streamLen := v % 2 ^ (s.build.cursorW - 3) }) ∨
      ∃ d o n, t = { s with hostData := d, handedOver := o, freeReads := n } ∧
        (o = true → s.handedOver = true ∨ s.phase = .done ∨ s.phase = .error) := by
  cases a with
  | writeSb addr v =>
    simp only [hostAct, hostWriteSb] at h
    split at h
    · cases h
    · cases h; exact .inr (.inr (.inr (.inr (.inl ⟨by simp_all, addr, v, rfl⟩))))
  | writeReg r v =>
    simp only [hostAct] at h
    cases r with
    | ctrl =>
      simp only [hostWriteReg, writeCtrl] at h
      split at h
      · cases h; exact .inr (.inr (.inl rfl))
      · split at h
        · rcases startCommand_cases h with ⟨-, rfl⟩ | h
          · exact .inl rfl
          · exact .inr (.inl h)
        · cases h; exact .inl rfl
    | streamLen =>
      simp only [hostWriteReg, writeStreamLen] at h
      split at h
      · cases h
      · cases h; exact .inr (.inr (.inr (.inr (.inr (.inl ⟨by simp_all, v, rfl⟩)))))
    | status | errcode | errpos | fmt | cmp | len | width | height | frameBits | nframes | remain =>
      cases h; exact .inl rfl
  | readReg r =>
    obtain ⟨-, rfl⟩ := hostReadReg_cases h
    exact .inr (.inr (.inr (.inr (.inr (.inr ⟨_, _, _, rfl, State.handOver_eq_true⟩)))))
  | readPix f y x =>
    obtain ⟨-, -, -, fr, -, h⟩ := fetchFrame_cases h
    split at h
    · cases h; exact .inr (.inr (.inr (.inr (.inr (.inr ⟨_, _, _, rfl, .inl⟩)))))
    · cases h
  | readDurv f =>
    obtain ⟨-, -, -, fr, -, h⟩ := fetchFrame_cases h
    cases h; exact .inr (.inr (.inr (.inr (.inr (.inr ⟨_, _, _, rfl, .inl⟩)))))
  | readDur f =>
    obtain ⟨-, -, -, fr, -, h⟩ := fetchFrame_cases h
    split at h <;> (cases h; exact .inr (.inr (.inr (.inr (.inr (.inr ⟨_, _, _, rfl, .inl⟩))))))
  | reset => cases h; exact .inr (.inr (.inr (.inl rfl)))

end Sys2Proof.Machine
end

