-- ==== Sys2Proof/Laws/PerInstr.lean ====
section
/-! SUPPORT. Statements for all instructions, one lemma per constructor. EncodedWidth: a well formed element is
encoded in exactly the stream bits its row gives it (`30_encoding.md` R91, R92, R104): the width the fetch reads,
and for `PAD` the residue. -/

namespace Sys2Proof.Laws.EncodedWidth

/-- The stream bits of an element: the header formats' 6 + 2L, the other elements' selected width, the residue's length. -/
def rowWidth (c : Ctx) : Instr → Nat
  | .hdrL1 .. => 8
  | .hdrL2 .. => 10
  | .hdrL3 .. => 12
  | .hdrL4 .. => 14
  | .hdrL5 .. => 16
  | .hdrL6 .. => 18
  | .hdrL7 .. => 20
  | .hdrL8 .. => 22
  | .hdrL9 .. => 24
  | .hdrL10 .. => 26
  | .hdrL11 .. => 28
  | .hdrL12 .. => 30
  | .hdrL13 .. => 32
  | .hdrL14 .. => 34
  | .hdrL15 .. => 36
  | .hdrL16 .. => 38
  | .pad n => n
  | .fmt _ | .cmp _ | .len _ | .wm1 _ | .hm1 _ | .pix1 _ | .pix3 _ | .dur _ | .cbyte _ | .hdrCheck | .selRaw | .frameTest
  | .durTest => elementWidth c

/-- A well formed element has as many bits as its row says. -/
def Statement (i : Instr) : Prop :=
  ∀ c : Ctx, wellFormed c i = true → (encode c i).length = rowWidth c i

theorem hdrL1 (f m : Bit) (w h : BitVec 1) : Statement (.hdrL1 f m w h) := fun _ _ => length_headerBits 1 f m w h

theorem hdrL2 (f m : Bit) (w h : BitVec 2) : Statement (.hdrL2 f m w h) := fun _ _ => length_headerBits 2 f m w h

theorem hdrL3 (f m : Bit) (w h : BitVec 3) : Statement (.hdrL3 f m w h) := fun _ _ => length_headerBits 3 f m w h

theorem hdrL4 (f m : Bit) (w h : BitVec 4) : Statement (.hdrL4 f m w h) := fun _ _ => length_headerBits 4 f m w h

theorem hdrL5 (f m : Bit) (w h : BitVec 5) : Statement (.hdrL5 f m w h) := fun _ _ => length_headerBits 5 f m w h

theorem hdrL6 (f m : Bit) (w h : BitVec 6) : Statement (.hdrL6 f m w h) := fun _ _ => length_headerBits 6 f m w h

theorem hdrL7 (f m : Bit) (w h : BitVec 7) : Statement (.hdrL7 f m w h) := fun _ _ => length_headerBits 7 f m w h

theorem hdrL8 (f m : Bit) (w h : BitVec 8) : Statement (.hdrL8 f m w h) := fun _ _ => length_headerBits 8 f m w h

theorem hdrL9 (f m : Bit) (w h : BitVec 9) : Statement (.hdrL9 f m w h) := fun _ _ => length_headerBits 9 f m w h

theorem hdrL10 (f m : Bit) (w h : BitVec 10) : Statement (.hdrL10 f m w h) := fun _ _ => length_headerBits 10 f m w h

theorem hdrL11 (f m : Bit) (w h : BitVec 11) : Statement (.hdrL11 f m w h) := fun _ _ => length_headerBits 11 f m w h

theorem hdrL12 (f m : Bit) (w h : BitVec 12) : Statement (.hdrL12 f m w h) := fun _ _ => length_headerBits 12 f m w h

theorem hdrL13 (f m : Bit) (w h : BitVec 13) : Statement (.hdrL13 f m w h) := fun _ _ => length_headerBits 13 f m w h

theorem hdrL14 (f m : Bit) (w h : BitVec 14) : Statement (.hdrL14 f m w h) := fun _ _ => length_headerBits 14 f m w h

theorem hdrL15 (f m : Bit) (w h : BitVec 15) : Statement (.hdrL15 f m w h) := fun _ _ => length_headerBits 15 f m w h

theorem hdrL16 (f m : Bit) (w h : BitVec 16) : Statement (.hdrL16 f m w h) := fun _ _ => length_headerBits 16 f m w h

theorem fmt (f : Bit) : Statement (.fmt f) := fun c hc => by
  simp_all [wellFormed, encode, rowWidth, elementWidth]

theorem cmp (m : Bit) : Statement (.cmp m) := fun c hc => by
  simp_all [wellFormed, encode, rowWidth, elementWidth]

theorem len (l : BitVec 4) : Statement (.len l) := fun c hc => by
  simp_all [wellFormed, encode, rowWidth, elementWidth]

theorem wm1 (w : BitVec 16) : Statement (.wm1 w) := fun c hc => by
  simp_all [wellFormed, encode, rowWidth, elementWidth]

theorem hm1 (h : BitVec 16) : Statement (.hm1 h) := fun c hc => by
  simp_all [wellFormed, encode, rowWidth, elementWidth]

theorem pix1 (v : Bit) : Statement (.pix1 v) := fun c hc => by
  simp_all [wellFormed, encode, rowWidth, elementWidth]

theorem pix3 (v : Code) : Statement (.pix3 v) := fun c hc => by
  simp_all [wellFormed, encode, rowWidth, elementWidth]

theorem dur (d : Byte) : Statement (.dur d) := fun c hc => by
  simp_all [wellFormed, encode, rowWidth, elementWidth]

theorem cbyte (bytes : List Byte) : Statement (.cbyte bytes) := fun c hc => by
  simp_all [wellFormed, encode, rowWidth, elementWidth, compressedBytes]

theorem pad (n : Nat) : Statement (.pad n) := fun c _ => by
  simp [encode, rowWidth]

theorem hdrCheck : Statement .hdrCheck := fun c hc => by
  simp_all [wellFormed, encode, rowWidth, elementWidth]

theorem selRaw : Statement .selRaw := fun c hc => by
  simp_all [wellFormed, encode, rowWidth, elementWidth]

theorem frameTest : Statement .frameTest := fun c hc => by
  simp_all [wellFormed, encode, rowWidth, elementWidth]

theorem durTest : Statement .durTest := fun c hc => by
  simp_all [wellFormed, encode, rowWidth, elementWidth]

end Sys2Proof.Laws.EncodedWidth
end

