-- ==== Sys2Proof/Tests/Slice0.lean ====
section
/-! SUPPORT. Small tests, each expected result taken from the spec (vectors V<n> and programs P<n> of
`95_test_vectors.md`, or a word written out from `30_encoding.md` R92), and a witness for the hypotheses of every
obligation that has any. -/

namespace Sys2Proof.Tests

open Sys2Proof.Machine

/-! ## Helpers -/

/-- What a property says of a next state; false where there is none. -/
def after (r : Res) (p : State → Bool) : Bool :=
  match r with
  | .next t => p t
  | .fault _ | .refused _ => false

/-- The refusal of a result. -/
def refusal (r : Res) : Option Refusal :=
  match r with
  | .refused f => some f
  | .next _ | .fault _ => none

/-- The element a decoding begins with. -/
def first (r : Except Reject (Instr × List Bool)) : Option Instr :=
  match r with
  | .ok (i, _) => some i
  | .error _ => none

/-- A stream just launched. -/
def stream (bytes : List Byte) : State :=
  State.launch { State.reset with sb := Memory.ofBytes bytes, streamLen := bytes.length }

/-- A stream just launched, its header to be taken whole. -/
def whole (bytes : List Byte) : State :=
  { stream bytes with build := { Config.defaultBuild with grain := .wholeHeader } }

/-- A stream in a sequencer state, the cursor at a bit. -/
def mid (p : Phase) (bytes : List Byte) (cur : Nat) : State :=
  { stream bytes with phase := p, cur := cur }

/-- What the header registers and the cursor hold. -/
def header (s : State) : Nat × Nat × Nat × Nat × Nat × Nat × Nat :=
  (s.fmt.toNat, s.cmp.toNat, s.len.toNat, s.width.toNat, s.height.toNat, s.frameBits.toNat, s.cur)

/-- The header registers after one whole-header step, `STATE` at `P_SELECT`. -/
def headerAfter (bytes : List Byte) (r : Nat × Nat × Nat × Nat × Nat × Nat × Nat) : Bool :=
  after (step (whole bytes)) fun t => decide (t.phase = .pSelect) && decide (header t = r)

/-- An error entry: `ERRCODE`, `ERRPOS`, `STATUS` and the cleared results (R258). -/
def raised (e : ErrCode) (pos : Nat) (t : State) : Bool :=
  decide (t.errcode = e) && decide (t.errpos = pos) && decide (t.status = 0xD4) &&
    decide (header t = (0, 0, 0, 0, 0, 0, 0)) && decide (t.nframes = 0) && decide (t.limit = 0)

/-- A 2 x 2 stream of three bytes with one frame `[0,1,1,0]` of 25 ticks: the payload's states below. -/
def sample (p : Phase) (f c : Bit) (cur : Nat) (fs : List Frame) : State :=
  { mid p [if f = 1 then 0x83 else 0x03, 0x61, 0x90] cur with
    fmt := f, cmp := c, width := 2, height := 2, frameBits := BitVec.ofNat 34 (4 * pixelBits f), fs := fs }

/-- The frame of `sample`. -/
def frame0 (dur : Option Byte) : Frame := { pix := [0, 1, 1, 0], dur := dur }

/-- The context of a state that takes no whole header. -/
def ctxAt (p : Phase) (f c : Bit) (len : BitVec 4) (rem : Nat) : Ctx :=
  { phase := p, fmt := f, cmp := c, len := len, whole := false, rem := rem, skip := 0 }

/-! ## WellFormed: each check refuses an ill formed element -/

/-- The state selects the element (R104): an element of another state is refused. -/
theorem test_wf_phase :
    wellFormed (ctxAt .hCmp 0 0 0 8) (.fmt 0) = false ∧ wellFormed (ctxAt .hFmt 0 0 0 8) (.cmp 0) = false ∧
    wellFormed (ctxAt .hFmt 0 0 0 8) (.len 0) = false ∧ wellFormed (ctxAt .hHeight 0 0 0 8) (.wm1 0) = false ∧
    wellFormed (ctxAt .hWidth 0 0 0 8) (.hm1 0) = false ∧ wellFormed (ctxAt .dRead 0 0 0 8) (.pix1 0) = false ∧
    wellFormed (ctxAt .dRead 1 0 0 8) (.pix3 0) = false ∧ wellFormed (ctxAt .dTest 0 0 0 8) (.dur 0) = false ∧
    wellFormed (ctxAt .fTest 0 1 0 8) (.cbyte [0]) = false ∧ wellFormed (ctxAt .fTest 0 0 0 8) (.pad 8) = false ∧
    wellFormed (ctxAt .hHeight 0 0 0 8) .hdrCheck = false ∧ wellFormed (ctxAt .fTest 0 0 0 8) .selRaw = false ∧
    wellFormed (ctxAt .done 0 0 0 8) .frameTest = false ∧ wellFormed (ctxAt .dRead 0 0 0 8) .durTest = false ∧
    wellFormed { headerCtx with phase := .hCmp } (.hdrL1 0 0 0 0) = false := by decide

/-- A whole header only where a header is taken whole, its first field only where it is not. -/
theorem test_wf_whole :
    wellFormed (ctxAt .hFmt 0 0 0 38) (.hdrL16 0 0 0 0) = false ∧ wellFormed headerCtx (.fmt 0) = false ∧
    wellFormed headerCtx (.hdrL16 0 0 0 0) = true := by decide

/-- A dimension field has `L` bits (R97): 255 fits `L = 8`, 256 does not. -/
theorem test_wf_dimension :
    wellFormed (ctxAt .hWidth 0 0 7 8) (.wm1 255) = true ∧ wellFormed (ctxAt .hWidth 0 0 7 8) (.wm1 256) = false ∧
    wellFormed (ctxAt .hHeight 0 0 7 8) (.hm1 256) = false := by decide

/-- The format selects the pixel element, the compression flag the payload (R104). -/
theorem test_wf_flags :
    wellFormed (ctxAt .fPixel 1 0 0 8) (.pix1 0) = false ∧ wellFormed (ctxAt .fPixel 0 0 0 8) (.pix3 0) = false ∧
    wellFormed (ctxAt .pSelect 0 0 0 8) (.cbyte [0]) = false ∧ wellFormed (ctxAt .pSelect 0 1 0 8) .selRaw = false := by
  decide

/-- Every whole byte is lifted (R202); the residue is every unread bit (R102). -/
theorem test_wf_counts :
    wellFormed (ctxAt .pSelect 0 1 0 30) (.cbyte [1, 2]) = false ∧
    wellFormed (ctxAt .pSelect 0 1 0 30) (.cbyte [1, 2, 3]) = true ∧
    wellFormed (ctxAt .done 0 0 0 6) (.pad 5) = false := by decide

/-! ## Decode: a word of every row, written out from the spec's encoding of it -/

/-- `HDR_L1`: `fc0000wh` (V21, V22). -/
theorem test_decode_hdrL1 :
    first (decodeBytes headerCtx [0x03]) = some (.hdrL1 0 0 1 1) ∧
    first (decodeBytes headerCtx [0x83]) = some (.hdrL1 1 0 1 1) := by decide

/-- `HDR_L2` (V23, V29b). -/
theorem test_decode_hdrL2 :
    first (decodeBytes headerCtx [0x06, 0x40]) = some (.hdrL2 0 0 2 1) ∧
    first (decodeBytes headerCtx [0xC6, 0x40]) = some (.hdrL2 1 1 2 1) := by decide

/-- `HDR_L3`: `0 0 0010 100 010` (V24). -/
theorem test_decode_hdrL3 : first (decodeBytes headerCtx [0x0A, 0x20]) = some (.hdrL3 0 0 4 2) := by decide

/-- `HDR_L4`: `1 0 0011 1111 1111` (V3). -/
theorem test_decode_hdrL4 : first (decodeBytes headerCtx [0x8F, 0xFC]) = some (.hdrL4 1 0 15 15) := by decide

/-- `HDR_L5`: `1 0 0100 10001 00011`. -/
theorem test_decode_hdrL5 : first (decodeBytes headerCtx [0x92, 0x23]) = some (.hdrL5 1 0 17 3) := by decide

/-- `HDR_L6`: `0 1 0101 100000 000001`. -/
theorem test_decode_hdrL6 : first (decodeBytes headerCtx [0x56, 0x00, 0x40]) = some (.hdrL6 0 1 32 1) := by decide

/-- `HDR_L7`: `1 0 0110 1000000 0000001`. -/
theorem test_decode_hdrL7 : first (decodeBytes headerCtx [0x9A, 0x00, 0x10]) = some (.hdrL7 1 0 64 1) := by decide

/-- `HDR_L8`: `0 0 0111 11111110 11111110` (V25). -/
theorem test_decode_hdrL8 : first (decodeBytes headerCtx [0x1F, 0xFB, 0xF8]) = some (.hdrL8 0 0 254 254) := by decide

/-- `HDR_L9`: `0 0 1000 100000000 000000000` (V27). -/
theorem test_decode_hdrL9 : first (decodeBytes headerCtx [0x22, 0x00, 0x00]) = some (.hdrL9 0 0 256 0) := by decide

/-- `HDR_L10`: `0 0 1001 1000000000 0000000001`. -/
theorem test_decode_hdrL10 :
    first (decodeBytes headerCtx [0x26, 0x00, 0x00, 0x40]) = some (.hdrL10 0 0 512 1) := by decide

/-- `HDR_L11`: `0 0 1010 10000000000 00000000010`. -/
theorem test_decode_hdrL11 :
    first (decodeBytes headerCtx [0x2A, 0x00, 0x00, 0x20]) = some (.hdrL11 0 0 1024 2) := by decide

/-- `HDR_L12`: `1 1 1011 100000000000 000000000001`. -/
theorem test_decode_hdrL12 :
    first (decodeBytes headerCtx [0xEE, 0x00, 0x00, 0x04]) = some (.hdrL12 1 1 2048 1) := by decide

/-- `HDR_L13`: `0 0 1100 1000000000000 0000000000001`. -/
theorem test_decode_hdrL13 :
    first (decodeBytes headerCtx [0x32, 0x00, 0x00, 0x01]) = some (.hdrL13 0 0 4096 1) := by decide

/-- `HDR_L14`: `0 0 1101 10000000000000 00000000000001`. -/
theorem test_decode_hdrL14 :
    first (decodeBytes headerCtx [0x36, 0x00, 0x00, 0x00, 0x40]) = some (.hdrL14 0 0 8192 1) := by decide

/-- `HDR_L15`: `0 0 1110 100000000000000 000000000000001`. -/
theorem test_decode_hdrL15 :
    first (decodeBytes headerCtx [0x3A, 0x00, 0x00, 0x00, 0x10]) = some (.hdrL15 0 0 16384 1) := by decide

/-- `HDR_L16` (V28, V29). -/
theorem test_decode_hdrL16 :
    first (decodeBytes headerCtx [0xBF, 0xFF, 0xFF, 0xFF, 0xFC]) = some (.hdrL16 1 0 0xFFFF 0xFFFF) ∧
    first (decodeBytes headerCtx [0x3C, 0x00, 0x04, 0x00, 0x04]) = some (.hdrL16 0 0 1 1) := by decide

/-- The header fields one by one: `FMT` `1`, `CMP` `1`, `LEN` `0111`, eight ones, eight zeros (R91, R142 to R144). -/
theorem test_decode_fields :
    first (decode (ctxAt .hFmt 0 0 0 8) [true]) = some (.fmt 1) ∧
    first (decode (ctxAt .hCmp 0 0 0 8) [true]) = some (.cmp 1) ∧
    first (decode (ctxAt .hLen 0 0 0 8) [false, true, true, true]) = some (.len 7) ∧
    first (decode (ctxAt .hWidth 0 0 7 8) [true, true, true, true, true, true, true, true]) = some (.wm1 255) ∧
    first (decode (ctxAt .hHeight 0 0 1 8) [false, true]) = some (.hm1 1) := by decide

/-- `PIX1` `1` (V32), `PIX3` `110` is code 6 (V31), `DUR` `00011001` is 25 (R175). -/
theorem test_decode_payload :
    first (decode (ctxAt .fPixel 0 0 0 8) [true]) = some (.pix1 1) ∧
    first (decode (ctxAt .fPixel 1 0 0 8) [true, true, false]) = some (.pix3 6) ∧
    first (decode (ctxAt .dRead 0 0 0 8) [false, false, false, true, true, false, false, true]) = some (.dur 25) := by
  decide

/-- `CBYTE`: bits 10 to 33 of `C6 62 39 D0 00` are `88 E7 40` (V15, V80); `PAD`: the residue. -/
theorem test_decode_compressed :
    first (decode (ctxAt .pSelect 1 1 1 30) ((bitsOfBytes [0xC6, 0x62, 0x39, 0xD0, 0x00]).drop 10)) =
      some (.cbyte [0x88, 0xE7, 0x40]) ∧
    first (decode (ctxAt .done 1 0 0 4) [true, false, false, false]) = some (.pad 4) := by decide

/-- The operations without bits are selected by `STATE` and `CMP` (R104). -/
theorem test_decode_no_bits :
    first (decode (ctxAt .hCheck 0 0 0 8) []) = some .hdrCheck ∧ first (decode (ctxAt .pSelect 0 0 0 8) []) = some .selRaw ∧
    first (decode (ctxAt .fTest 0 0 0 8) []) = some .frameTest ∧
    first (decode (ctxAt .dTest 0 0 0 8) []) = some .durTest := by decide

/-- Too few bits, and the states without an element, are rejected by name. -/
theorem test_decode_rejects :
    decode (ctxAt .hLen 0 0 0 8) [true] = .error (.short 4 1) ∧ decode (ctxAt .idle 0 0 0 8) [true] = .error .noElement ∧
    decodeBytes headerCtx [0x3C] = .error (.short 38 8) := by decide

/-- The encoder writes the same words (V46, V47, V49). -/
theorem test_encode :
    encode headerCtx (.hdrL2 1 1 2 1) = [true, true, false, false, false, true, true, false, false, true] ∧
    encode (ctxAt .fPixel 1 0 0 8) (.pix3 6) = [true, true, false] ∧
    finishBytes (encode headerCtx (.hdrL16 0 0 0xFFFF 0)) = [0x3F, 0xFF, 0xFC, 0x00, 0x00] := by decide

/-! ## One step of every element -/

/-- V20, V22. -/
theorem test_hdrL1 : headerAfter [0x00] (0, 0, 0, 1, 1, 1, 8) ∧ headerAfter [0x83] (1, 0, 0, 2, 2, 12, 8) := by decide
/-- V23, V29b. -/
theorem test_hdrL2 :
    headerAfter [0x06, 0x40] (0, 0, 1, 3, 2, 6, 10) ∧ headerAfter [0xC6, 0x40] (1, 1, 1, 3, 2, 18, 10) := by decide
/-- V24, V29a. -/
theorem test_hdrL3 :
    headerAfter [0x0A, 0x20] (0, 0, 2, 5, 3, 15, 12) ∧ headerAfter [0x08, 0x96] (0, 0, 2, 2, 2, 4, 12) := by decide
/-- V3, 16 x 16, both formats. -/
theorem test_hdrL4 :
    headerAfter [0x0F, 0xFC] (0, 0, 3, 16, 16, 256, 14) ∧ headerAfter [0x8F, 0xFC] (1, 0, 3, 16, 16, 768, 14) := by decide
/-- 18 x 4, EightColor (R92 by hand, as the six below). -/
theorem test_hdrL5 : headerAfter [0x92, 0x23] (1, 0, 4, 18, 4, 216, 16) := by decide
theorem test_hdrL6 : headerAfter [0x56, 0x00, 0x40] (0, 1, 5, 33, 2, 66, 18) := by decide
theorem test_hdrL7 : headerAfter [0x9A, 0x00, 0x10] (1, 0, 6, 65, 2, 390, 20) := by decide
/-- V25, V26. -/
theorem test_hdrL8 :
    headerAfter [0x1F, 0xFB, 0xF8] (0, 0, 7, 255, 255, 65025, 22) ∧
    headerAfter [0x1F, 0xFF, 0xFC] (0, 0, 7, 256, 256, 65536, 22) := by decide
/-- V27. -/
theorem test_hdrL9 : headerAfter [0x22, 0x00, 0x00] (0, 0, 8, 257, 1, 257, 24) := by decide
theorem test_hdrL10 : headerAfter [0x26, 0x00, 0x00, 0x40] (0, 0, 9, 513, 2, 1026, 26) := by decide
theorem test_hdrL11 : headerAfter [0x2A, 0x00, 0x00, 0x20] (0, 0, 10, 1025, 3, 3075, 28) := by decide
theorem test_hdrL12 : headerAfter [0xEE, 0x00, 0x00, 0x04] (1, 1, 11, 2049, 2, 12294, 30) := by decide
theorem test_hdrL13 : headerAfter [0x32, 0x00, 0x00, 0x01] (0, 0, 12, 4097, 2, 8194, 32) := by decide
theorem test_hdrL14 : headerAfter [0x36, 0x00, 0x00, 0x00, 0x40] (0, 0, 13, 8193, 2, 16386, 34) := by decide
theorem test_hdrL15 : headerAfter [0x3A, 0x00, 0x00, 0x00, 0x10] (0, 0, 14, 16385, 2, 32770, 36) := by decide
/-- V28, the largest of everything; V29. -/
theorem test_hdrL16 :
    headerAfter [0xBF, 0xFF, 0xFF, 0xFF, 0xFC] (1, 0, 15, 65536, 65536, 12884901888, 38) ∧
    headerAfter [0x3C, 0x00, 0x04, 0x00, 0x04] (0, 0, 15, 2, 2, 4, 38) := by decide

/-- P2 step 1; V50. -/
theorem test_fmt :
    after (step (stream [0x83, 0x05])) (fun t => t.fmt == 1 && t.cur == 1 && decide (t.phase = .hCmp)) ∧
    after (step (stream [])) (raised .truncatedStream 0) := by decide

/-- P3 step 2. -/
theorem test_cmp :
    after (step (mid .hCmp [0xC6, 0x62] 1)) (fun t => t.cmp == 1 && t.cur == 2 && decide (t.phase = .hLen)) := by decide

/-- P4 step 3; R142's example. -/
theorem test_len :
    after (step (mid .hLen [0x3F, 0xFF, 0xFF, 0xFF] 2)) (fun t => t.len == 15 && t.cur == 6) ∧
    after (step (mid .hLen [0x1F, 0xFC] 2)) (fun t => t.len == 7 && t.cur == 6 && decide (t.phase = .hWidth)) := by decide

/-- P4 step 4: 65536 in 17 bits; V51. -/
theorem test_wm1 :
    after (step { mid .hWidth [0x3F, 0xFF, 0xFF, 0xFF] 6 with len := 15 })
      (fun t => decide (t.width.toNat = 65536) && t.cur == 22 && decide (t.phase = .hHeight)) ∧
    after (step { mid .hWidth [0x3C] 6 with len := 15 }) (raised .truncatedStream 6) := by decide

/-- R144's example; P4 step 5, the width read before it cleared. -/
theorem test_hm1 :
    after (step { mid .hHeight [0x1F, 0xFC, 0x00] 14 with len := 7, width := 256 })
      (fun t => decide (t.height.toNat = 1) && t.cur == 22 && decide (t.phase = .hCheck)) ∧
    after (step { mid .hHeight [0x3F, 0xFF, 0xFF, 0xFF] 22 with len := 15, width := 65536 })
      (raised .truncatedStream 22) := by decide

/-- R145's largest product, and its example. -/
theorem test_hdrCheck :
    after (step { mid .hCheck [0xBF] 8 with fmt := 1, width := 65536, height := 65536 })
      (fun t => decide (t.frameBits.toNat = 12884901888) && decide (t.phase = .pSelect)) ∧
    after (step { mid .hCheck [0xC6] 8 with fmt := 1, width := 3, height := 2 })
      (fun t => decide (t.frameBits.toNat = 18) && t.cur == 8) := by decide

/-- P1 step 7. -/
theorem test_selRaw :
    after (step (mid .pSelect [0x03, 0x60] 8))
      (fun t => decide (t.phase = .fTest) && t.cur == 8 && t.limit == 16 && decide (t.src = .sb)) := by decide

/-- P3 step 7, the answer of an identity `Inflate`; its failing twin, `ERRPOS = 10` (V81). -/
theorem test_cbyte :
    after (takeInflated (some [0x88, 0xE7, 0x40]) { mid .pSelect [0xC6, 0x62, 0x39, 0xD0, 0x00] 10 with cmp := 1, len := 1 })
      (fun t => decide (t.ib = [(0, 0x88), (1, 0xE7), (2, 0x40)]) && decide (t.src = .ib) && t.cur == 0 && t.limit == 24) ∧
    after (takeInflated none { mid .pSelect [0xC6, 0x62, 0x39, 0xD0, 0x00] 10 with cmp := 1, len := 1 })
      (raised .inflateFault 10) := by decide

/-- What the step hands to `Inflate`: V86 and, under `byte_aligned`, V85. -/
theorem test_cbyte_operand :
    ({ mid .pSelect [0xC6, 0x40, 0x88, 0xE7, 0x40] 10 with cmp := 1, len := 1 } : State).fetch =
      some (.cbyte [0x02, 0x23, 0x9D]) ∧
    ({ mid .pSelect [0xC6, 0x40, 0x88, 0xE7, 0x40] 10 with
        cmp := 1, len := 1, build := { Config.defaultBuild with payloadAlign := .byteAligned } } : State).fetch =
      some (.cbyte [0x88, 0xE7, 0x40]) := by decide

/-- P1 step 8 begins a zero-valued frame; P1 step 20 stops. -/
theorem test_frameTest :
    after (step { mid .fTest [0x03, 0x60] 8 with width := 2, height := 2, frameBits := 4 })
      (fun t => decide (t.phase = .fPixel) && decide (t.fs = [{ pix := [0, 0, 0, 0], dur := none }]) && t.nframes == 0) ∧
    after (step { mid .fTest [0x03, 0x60] 16 with width := 2, height := 2, frameBits := 4, nframes := 2 })
      (fun t => decide (t.phase = .done) && t.status == 0xC2) := by decide

/-- V57: the fourth frame of a store of three, `ERRPOS = 11`. -/
theorem test_frameTest_capacity :
    after (step { mid .fTest [0x00, 0x80] 11 with
        width := 1, height := 1, frameBits := 1, nframes := 3, fs := List.replicate 3 (zeroFrame 1)
        build := { Config.defaultBuild with maxFrames := some 3 } }) (raised .capacityExceeded 11) := by decide

/-- P1 step 11: `pix[0][1][0] <- 1`; step 12 is the frame's last pixel. -/
theorem test_pix1 :
    after (step { mid .fPixel [0x03, 0x60] 10 with
        width := 2, height := 2, frameBits := 4, y := 1, fs := [{ pix := [0, 1, 0, 0], dur := none }] })
      (fun t => decide (t.fs = [{ pix := [0, 1, 1, 0], dur := none }]) && t.x == 1 && t.y == 1 && t.cur == 11) ∧
    after (step { mid .fPixel [0x03, 0x60] 11 with
        width := 2, height := 2, frameBits := 4, x := 1, y := 1, fs := [{ pix := [0, 1, 1, 0], dur := none }] })
      (fun t => decide (t.phase = .dTest) && t.cur == 12) := by decide

/-- P2 step 11: the code at bit 14 straddles two bytes (V13) and goes to row 1; step 10 ends row 0. -/
theorem test_pix3 :
    after (step { mid .fPixel [0x83, 0x05, 0x30] 14 with
        fmt := 1, width := 2, height := 2, frameBits := 12, y := 1, fs := [{ pix := [0, 1, 0, 0], dur := none }] })
      (fun t => decide (t.fs = [{ pix := [0, 1, 2, 0], dur := none }]) && t.cur == 17) ∧
    after (step { mid .fPixel [0x83, 0x05, 0x30] 11 with
        fmt := 1, width := 2, height := 2, frameBits := 12, x := 1, fs := [{ pix := [0, 0, 0, 0], dur := none }] })
      (fun t => decide (t.fs = [{ pix := [0, 1, 0, 0], dur := none }]) && t.x == 0 && t.y == 1) := by decide

/-- Exactly 8 bits take the duration branch (R174); P1 step 13. -/
theorem test_durTest :
    after (step (mid .dTest [0x03, 0x60] 8)) (fun t => decide (t.phase = .dRead) && t.nframes == 0) ∧
    after (step (mid .dTest [0x03, 0x60] 12)) (fun t => decide (t.phase = .fTest) && t.nframes == 1 && t.cur == 12) := by
  decide

/-- P2 step 21: frame 1 gets 25 ticks; V9: the absorbed duration 3. -/
theorem test_dur :
    after (step { mid .dRead [0x83, 0x05, 0x30, 0xA9, 0x77, 0x19, 0xE3, 0x80, 0x00] 40 with
        fmt := 1, width := 2, height := 2, frameBits := 12, nframes := 1, fs := [frame0 (some 10), frame0 none] })
      (fun t => decide (duration t.fs 1 = some 25) && decide (duration t.fs 0 = some 10) && t.nframes == 2 && t.cur == 48) ∧
    after (step { mid .dRead [0x07, 0xE5, 0x9A, 0x40, 0xFF] 26 with fs := [frame0 none] })
      (fun t => decide (duration t.fs 0 = some 3) && t.cur == 34) := by decide

/-- P2's residue `0000`: in `DONE` the step changes nothing. -/
theorem test_pad :
    (mid .done [0x83, 0x05] 12).fetch = some (.pad 4) ∧
    after (step (mid .done [0x83, 0x05] 12)) (fun t => decide (t = mid .done [0x83, 0x05] 12)) := by decide

/-! ## The host -/

/-- V90, V91. -/
theorem test_start :
    after (hostAct (.readReg .status) State.reset) (fun t => decide (t.hostData = some 0)) ∧
    after (hostAct (.writeReg .ctrl 1) { State.reset with sb := [(0, 0x03), (1, 0x60)], streamLen := 2 })
      (fun t => t.status == 0x11 && t.cur == 0 && t.limit == 16 && decide (t.src = .sb)) := by decide

/-- V95, V96: `SRST` keeps `STREAM_LEN`; with both bits, `SRST` acts. -/
theorem test_softReset :
    after (hostAct (.writeReg .ctrl 2) { sample .fPixel 1 0 8 [frame0 none] with nframes := 1 })
      (fun t => t.status == 0 && t.streamLen == 3 && t.nframes == 0 && decide (header t = (0, 0, 0, 0, 0, 0, 0))) ∧
    after (hostAct (.writeReg .ctrl 3) (sample .fPixel 1 0 8 [frame0 none])) (fun t => decide (t.phase = .idle)) := by
  decide

/-- V94, V99. -/
theorem test_busy :
    after (hostAct (.writeReg .ctrl 1) (sample .fTest 0 0 8 [])) (fun t => decide (t = sample .fTest 0 0 8 [])) ∧
    refusal (hostAct (.writeReg .streamLen 5) (sample .fTest 0 0 8 [])) = some .hostWriteWhileBusy ∧
    refusal (hostAct (.writeSb 0 5) (sample .fTest 0 0 8 [])) = some .hostWriteWhileBusy ∧
    refusal (hostAct (.readReg .nframes) (sample .fTest 0 0 8 [])) = some .hostReadWhileBusy := by decide

/-- A run just ended in `DONE` with one frame. -/
def ended (dur : Option Byte) : State :=
  { sample .done 0 0 20 [frame0 dur] with nframes := 1 }

/-- V97's and V98's shape, on one frame, handed over; out of range is refused (R213). -/
theorem test_fetchResults :
    after (hostAct (.readPix 0 1 0) { ended (some 25) with handedOver := true }) (fun t => decide (t.hostData = some 1)) ∧
    after (hostAct (.readDur 0) { ended (some 25) with handedOver := true }) (fun t => decide (t.hostData = some 25)) ∧
    after (hostAct (.readDurv 0) { ended none with handedOver := true }) (fun t => decide (t.hostData = some 0)) ∧
    after (hostAct (.readReg .nframes) { ended none with handedOver := true }) (fun t => decide (t.hostData = some 1)) ∧
    refusal (hostAct (.readPix 0 2 0) { ended none with handedOver := true }) = some .frameStoreRead := by decide

/-- R286: before a `STATUS` read has returned `DONE` (0xC2) a result is refused; that read hands it over, a poll while
busy does not, and `START` takes it back. -/
theorem test_handOver :
    refusal (hostAct (.readReg .nframes) (ended none)) = some .hostReadBeforePoll ∧
    refusal (hostAct (.readPix 0 0 0) (ended none)) = some .hostReadBeforePoll ∧
    refusal (hostAct (.readReg .errcode) ((stream []).raise .truncatedStream 0)) = some .hostReadBeforePoll ∧
    after (hostAct (.readReg .status) (ended none)) (fun t => decide (t.hostData = some 0xC2) && t.handedOver) ∧
    after (hostAct (.readReg .status) (stream [0x03])) (fun t => decide (t.hostData = some 0x11) && !t.handedOver) ∧
    after (hostAct (.writeReg .ctrl 1) { ended none with handedOver := true }) (fun t => !t.handedOver) := by decide

/-- `START` over a byte never written (R213, R282). -/
theorem test_unwritten :
    refusal (hostAct (.writeReg .ctrl 1) { State.reset with sb := [(0, 0x03)], streamLen := 2 }) =
      some .launchOverUnwritten := by decide

/-! ## Big-step functions and the encoder -/

/-- V27, V53, V55. -/
theorem test_parseHeader :
    (parseHeader [0x22, 0x00, 0x00]).toOption.map (fun h => (h.width, h.height, h.frameBits, h.cur)) =
      some (257, 1, 257, 24) ∧
    parseHeader [0x3F, 0xFF, 0xFF, 0xFF] = .error (.truncatedStream, 22) ∧
    parseHeader [0x08] = .error (.truncatedStream, 6) := by decide

/-- V62, the phantom frame, and V71 (payload bits after the header). -/
theorem test_decodeFrames :
    decodeFrames none 1 4 (bitsOfBytes [0x60]) =
      some ([{ pix := [0, 1, 1, 0], dur := none }, { pix := [0, 0, 0, 0], dur := none }], []) ∧
    (decodeFrames none 1 1 (bitsOfBytes [0x80, 0x00])).map (fun r => (r.1.length, (r.1.map Frame.dur).head?)) =
      some (8, some (some 0)) := by decide

/-- The table of R180: `R0 = 100`, `P = 7` and `R0 = 11`, `P = 4`. -/
theorem test_closedForm :
    (framesWithDuration 100 7, framesWithout 100 7, residueBits 100 7) = (6, 1, 3) ∧
    (framesWithDuration 11 4, framesWithout 11 4, residueBits 11 4) = (0, 2, 3) := by decide

/-- V40 (the duration of a single frame is not written) and V42. -/
theorem test_encodeImage :
    encodeImage id .bitAdjacent { fmt := 0, width := 2, height := 2, frames := [{ pix := [0, 1, 1, 0], ticks := some 77 }] }
      false = some [0x03, 0x60] ∧
    encodeImage id .bitAdjacent { fmt := 1, width := 1, height := 1, frames := [{ pix := [5], ticks := none }] } false =
      some [0x80, 0xA0] := by decide

/-- V46, compressed with an identity `Deflate`, and the `byte_aligned` stream of R203. -/
theorem test_encodeImage_compressed :
    encodeImage id .bitAdjacent { fmt := 1, width := 3, height := 2, frames := [{ pix := [4, 2, 1, 6, 3, 5], ticks := none }] }
      true = some [0xC6, 0x62, 0x39, 0xD0, 0x00] ∧
    encodeImage id .byteAligned { fmt := 1, width := 3, height := 2, frames := [{ pix := [4, 2, 1, 6, 3, 5], ticks := none }] }
      true = some [0xC6, 0x40, 0x88, 0xE7, 0x40] := by decide

/-- V2: durations of 100, 250 and 0 ms are the ticks 10, 25 and 0. -/
theorem test_ticksOfMs : [100, 250, 0].map ticksOfMs = [some 10, some 25, some 0] ∧ ticksOfMs 15 = none := by decide

/-- V68 and V53 as observations (R218). -/
theorem test_observe :
    observe { sample .done 0 0 20 [frame0 (some 25)] with nframes := 1 } =
      some (.image 0 0 0 2 2 1 [frame0 (some 25)] 4) ∧
    observe ((stream [0x3F, 0xFF, 0xFF, 0xFF]).raise .truncatedStream 22) = some (.failed .truncatedStream 22) ∧
    observe (stream [0x03]) = none := by decide

/-- A table word placed after reset is the element of the very next step (V21 as a word of `HDR_L1`). -/
theorem test_fetchWord :
    decodeTableWord 8 0b00000011 = some (.hdrL1 0 0 1 1) ∧
    (State.reset.withFetchWord 8 0b00000011).fetch = some (.hdrL1 0 0 1 1) := by decide

/-! ## Witnesses: for every obligation with hypotheses, concrete data that meets all of them together -/

/-- The invariants in a form that is decided, the source being `n` bytes. -/
def invCheck (s : State) (n : Nat) : Bool :=
  decide (s.cur ≤ s.limit ∧ s.limit < 2 ^ s.build.cursorW ∧ 8 * s.streamLen < 2 ^ s.build.cursorW ∧
      s.errpos < 2 ^ s.build.cursorW) &&
    decide (s.errcode ≠ .none ↔ s.phase = .error) &&
    decide ((s.phase ≠ .idle ∧ s.phase ≠ .error) ∧ (s.handedOver = true → s.phase = .done ∨ s.phase = .error)) &&
    decide (∀ k ∈ headerCursor s.dimBits s.phase, s.src = .sb ∧ s.cur = k ∧ s.nframes = 0) &&
    decide (1 ≤ s.width.toNat ∧ s.width.toNat ≤ 65536 ∧ s.width.toNat ≤ 2 ^ (s.len.toNat + 1)) &&
    decide (1 ≤ s.height.toNat ∧ s.height.toNat ≤ 65536 ∧ s.height.toNat ≤ 2 ^ (s.len.toNat + 1)) &&
    decide (s.frameBits.toNat = s.width.toNat * s.height.toNat * pixelBits s.fmt) &&
    decide (s.phase = .fPixel → s.x.toNat < s.width.toNat ∧ s.y.toNat < s.height.toNat ∧
      pixelBits s.fmt * (s.width.toNat * (s.height.toNat - s.y.toNat) - s.x.toNat) ≤ s.remaining) &&
    decide (s.phase = .dRead → 8 ≤ s.remaining) && decide (s.phase = .done → s.remaining < s.frameBits.toNat) &&
    decide (s.src = .ib → s.cmp = 1) && decide (s.fs.length = s.nframes + (inFrame s.phase).toNat) &&
    decide (s.nframes + (frameRead s.phase).toNat ≤ s.cur) &&
    decide (∀ fr ∈ s.fs, fr.pix.length = s.width.toNat * s.height.toNat) &&
    decide (s.fmt = 0 → ∀ fr ∈ s.fs, ∀ c ∈ fr.pix, c.toNat ≤ 1) &&
    decide (Memory.wf s.sb) && decide (Memory.wf s.ib) &&
    decide (s.limit = 8 * n ∧ Memory.written s.source n = true ∧ (s.src = .sb → n = s.streamLen))

theorem inv_of_check {s : State} {n : Nat} (h : invCheck s n = true) : Inv s := by
  simp only [invCheck, Bool.and_eq_true, decide_eq_true_eq] at h
  obtain ⟨⟨⟨⟨⟨⟨⟨⟨⟨⟨⟨⟨⟨⟨⟨⟨⟨h1, h2⟩, h3, ho⟩, h4⟩, h5⟩, h6⟩, h7⟩, h8⟩, h9⟩, h10⟩, h11⟩, h12⟩, h13⟩, h14⟩, h15⟩, h16⟩, h17⟩, h18⟩ := h
  exact {
    cur_le_limit := h1.1, limit_fits := h1.2.1, streamLen_fits := h1.2.2.1, errpos_fits := h1.2.2.2, error_iff := h2
    quiet := fun hq => absurd hq (not_or.2 h3)
    header_place := fun k hk => h4 k hk
    width_read := fun _ => h5, height_read := fun _ => h6, header_known := fun _ => ⟨h5, h6, h7⟩
    pixel_left := h8, duration_left := h9, residue_short := h10
    source_compressed := h11
    frame_count := h12, nframes_le := h13, frame_full := h14, mono_codes := h15, handed_over := ho, sb_wf := h16, ib_wf := h17
    source_readable := fun _ => ⟨n, h18.1, h18.2.1, h18.2.2⟩ }

/-- Every constructor in a context that selects it, operands at their greatest. -/
theorem witness_DecodeInvertsEncode :
    [Instr.hdrL1 1 1 1 1, .hdrL2 1 1 3 3, .hdrL3 1 1 7 7, .hdrL4 1 1 15 15, .hdrL5 1 1 31 31, .hdrL6 1 1 63 63,
      .hdrL7 1 1 127 127, .hdrL8 1 1 255 255, .hdrL9 1 1 511 511, .hdrL10 1 1 1023 1023, .hdrL11 1 1 2047 2047,
      .hdrL12 1 1 4095 4095, .hdrL13 1 1 8191 8191, .hdrL14 1 1 16383 16383, .hdrL15 1 1 32767 32767,
      .hdrL16 1 1 65535 65535].all (wellFormed headerCtx) = true ∧
    wellFormed (ctxAt .hFmt 0 0 0 1) (.fmt 1) = true ∧ wellFormed (ctxAt .hCmp 0 0 0 1) (.cmp 1) = true ∧
    wellFormed (ctxAt .hLen 0 0 0 4) (.len 15) = true ∧ wellFormed (ctxAt .hWidth 0 0 15 16) (.wm1 65535) = true ∧
    wellFormed (ctxAt .hHeight 0 0 0 1) (.hm1 1) = true ∧ wellFormed (ctxAt .hCheck 0 0 0 0) .hdrCheck = true ∧
    wellFormed (ctxAt .pSelect 0 0 0 0) .selRaw = true ∧ wellFormed (ctxAt .pSelect 0 1 0 15) (.cbyte [255]) = true ∧
    wellFormed (ctxAt .fTest 0 0 0 0) .frameTest = true ∧ wellFormed (ctxAt .fPixel 0 0 0 1) (.pix1 1) = true ∧
    wellFormed (ctxAt .fPixel 1 0 0 3) (.pix3 7) = true ∧ wellFormed (ctxAt .dTest 0 0 0 0) .durTest = true ∧
    wellFormed (ctxAt .dRead 0 0 0 8) (.dur 255) = true ∧ wellFormed (ctxAt .done 0 0 0 5) (.pad 5) = true := by decide

theorem witness_DecodedBitsAreTheElement :
    (ctxAt .pSelect 0 1 0 9).phase ≠ .done ∧ (ctxAt .pSelect 0 1 0 9).skip = 0 ∧
    decode (ctxAt .pSelect 0 1 0 9) [true, false, false, false, false, false, false, true, true] =
      .ok (.cbyte [0x81], [true]) := by decide

theorem witness_NoEncodingIsIllegal :
    (headerCtx.phase = .hFmt ∧ headerCtx.whole = true ∧ 6 + 2 * (field (bitsOfBytes [0x03]) 2 4 + 1) ≤ 8) ∧
    ((ctxAt .fPixel 1 0 0 3).phase ≠ .idle ∧ (ctxAt .fPixel 1 0 0 3).phase ≠ .error ∧
      (ctxAt .fPixel 1 0 0 3).whole = false ∧ elementWidth (ctxAt .fPixel 1 0 0 3) ≤ [true, true, true].length) ∧
    ((ctxAt .pSelect 0 1 0 15).phase ≠ .done ∧ (ctxAt .pSelect 0 1 0 15).skip = 0 ∧
      elementWidth (ctxAt .pSelect 0 1 0 15) ≤ (List.replicate 8 true).length) ∧
    ((ctxAt .fPixel 0 0 0 1).phase = .fPixel ∧ (ctxAt .fPixel 0 0 0 1).fmt = 0 ∧ (ctxAt .fPixel 1 0 0 3).fmt = 1 ∧
      (ctxAt .dRead 0 0 0 8).phase = .dRead) := by decide

theorem witness_SourceBitOrder :
    (stream [0x03]).src = .sb ∧ ({ stream [0x03] with src := .ib } : State).src = .ib ∧
    Memory.read (stream [0x03, 0x60]).sb (15 / 8) = some 0x60 := by decide

theorem witness_ReadBitsIsAQuotient :
    (Holds (stream [0x03, 0x60]).sb [0x03, 0x60] ∧ 0 + 16 ≤ 8 * [0x03, 0x60].length) ∧
    readBits (stream [0x03, 0x60]).sb 6 2 = some [true, true] ∧
    readBits (stream [0x03, 0x60]).sb (6 + 2) 3 = some [false, true, true] := by
  unfold Holds; decide

theorem witness_CompressedBytesLifted :
    let s : State := { mid .pSelect [0xC6, 0x62, 0x39] 10 with cmp := 1 }
    let t : State := { s with build := { s.build with payloadAlign := .byteAligned } }
    (s.phase = .pSelect ∧ s.cmp = 1 ∧ Holds s.source [0xC6, 0x62, 0x39] ∧ s.limit = 8 * 3 ∧ s.cur ≤ s.limit ∧
      s.build.payloadAlign = .bitAdjacent) ∧
    (t.phase = .pSelect ∧ t.cmp = 1 ∧ Holds t.source [0xC6, 0x62, 0x39] ∧ t.limit = 8 * 3 ∧ t.cur ≤ t.limit ∧
      t.build.payloadAlign = .byteAligned) := by
  unfold Holds; decide

/-- Exactly the field's bits left. -/
theorem witness_FlagFieldsComplete :
    1 ≤ (mid .hFmt [0x03] 7).remaining ∧ 1 ≤ (mid .hCmp [0x03] 7).remaining ∧ 4 ≤ (mid .hLen [0x03] 4).remaining := by
  decide

theorem witness_DimensionFieldsComplete :
    let s : State := { mid .hWidth [0xFF, 0xFF] 0 with len := 15 }
    s.remaining = s.len.toNat + 1 ∧ { s with phase := .hHeight }.remaining = s.len.toNat + 1 := by decide

/-- One bit too few. -/
theorem witness_ShortHeaderFieldRaises :
    (mid .hFmt [] 0).remaining < 1 ∧ (mid .hCmp [0x03] 8).remaining < 1 ∧ (mid .hLen [0x03] 5).remaining < 4 ∧
    ({ mid .hWidth [0x03] 0 with len := 8 } : State).remaining < 8 + 1 ∧
    ({ mid .hHeight [0x03] 0 with len := 8 } : State).remaining < 8 + 1 := by decide

theorem witness_HeaderFieldSteps :
    (stream [0x83]).hostTurns = [] ∧ (stream [0x83]).build.grain = .perField ∧
    (1 ≤ (mid .hFmt [0x83] 0).remaining ∧ readBits (mid .hFmt [0x83] 0).source 0 1 = some [true]) ∧
    (1 ≤ (mid .hCmp [0x83] 1).remaining ∧ readBits (mid .hCmp [0x83] 1).source 1 1 = some [false]) ∧
    (4 ≤ (mid .hLen [0x83] 4).remaining ∧ readBits (mid .hLen [0x83] 4).source 4 4 = some [false, false, true, true]) ∧
    ((mid .hWidth [0x83] 7).dimBits ≤ (mid .hWidth [0x83] 7).remaining ∧
      readBits (mid .hWidth [0x83] 7).source 7 1 = some [true]) ∧
    ((mid .hHeight [0x83] 7).dimBits ≤ (mid .hHeight [0x83] 7).remaining ∧
      readBits (mid .hHeight [0x83] 7).source 7 1 = some [true]) ∧
    (mid .hFmt [] 0).remaining < 1 ∧ (mid .hCmp [0x83] 8).remaining < 1 ∧ (mid .hLen [0x83] 5).remaining < 4 ∧
    (mid .hWidth [0x83] 8).remaining < (mid .hWidth [0x83] 8).dimBits ∧
    (mid .hHeight [0x83] 8).remaining < (mid .hHeight [0x83] 8).dimBits := by decide

/-- The least and the greatest dimensions; a zero one. -/
theorem witness_HeaderCheckComputesFrameBits :
    let s : State := { mid .hCheck [0x03] 8 with width := 1, height := 65536 }
    1 ≤ s.width.toNat ∧ s.width.toNat ≤ 65536 ∧ 1 ≤ s.height.toNat ∧ s.height.toNat ≤ 65536 ∧
    ({ s with width := 0 } : State).width.toNat < 1 := by decide

/-- A stream with exactly the header's bits unread, for each length: `6 + 2n` bits of five bytes. -/
theorem witness_WholeHeadersComplete :
    (List.range 16).all (fun k => decide (8 + 2 * k ≤ (mid .hFmt [0, 0, 0, 0, 0] (32 - 2 * k)).remaining)) = true ∧
    (1 ≤ 1 ∧ 1 ≤ 16) ∧ (1 ≤ 16 ∧ 16 ≤ 16) := by decide

/-- One bit too few for each length. -/
theorem witness_WholeHeadersTruncate :
    (List.range 16).all (fun k => decide ((mid .hFmt [0, 0, 0, 0, 0] (33 - 2 * k)).remaining < 8 + 2 * k)) = true := by
  decide

theorem witness_WholeHeaderStepIsSixSteps :
    (whole [0x03]).phase = .hFmt ∧ (whole [0x03]).hostTurns = [] ∧ (whole [0x03]).build.grain = .wholeHeader ∧
    (whole [0x03]).ctx.whole = true ∧ after (step (whole [0x03])) (fun _ => true) = true := by decide

/-- The empty stream, a truncated one and a whole one. -/
theorem witness_HeaderRunIsParseHeader :
    Launched [] (stream []) ∧ Launched [0x3C] (stream [0x3C]) ∧ Launched [0x03, 0x60] (stream [0x03, 0x60]) := by
  refine ⟨⟨rfl, rfl, rfl, rfl, ?_, rfl, rfl⟩, ⟨rfl, rfl, rfl, rfl, ?_, rfl, rfl⟩, ⟨rfl, rfl, rfl, rfl, ?_, rfl, rfl⟩⟩ <;>
    (unfold Holds; decide)

theorem witness_HeaderRoundTrip :
    (1 ≤ 1 ∧ 1 ≤ 65536 ∧ max 1 (max (clog2 1) (clog2 1)) ≤ 1 ∧ 1 ≤ 16) ∧
    (1 ≤ 256 ∧ 256 ≤ 65536 ∧ max 1 (max (clog2 256) (clog2 1)) ≤ 8 ∧ 8 ≤ 16) := by decide

theorem witness_ClogIsLeastExponent : 1 ≤ 1 ∧ 257 ≤ 2 ^ 9 := by decide

theorem witness_ErrorIsLeftByHostOnly :
    let s := (stream [0x3C]).raise .truncatedStream 6
    (s.phase = .error ∧ after (decoderStep s) (fun t => decide (t = s)) = true) ∧
    (after (hostAct (.writeReg .ctrl 1) s) (fun t => decide (t.phase ≠ .error)) = true) ∧
    (after (hostAct (.writeReg .ctrl 2) s) (fun t => decide (t.phase ≠ .error)) = true) ∧
    (after (hostAct .reset s) (fun t => decide (t.phase ≠ .error)) = true) := by decide

theorem witness_RawPayloadSelected :
    (sample .pSelect 0 0 8 []).hostTurns = [] ∧ (sample .pSelect 0 0 8 []).phase = .pSelect ∧
    (sample .pSelect 0 0 8 []).cmp = 0 ∧ Inv (sample .pSelect 0 0 8 []) :=
  ⟨rfl, rfl, rfl, inv_of_check (n := 3) (by decide)⟩

/-- Whatever `Inflate` answers for these bytes, some cursor width holds it. -/
theorem witness_CompressedPayloadCompletes :
    ∃ s : State, ∀ r, Config.inflate [0x88, 0xE7, 0x40] = some r → 8 * r.length < 2 ^ s.build.cursorW := by
  cases h : Config.inflate [0x88, 0xE7, 0x40] with
  | none => exact ⟨State.reset, fun r hr => absurd hr (by simp)⟩
  | some r =>
    refine ⟨{ State.reset with build := { Config.defaultBuild with cursorW := 8 * r.length } }, fun r' hr => ?_⟩
    obtain rfl := Option.some.inj hr
    exact Nat.lt_two_pow_self

theorem witness_FrameTestStops : (sample .fTest 0 0 21 []).remaining < (sample .fTest 0 0 21 []).frameBits.toNat := by decide

/-- Exactly one pixel block left. -/
theorem witness_FrameTestBegins :
    let s := sample .fTest 0 0 20 []
    s.frameBits.toNat = s.remaining ∧ s.build.maxFrames ≠ some s.nframes ∧ s.fs.length = s.nframes := by decide

theorem witness_FrameStoreOverflowRaises :
    let s : State := { sample .fTest 0 0 20 [] with build := { Config.defaultBuild with maxFrames := some 0 } }
    s.frameBits.toNat ≤ s.remaining ∧ s.build.maxFrames = some s.nframes := by decide

/-- A pixel inside a row, the last of a row and the last of the frame, in both formats. -/
theorem witness_PixelsStored :
    let s := sample .fPixel 0 0 8 [frame0 none]
    let t := sample .fPixel 1 0 8 [frame0 none]
    ((1#1).toNat = (1#3).toNat ∧ 1 ≤ s.remaining ∧ s.fs[s.nframes]? = some (frame0 none) ∧
      s.y.toNat * s.width.toNat + s.x.toNat < (frame0 none).pix.length ∧ s.x.toNat + 1 < s.width.toNat) ∧
    (3 ≤ t.remaining ∧ t.fs[t.nframes]? = some (frame0 none) ∧
      0 * t.width.toNat + 1 < (frame0 none).pix.length ∧ ¬ 1 + 1 < t.width.toNat ∧ 0 + 1 < t.height.toNat) ∧
    (1 * t.width.toNat + 1 < (frame0 none).pix.length ∧ ¬ 1 + 1 < t.width.toNat ∧ ¬ 1 + 1 < t.height.toNat) := by decide

theorem witness_PixelFrame :
    after (exec (.pix1 1) (sample .fPixel 0 0 8 [frame0 none])) (fun _ => true) = true ∧
    after (exec (.pix3 7) (sample .fPixel 1 0 8 [frame0 none])) (fun _ => true) = true := by decide

/-- Exactly 8 bits left, and 7. -/
theorem witness_DurationTested :
    8 ≤ (sample .dTest 0 0 16 [frame0 none]).remaining ∧ (sample .dTest 0 0 17 [frame0 none]).remaining < 8 := by decide

theorem witness_DurationStored :
    8 ≤ (sample .dRead 0 0 16 [frame0 none]).remaining ∧
    (sample .dRead 0 0 16 [frame0 none]).fs[(sample .dRead 0 0 16 [frame0 none]).nframes]? = some (frame0 none) := by decide

theorem witness_ResidueHasNoEffect :
    (sample .done 0 0 21 []).hostTurns = [] ∧ (sample .done 0 0 21 []).phase = .done := by decide

/-- The states of the payload, in both formats. -/
theorem witness_PayloadSteps :
    Inv (sample .fTest 0 0 8 []) ∧ Inv (sample .fPixel 0 0 8 [frame0 none]) ∧ Inv (sample .fPixel 1 0 8 [frame0 none]) ∧
    Inv (sample .dTest 0 0 12 [frame0 none]) ∧ Inv (sample .dRead 0 0 12 [frame0 none]) ∧
    (sample .fTest 0 0 8 []).hostTurns = [] ∧ (sample .fPixel 0 0 8 []).fmt = 0 ∧ (sample .fPixel 1 0 8 []).fmt = 1 :=
  ⟨inv_of_check (n := 3) (by decide), inv_of_check (n := 3) (by decide), inv_of_check (n := 3) (by decide),
    inv_of_check (n := 3) (by decide), inv_of_check (n := 3) (by decide), rfl, rfl, rfl⟩

/-- The clauses of the closed form at a frame with a duration, a frame without and two without. -/
theorem witness_FrameLoopClosedForm :
    1 ≤ 4 * 1 ∧ 0 < (bitsOfBytes [0x61, 0x90]).length / (4 + 8) ∧ 0 < (bitsOfBytes [0x61, 0x90]).length % (4 + 8) / 4 ∧
    2 ≤ (bitsOfBytes [0x60]).length % (4 + 8) / 4 := by decide

theorem witness_PayloadRunIsDecodeFrames :
    Inv (sample .fTest 0 0 8 []) ∧ (sample .fTest 0 0 8 []).phase = .fTest ∧ (sample .fTest 0 0 8 []).nframes = 0 ∧
    (sample .fTest 0 0 8 []).hostTurns = [] ∧ (sample .fTest 0 0 8 []).unread = some (bitsOfBytes [0x61, 0x90]) :=
  ⟨inv_of_check (n := 3) (by decide), rfl, rfl, rfl, by decide⟩

theorem witness_EveryRunEnds :
    (Inv (sample .fTest 0 0 8 []) ∧ (sample .fTest 0 0 8 []).phase = .fTest ∧ (sample .fTest 0 0 8 []).hostTurns = []) ∧
    (Inv (sample .hFmt 0 0 0 []) ∧ (sample .hFmt 0 0 0 []).phase = .hFmt ∧ (sample .hFmt 0 0 0 []).hostTurns = []) :=
  ⟨⟨inv_of_check (n := 3) (by decide), rfl, rfl⟩, ⟨inv_of_check (n := 3) (by decide), rfl, rfl⟩⟩

/-- Images of no frame, one and two; the greatest pad. -/
theorem witness_RawPayloadRoundTrip :
    Image.valid { fmt := 1, width := 1, height := 1, frames := [] } = true ∧
    Image.valid { fmt := 0, width := 2, height := 2, frames := [{ pix := [0, 1, 1, 0], ticks := some 255 }] } = true ∧
    Image.valid { fmt := 1, width := 1, height := 1, frames := [{ pix := [7], ticks := none }, { pix := [0], ticks := some 9 }] } =
      true ∧ 7 < 8 := by decide

/-- V62, a frame and a phantom one; V80's inflate buffer; and V80's stream, launched. -/
theorem witness_EncodedImageDecodes :
    let img : Image := { fmt := 0, width := 2, height := 2, frames := [{ pix := [0, 1, 1, 0], ticks := none }] }
    let s : State := { stream [0x03, 0x60] with width := 2, height := 2, frameBits := 4 }
    let img' : Image := { fmt := 1, width := 3, height := 2, frames := [{ pix := [4, 2, 1, 6, 3, 5], ticks := none }] }
    let s' : State := { mid .fTest [0xC6, 0x62, 0x39, 0xD0, 0x00] 0 with
      fmt := 1, cmp := 1, len := 1, width := 3, height := 2, frameBits := 18
      src := .ib, limit := 24, ib := Memory.ofBytes [0x88, 0xE7, 0x40] }
    let u : State := { stream [0xC6, 0x62, 0x39, 0xD0, 0x00] with width := 1, height := 1, frameBits := 1 }
    (encodeImage id s.build.payloadAlign img false = some [0x03, 0x60] ∧ Inv s ∧ Launched [0x03, 0x60] s ∧
      s.build.maxFrames = none) ∧
    (img'.valid = true ∧ Inv s' ∧ s'.phase = .fTest ∧ s'.src = .ib ∧ s'.cur = 0 ∧
      Holds s'.ib (finishBytes (rawPayload img')) ∧ s'.limit = 8 * (finishBytes (rawPayload img')).length ∧ s'.nframes = 0 ∧
      s'.hostTurns = [] ∧ s'.build.maxFrames = none ∧ s'.fmt = img'.fmt ∧ s'.width.toNat = img'.width ∧
      s'.height.toNat = img'.height) ∧
    (encodeImage id u.build.payloadAlign img' true = some [0xC6, 0x62, 0x39, 0xD0, 0x00] ∧ Inv u ∧
      Launched [0xC6, 0x62, 0x39, 0xD0, 0x00] u ∧ u.build.maxFrames = none ∧
      8 * (finishBytes (rawPayload img')).length < 2 ^ u.build.cursorW) := by
  refine ⟨⟨by decide, inv_of_check (n := 2) (by decide), ⟨rfl, rfl, rfl, rfl, ?_, rfl, rfl⟩, rfl⟩,
    ⟨by decide, inv_of_check (n := 3) (by decide), rfl, rfl, rfl, ?_, by decide, rfl, rfl, rfl, rfl, rfl, rfl⟩,
    by decide, inv_of_check (n := 5) (by decide), ⟨rfl, rfl, rfl, rfl, ?_, rfl, rfl⟩, rfl, by decide⟩ <;>
    (unfold Holds; decide)

/-- The frame loop; a residue of three bits, flipped, in the last byte; V80's stream with other bits after its last
whole compressed byte (six bits, the last of them the stream's last). -/
theorem witness_ResidueBitsDoNotMatter :
    let s := sample .fTest 0 0 21 []
    let s' : State := { s with sb := Memory.ofBytes [0x03, 0x61, 0x97] }
    let u := stream [0xC6, 0x62, 0x39, 0xD0, 0x00]
    let u' : State := { u with sb := Memory.ofBytes [0xC6, 0x62, 0x39, 0xD0, 0x3F] }
    (1 ≤ 4 * 1 ∧ decodeFrames none 1 4 ([false, true, true, false] ++ [true]) = some ([frame0 none], [true]) ∧
      [false].length = [true].length) ∧
    (Inv s ∧ Inv s' ∧ s.hostTurns = [] ∧ s' = { s with sb := s'.sb, ib := s'.ib } ∧
      after (Host.Core.run core 1 s) (fun t => decide (t.phase = .done) && decide (t.src = s.src) &&
        decide (∀ i, i < t.cur → srcBit s'.source i = srcBit s.source i)) = true ∧ s'.sb ≠ s.sb) ∧
    (Launched [0xC6, 0x62, 0x39, 0xD0, 0x00] u ∧ Launched [0xC6, 0x62, 0x39, 0xD0, 0x3F] u' ∧
      u' = { u with sb := u'.sb, ib := u'.ib } ∧
      after (Host.Core.run core 6 u) (fun t => decide (t.phase = .pSelect) && decide (t.cmp = 1) &&
        decide (t.cur + t.skip + 8 * ((t.remaining - t.skip) / 8) = 34)) = true ∧
      (∀ i, i < 34 → srcBit u'.sb i = srcBit u.sb i) ∧ u'.sb ≠ u.sb) := by
  refine ⟨by decide, ⟨inv_of_check (n := 3) (by decide), inv_of_check (n := 3) (by decide), rfl, rfl, by decide, by decide⟩,
    ⟨rfl, rfl, rfl, rfl, ?_, rfl, rfl⟩, ⟨rfl, rfl, rfl, rfl, ?_, rfl, rfl⟩, rfl, by decide, by decide, by decide⟩ <;>
    (unfold Holds; decide)

theorem witness_StreamLengths :
    Image.valid { fmt := 1, width := 65536, height := 65536, frames := [] } = true ∧
    Image.valid { fmt := 0, width := 1, height := 1, frames := [{ pix := [1], ticks := none }, { pix := [0], ticks := none }] } =
      true := by decide

theorem witness_WrittenFieldsReadBack :
    1 ≤ 4 ∧ 4 ≤ 16 ∧ 5 < 2 ^ 4 ∧
    Holds (Memory.ofBytes [0xAF]) (finishBytes ([(1, 1), (4, 5), (3, 7)].flatMap fun f => bitsOfNat f.1 f.2)) := by
  unfold Holds; decide

theorem witness_ElementsKeepBuffers :
    after (exec (.fmt 1) (stream [0x83])) (fun _ => true) = true ∧ (∀ bytes, Instr.fmt 1 ≠ .cbyte bytes) :=
  ⟨by decide, fun _ => by simp⟩

/-- Every element to a state that is not `ERROR`; for `CBYTE`, on the answer `[]` of the inflate agent. -/
theorem witness_ElementsWriteTheirColumns :
    let ok := fun r => after r fun t => decide (t.phase ≠ .error)
    ok (exec (.fmt 1) (stream [0x83])) ∧ ok (exec (.cmp 1) (mid .hCmp [0x83] 1)) ∧ ok (exec (.len 0) (mid .hLen [0x83] 2)) ∧
    ok (exec (.wm1 1) (mid .hWidth [0x83] 6)) ∧ ok (exec (.hm1 1) (mid .hHeight [0x83] 7)) ∧
    ok (exec .hdrCheck (sample .hCheck 0 0 8 [])) ∧ ok (exec .selRaw (sample .pSelect 0 0 8 [])) ∧
    ok (takeInflated (some []) (sample .pSelect 0 1 8 [])) ∧ ok (exec .frameTest (sample .fTest 0 0 8 [])) ∧
    ok (exec (.pix1 1) (sample .fPixel 0 0 8 [frame0 none])) ∧ ok (exec (.pix3 7) (sample .fPixel 1 0 8 [frame0 none])) ∧
    ok (exec .durTest (sample .dTest 0 0 12 [frame0 none])) ∧ ok (exec (.dur 25) (sample .dRead 0 0 12 [frame0 none])) ∧
    ok (exec (.pad 3) (sample .done 0 0 21 [])) := by decide

theorem witness_StartBeginsARun :
    ((stream [0x03]).raise .truncatedStream 0).busy = false ∧ Memory.written ((stream [0x03]).raise .truncatedStream 0).sb 1 = true ∧
    (stream [0x03]).busy = true := by decide

theorem witness_ControlBits :
    (Nat.testBit 3 1 = true) ∧ (Nat.testBit 5 1 = false ∧ Nat.testBit 5 0 = true) ∧
    (Nat.testBit 4 1 = false ∧ Nat.testBit 4 0 = false) := by decide

theorem witness_RefusedAccesses :
    (stream [0x03]).busy = true ∧ ¬ (State.reset.phase = .done ∧ 0 < State.reset.nframes) ∧
    ({ State.reset with streamLen := 1 } : State).busy = false ∧
    Memory.written ({ State.reset with streamLen := 1 } : State).sb 1 = false ∧
    2 ^ ({ State.reset with build := { Config.defaultBuild with cursorW := 4 } } : State).build.cursorW ≤ 8 * [1, 2].length ∧
    HostReg.fmt ≠ .ctrl ∧ HostReg.fmt ≠ .streamLen := by decide

theorem witness_RegistersRead :
    State.reset.phase = .idle ∧
    (({ ended none with handedOver := true } : State).phase = .done ∧ ({ ended none with handedOver := true } : State).handedOver = true) ∧
    ((ended none).phase = .done ∧ (ended none).handedOver = false) ∧ Inv (sample .fTest 0 0 8 []) ∧
    (Inv State.reset.hardReset ∧ State.reset.hardReset.phase = .idle) := by
  refine ⟨rfl, ⟨rfl, rfl⟩, ⟨rfl, rfl⟩, inv_of_check (n := 3) (by decide), ?_, rfl⟩
  constructor <;>
    simp [State.hardReset, State.softReset, State.cleared, State.reset, headerCursor, headerKnown, inFrame, frameRead,
      State.busy, phaseBusy, phaseCode, Memory.wf]

/-- The last frame, the last pixel of it, its duration set and unset; a run ended and not yet polled. -/
theorem witness_FrameStoreRead :
    let s : State := { ended (some 25) with handedOver := true }
    let t : State := { ended none with handedOver := true }
    (s.phase = .done ∧ s.handedOver = true ∧ 0 < s.nframes ∧ 1 < s.height.toNat ∧ 1 < s.width.toNat ∧
      cell s.fs 0 (1 * s.width.toNat + 1) = some 0) ∧
    (s.fs[0]? = some (frame0 (some 25)) ∧ (frame0 (some 25)).dur = some 25) ∧
    (t.phase = .done ∧ t.handedOver = true ∧ 0 < t.nframes ∧ t.fs[0]? = some (frame0 none) ∧ (frame0 none).dur = none) ∧
    ((ended none).phase = .done ∧ (ended none).handedOver = false ∧ 0 < (ended none).nframes ∧
      1 < (ended none).height.toNat ∧ 1 < (ended none).width.toNat) := by decide

theorem witness_StartUpLaunches :
    let s : State := { State.reset with hostTurns := launchTurns [0x03, 0x60] }
    s.busy = false ∧ s.hostTurns = launchTurns [0x03, 0x60] ∧ s.build.grain = .perField ∧
    8 * [0x03, 0x60].length < 2 ^ s.build.cursorW := by decide

/-- Two states that differ in a result register and in `IB`; two clean launches that differ in `SB` beyond the stream, in
the turns passed before `START` and in how it is written, both with two polls after it. -/
theorem witness_RunsAreIndependent :
    let s : State := { State.reset with sb := [(0, 0x03)], streamLen := 1 }
    let s' : State := { s with phase := .error, errcode := .truncatedStream, errpos := 6, ib := [(0, 0xFF)] }
    let turns : List (Option HostAction) := [none, some (.readReg .status), some (.readReg .status)]
    let c : State := { s with hostTurns := List.replicate 0 none ++ some (.writeReg .ctrl 1) :: turns }
    let c' : State := { s' with
      sb := [(0, 0x03), (1, 0xFF)], hostTurns := List.replicate 2 none ++ some (.writeReg .ctrl 5) :: turns }
    (s.sb = s'.sb ∧ s.streamLen = s'.streamLen ∧ s.build = s'.build ∧ s.hostTurns = s'.hostTurns ∧ s.hostData = s'.hostData ∧
      s.freeReads = s'.freeReads ∧ s.busy = false ∧ s'.busy = false ∧ after (startCommand s) (fun _ => true) = true ∧
      after (startCommand s') (fun _ => true) = true) ∧
    (CleanLaunch [0x03] c ∧ CleanLaunch [0x03] c' ∧ c.build = c'.build ∧
      (∀ a ∈ turns, a = none ∨ a = some (.readReg .status)) ∧
      after (Host.Core.run core (0 + 1 + 2) c) (fun _ => true) = true) := by
  unfold CleanLaunch Holds
  decide

theorem witness_StepRunsTheElement :
    let s := sample .fPixel 1 0 8 [frame0 none]
    let t : State := { s with hostTurns := [none] }
    let u : State := { s with hostTurns := [some (.readReg .status)] }
    (s.hostTurns = [] ∧ elementWidth s.ctx ≤ s.remaining ∧ readBits s.source s.cur (elementWidth s.ctx) = some [false, true, true] ∧
      decode s.ctx [false, true, true] = .ok (.pix3 3, [])) ∧
    (t.hostTurns = none :: [] ∧ elementWidth t.ctx ≤ t.remaining ∧
      readBits t.source t.cur (elementWidth t.ctx) = some [false, true, true] ∧
      decode t.ctx [false, true, true] = .ok (.pix3 3, [])) ∧
    u.hostTurns = some (.readReg .status) :: [] := by decide

theorem witness_QuietStatesWait :
    State.reset.hostTurns = [] ∧ State.reset.phase = .idle ∧ (sample .done 0 0 21 []).phase = .done ∧
    ((stream []).raise .truncatedStream 0).phase = .error := by decide

/-- `START`'s row, a row of the table, and `P_SELECT` with `CMP = 1`. -/
theorem witness_TransitionTable :
    (Inv (sample .done 0 0 21 []) ∧ (sample .done 0 0 21 []).phase = .done ∧
      Memory.written (sample .done 0 0 21 []).sb (sample .done 0 0 21 []).streamLen = true) ∧
    (Inv (sample .fTest 0 0 8 []) ∧ (sample .fTest 0 0 8 []).hostTurns = [] ∧
      (sample .fTest 0 0 8 []).build.grain = .perField) ∧
    (Inv (sample .pSelect 0 1 8 []) ∧ (sample .pSelect 0 1 8 []).phase = .pSelect ∧ (sample .pSelect 0 1 8 []).cmp = 1) :=
  ⟨⟨inv_of_check (n := 3) (by decide), rfl, by decide⟩, ⟨inv_of_check (n := 3) (by decide), rfl, rfl⟩,
    ⟨inv_of_check (n := 3) (by decide), rfl, rfl⟩⟩

theorem witness_StepKeepsInvariants :
    Inv (sample .fPixel 1 0 8 [frame0 none]) ∧
    after (step (sample .fPixel 1 0 8 [frame0 none])) (fun _ => true) = true :=
  ⟨inv_of_check (n := 3) (by decide), by decide⟩

theorem witness_InvariantStepsNeverFault :
    Inv (sample .hCheck 0 0 8 []) ∧ (sample .hCheck 0 0 8 []).hostTurns = [] :=
  ⟨inv_of_check (n := 3) (by decide), rfl⟩

end Sys2Proof.Tests
end

section
/-! PROOF. `clog2` (R10): the model's search is Mathlib's `Nat.clog 2`, and what follows from that. -/

namespace Sys2Proof.Machine

/-- The search from `k` stops at the greater of `k` and the least exponent, if its fuel carries it that far. -/
theorem clog2From_eq_max_clog (n : Nat) :
    ∀ {fuel k : Nat}, n ≤ 2 ^ (k + fuel) → clog2From n fuel k = max k (Nat.clog 2 n)
  | 0, _, hfuel => (max_eq_left (Nat.clog_le_of_le_pow hfuel)).symm
  | fuel + 1, k, hfuel => by
    rw [clog2From]
    split
    case isTrue hk => exact (max_eq_left (Nat.clog_le_of_le_pow hk)).symm
    case isFalse hk =>
      have hlt : k < Nat.clog 2 n := (Nat.lt_clog_iff_pow_lt Nat.one_lt_two).2 (not_le.1 hk)
      have hnext : n ≤ 2 ^ (k + 1 + fuel) := by rwa [Nat.add_right_comm]
      rw [clog2From_eq_max_clog n hnext, max_eq_right hlt, max_eq_right hlt.le]

/-- `n` steps of fuel are enough for `clog2`, since `n < 2^n`. -/
theorem clog2_eq_clog (n : Nat) : clog2 n = Nat.clog 2 n := by
  have hfuel : n ≤ 2 ^ (0 + n) := by rw [Nat.zero_add]; exact Nat.lt_two_pow_self.le
  rw [clog2, clog2From_eq_max_clog n hfuel, Nat.zero_max]

theorem clog2_le_iff {n k : Nat} : clog2 n ≤ k ↔ n ≤ 2 ^ k := by
  rw [clog2_eq_clog, Nat.clog_le_iff_le_pow Nat.one_lt_two]

theorem le_two_pow_clog2 (n : Nat) : n ≤ 2 ^ clog2 n := clog2_le_iff.1 le_rfl

/-- `n <= 2^k` and `n - 1 < 2^k` bound the same exponents, so the two least ones agree. -/
theorem clog2_eq_size_pred {n : Nat} (hn : 1 ≤ n) : clog2 n = Nat.size (n - 1) :=
  eq_of_forall_ge_iff fun k => by rw [clog2_le_iff, Nat.size_le]; omega

/-- Settles O18: `clog2` is `Nat.clog 2`; the listed values are computed. -/
theorem clogIsLeastExponent : Obligations.ClogIsLeastExponent :=
  ⟨fun n hn => ⟨le_two_pow_clog2 n, fun _ => clog2_le_iff.2, clog2_eq_size_pred hn,
    Nat.sub_one_lt_of_le hn (le_two_pow_clog2 n)⟩, by decide⟩

end Sys2Proof.Machine
end

section
/-! PROOF. `STATUS` as a number (R36): its two halves, its flags in terms of the number of `STATE`. -/

namespace Sys2Proof.Machine

theorem phaseCode_toNat_inj {p q : Phase} : (phaseCode p).toNat = (phaseCode q).toNat ↔ p = q := by
  constructor
  · cases p <;> cases q <;> simp [phaseCode]
  · rintro rfl; rfl

/-- `BUSY` on the numbers of `STATE`; `State.busy_iff` says it on their names. -/
theorem State.busy_iff_phaseCode (s : State) :
    s.busy = true ↔ 1 ≤ (phaseCode s.phase).toNat ∧ (phaseCode s.phase).toNat ≤ 11 := by
  simp [State.busy, phaseBusy]

@[simp] theorem State.doneFlag_iff (s : State) : s.doneFlag = true ↔ s.phase = .done := decide_eq_true_iff

@[simp] theorem State.errFlag_iff (s : State) : s.errFlag = true ↔ s.phase = .error := decide_eq_true_iff

/-- Two halves of a word side by side, as a number. -/
theorem toNat_append_eq_add {m n : Nat} (x : BitVec m) (y : BitVec n) :
    (x ++ y).toNat = 2 ^ n * x.toNat + y.toNat := by
  rw [BitVec.toNat_append, ← Nat.shiftLeft_add_eq_or_of_lt y.isLt, Nat.shiftLeft_eq, Nat.mul_comm]

theorem State.status_toNat (s : State) :
    s.status.toNat = 16 * (phaseCode s.phase).toNat + 4 * s.errFlag.toNat + 2 * s.doneFlag.toNat + s.busy.toNat := by
  simp only [State.status, toNat_append_eq_add, BitVec.toNat_ofBool, BitVec.toNat_ofNat]
  omega

/-- The top bit of the low half of `STATUS`. -/
theorem flagBits_getLsbD_three :
    ∀ e d b : Bool, (0#1 ++ BitVec.ofBool e ++ BitVec.ofBool d ++ BitVec.ofBool b).getLsbD 3 = false := by decide

theorem State.status_getLsbD_three (s : State) : s.status.getLsbD 3 = false :=
  BitVec.getLsbD_append.trans (flagBits_getLsbD_three s.errFlag s.doneFlag s.busy)

theorem State.some_flag_iff_not_idle (s : State) :
    (s.busy || s.doneFlag || s.errFlag) = true ↔ s.phase ≠ .idle := by
  simp only [Bool.or_eq_true, State.busy_iff, State.doneFlag_iff, State.errFlag_iff]
  constructor
  · rintro ((⟨hidle, -⟩ | hdone) | herr)
    · exact hidle
    · simp [hdone]
    · simp [herr]
  · tauto

theorem State.no_flag_iff_idle (s : State) : (s.busy || s.doneFlag || s.errFlag) = false ↔ s.phase = .idle := by
  rw [← Bool.not_eq_true, State.some_flag_iff_not_idle, not_not]

theorem State.flags_exclusive (s : State) : s.busy.toNat + s.doneFlag.toNat + s.errFlag.toNat ≤ 1 := by
  cases hbusy : s.busy with
  | true =>
    obtain ⟨-, hdone, herr⟩ := s.busy_iff.1 hbusy
    simp [State.doneFlag, State.errFlag, hdone, herr]
  | false =>
    cases hdone : s.doneFlag with
    | true => simp [State.errFlag, s.doneFlag_iff.1 hdone]
    | false => simpa using Bool.toNat_le s.errFlag

/-- Settles O44: the value and bit 3 from the layout of the word, the flags from the number of `STATE`. -/
theorem statusIsAFunctionOfState : Obligations.StatusIsAFunctionOfState := fun s =>
  have hdone : s.doneFlag = true ↔ (phaseCode s.phase).toNat = 12 :=
    s.doneFlag_iff.trans (phaseCode_toNat_inj (q := .done)).symm
  have herr : s.errFlag = true ↔ (phaseCode s.phase).toNat = 13 :=
    s.errFlag_iff.trans (phaseCode_toNat_inj (q := .error)).symm
  ⟨s.status_toNat, s.busy_iff_phaseCode, hdone, herr, s.status_getLsbD_three, s.no_flag_iff_idle, s.flags_exclusive⟩

end Sys2Proof.Machine
end

section
/-! PROOF. A write of `CTRL` (R35), one equation per branch. -/

namespace Sys2Proof.Machine

theorem writeCtrl_softReset {v : Nat} (s : State) (h1 : v.testBit 1 = true) : writeCtrl v s = .next s.softReset :=
  if_pos h1

theorem writeCtrl_start {v : Nat} (s : State) (h1 : v.testBit 1 = false) (h0 : v.testBit 0 = true) :
    writeCtrl v s = startCommand s := by
  simp only [writeCtrl, h1, h0, Bool.false_eq_true, if_false, if_true]

theorem writeCtrl_nothing {v : Nat} (s : State) (h1 : v.testBit 1 = false) (h0 : v.testBit 0 = false) :
    writeCtrl v s = .next s := by
  simp only [writeCtrl, h1, h0, Bool.false_eq_true, if_false]

/-- Bits 0 and 1 decide: a write of the two low bits alone does the same. -/
theorem writeCtrl_mod_four (v : Nat) (s : State) : writeCtrl (v % 4) s = writeCtrl v s := by
  have hbit (i : Nat) (hi : i < 2) : (v % 4).testBit i = v.testBit i := by
    rw [show 4 = 2 ^ 2 from rfl, Nat.testBit_mod_two_pow, decide_eq_true hi, Bool.true_and]
  rw [writeCtrl, writeCtrl, hbit 1 (by decide), hbit 0 (by decide)]

/-- Settles O46, by the branches of `writeCtrl`; a read of `CTRL` is never refused. -/
theorem controlBits : Obligations.ControlBits := fun s v =>
  ⟨writeCtrl_softReset s, writeCtrl_start s, writeCtrl_nothing s, (writeCtrl_mod_four v s).symm,
    hostReadReg_always s (r := .ctrl) rfl⟩

end Sys2Proof.Machine
end

section
/-! PROOF. The bit reader's source (R23, R62): one equation per value of `SRC`, and a bit of a byte that has a value. -/

namespace Sys2Proof.Machine

theorem State.source_of_src_sb {s : State} (h : s.src = .sb) : s.source = s.sb := by rw [State.source, h]

theorem State.source_of_src_ib {s : State} (h : s.src = .ib) : s.source = s.ib := by rw [State.source, h]

theorem srcBit_of_read {m : Memory} {i : Nat} {b : Byte} (h : Memory.read m (i / 8) = some b) :
    srcBit m i = some (b.getLsbD (7 - i % 8)) := by
  rw [srcBit, h, Option.map_some]

/-- Settles O5: each value of `SRC`, a bit of a read byte, and `natOfBits` with its first bit taken off. -/
theorem sourceBitOrder : Obligations.SourceBitOrder :=
  ⟨fun _ => State.source_of_src_sb, fun _ => State.source_of_src_ib, fun _ _ _ => srcBit_of_read, natOfBits_cons⟩

end Sys2Proof.Machine
end

section
/-! PROOF. The lengths of what the reference encoder writes (R109): the pad to a byte, the header, the blocks of the
raw payload, and the stream made of them. -/

namespace Sys2Proof

@[simp] theorem length_padToByte (bits : List Bool) :
    (padToByte bits).length = bits.length + (8 - bits.length % 8) % 8 := by
  simp [padToByte]

/-- The pad makes whole bytes, so none of its bits is cut off. -/
theorem eight_mul_length_finishBytes (bits : List Bool) :
    8 * (finishBytes bits).length = bits.length + (8 - bits.length % 8) % 8 := by
  have hwhole : 8 ∣ (padToByte bits).length := by rw [length_padToByte]; omega
  rw [finishBytes, length_bytesOfBits, Nat.mul_div_cancel' hwhole, length_padToByte]

theorem one_le_length_finishBytes {bits : List Bool} (h : 1 ≤ bits.length) : 1 ≤ (finishBytes bits).length := by
  have := eight_mul_length_finishBytes bits
  omega

/-- Blocks of one length `c`, put one after another. -/
theorem length_flatMap_of_forall_length_eq {α β : Type} {l : List α} {f : α → List β} {c : Nat}
    (h : ∀ x ∈ l, (f x).length = c) : (l.flatMap f).length = l.length * c := by
  have hsum := List.sum_eq_card_nsmul (l.map fun x => (f x).length) c (by simpa using h)
  rw [List.length_flatMap, hsum, List.length_map, smul_eq_mul]

end Sys2Proof

namespace Sys2Proof.Machine

theorem Image.valid_iff (img : Image) :
    img.valid = true ↔ 1 ≤ img.width ∧ img.width ≤ 65536 ∧ 1 ≤ img.height ∧ img.height ≤ 65536 ∧
      ∀ fr ∈ img.frames, ImageFrame.valid img.fmt (img.width * img.height) fr = true := by
  simp [Image.valid, and_assoc]

theorem ImageFrame.length_pix_of_valid {fmt : Bit} {n : Nat} {fr : ImageFrame} (h : ImageFrame.valid fmt n fr = true) :
    fr.pix.length = n := by
  simp only [ImageFrame.valid, Bool.and_eq_true, decide_eq_true_eq] at h
  obtain ⟨⟨hpix, -⟩, -⟩ := h
  exact hpix

theorem canonicalL_le_sixteen {w h : Nat} (hw : w ≤ 65536) (hh : h ≤ 65536) : canonicalL w h ≤ 16 :=
  max_le (by decide) (max_le (clog2_le_iff.2 hw) (clog2_le_iff.2 hh))

@[simp] theorem length_encHeader (img : Image) (lzw : Bool) (L : Nat) : (encHeader img lzw L).length = 6 + 2 * L := by
  simp only [encHeader, List.length_append, length_bitsOfNat]
  omega

@[simp] theorem length_encPixels (fmt : Bit) (fr : ImageFrame) :
    (encPixels fmt fr).length = fr.pix.length * pixelBits fmt :=
  length_flatMap_of_forall_length_eq fun _ _ => length_bitsOfNat _ _

@[simp] theorem length_encDur (many : Bool) (fr : ImageFrame) : (encDur many fr).length = if many then 8 else 0 := by
  cases many <;> simp [encDur]

/-- Every frame has a block of `P` bits, and a duration of 8 if there are more frames than one. -/
theorem length_rawPayload {img : Image} (hvalid : img.valid = true) :
    (rawPayload img).length = img.frames.length *
      (img.width * img.height * pixelBits img.fmt + if 1 < img.frames.length then 8 else 0) := by
  obtain ⟨-, -, -, -, hframes⟩ := img.valid_iff.1 hvalid
  refine length_flatMap_of_forall_length_eq fun fr hfr => ?_
  simp [ImageFrame.length_pix_of_valid (hframes fr hfr)]

/-- The raw payload's length in the two cases of R109. -/
theorem length_rawPayload_cases {img : Image} (hvalid : img.valid = true) :
    (rawPayload img).length =
      if img.frames.length ≤ 1 then img.frames.length * (img.width * img.height * pixelBits img.fmt)
      else img.frames.length * (img.width * img.height * pixelBits img.fmt + 8) := by
  rw [length_rawPayload hvalid]
  split
  case isTrue hmany => rw [if_neg (not_le.2 hmany)]
  case isFalse hone => rw [if_pos (not_lt.1 hone), Nat.add_zero]

/-- The canonical `L` of a valid image is at most 16, so `Encode` refuses none. -/
theorem encodeImage_of_valid {img : Image} (hvalid : img.valid = true) (deflate : List Byte → List Byte)
    (align : PayloadAlign) (lzw : Bool) :
    let L := canonicalL img.width img.height
    encodeImage deflate align img lzw =
      some (finishBytes (encHeader img lzw L ++ encPayload deflate align img lzw (6 + 2 * L))) := by
  obtain ⟨-, hwidth, -, hheight, -⟩ := img.valid_iff.1 hvalid
  simp [encodeImage, assemble, hvalid, canonicalL_le_sixteen hwidth hheight]

/-- A valid image's stream is its header, its payload and the pad to a byte; its header alone makes one byte. -/
theorem encodeImage_length {img : Image} (hvalid : img.valid = true) {deflate : List Byte → List Byte}
    {align : PayloadAlign} {lzw : Bool} {n : Nat}
    (hn : 6 + 2 * canonicalL img.width img.height +
      (encPayload deflate align img lzw (6 + 2 * canonicalL img.width img.height)).length = n) :
    ∃ bytes, encodeImage deflate align img lzw = some bytes ∧
      8 * bytes.length = n + (8 - n % 8) % 8 ∧ 1 ≤ bytes.length := by
  refine ⟨_, encodeImage_of_valid hvalid deflate align lzw, ?_, one_le_length_finishBytes ?_⟩
  · rw [eight_mul_length_finishBytes, List.length_append, length_encHeader, hn]
  · rw [List.length_append, length_encHeader]
    omega

@[simp] theorem encPayload_raw (deflate : List Byte → List Byte) (align : PayloadAlign) (img : Image) (hdr : Nat) :
    encPayload deflate align img false hdr = rawPayload img := rfl

theorem length_encPayload_compressed_bitAdjacent (deflate : List Byte → List Byte) (img : Image) (hdr : Nat) :
    (encPayload deflate .bitAdjacent img true hdr).length = 8 * (deflate (finishBytes (rawPayload img))).length :=
  length_bitsOfBytes _

/-- Settles O42: the raw payload's length, and the stream's with each kind of payload; `k` whole bytes leave the
header's own pad. -/
theorem streamLengths : Obligations.StreamLengths := by
  refine ⟨fun img deflate hvalid => ?_, by decide⟩
  have hraw := length_rawPayload_cases hvalid
  have hbytes := eight_mul_length_finishBytes (rawPayload img)
  rw [hraw] at hbytes
  have hpacked := encodeImage_length hvalid (congrArg _ (length_encPayload_compressed_bitAdjacent deflate img _))
  rw [Nat.add_mul_mod_self_left] at hpacked
  exact ⟨hraw, hbytes, encodeImage_length hvalid (by rw [encPayload_raw, hraw]), hpacked⟩

end Sys2Proof.Machine
end

section
/-! PROOF. A read as a quotient of the buffer's number (R134): the first bits of a list are its number's quotient, the
last ones its remainder. -/

namespace Sys2Proof

/-- A list's number, with the first `n` bits as quotient and the others as remainder. -/
theorem natOfBits_take_drop (bits : List Bool) (n : Nat) :
    natOfBits bits = natOfBits (bits.take n) * 2 ^ (bits.length - n) + natOfBits (bits.drop n) := by
  rw [← List.length_drop, ← natOfBits_append, List.take_append_drop]

theorem natOfBits_drop_lt (bits : List Bool) (n : Nat) : natOfBits (bits.drop n) < 2 ^ (bits.length - n) :=
  List.length_drop (l := bits) ▸ natOfBits_lt (bits.drop n)

theorem natOfBits_take (bits : List Bool) (n : Nat) :
    natOfBits (bits.take n) = natOfBits bits / 2 ^ (bits.length - n) := by
  rw [natOfBits_take_drop bits n, Nat.mul_comm, Nat.mul_add_div (Nat.two_pow_pos _),
    Nat.div_eq_of_lt (natOfBits_drop_lt bits n), Nat.add_zero]

theorem natOfBits_drop (bits : List Bool) (n : Nat) :
    natOfBits (bits.drop n) = natOfBits bits % 2 ^ (bits.length - n) := by
  rw [natOfBits_take_drop bits n, Nat.mul_add_mod_self_right, Nat.mod_eq_of_lt (natOfBits_drop_lt bits n)]

/-- The `n` bits from bit `c` on are the last `n` of the first `c + n`. -/
theorem natOfBits_drop_take {bits : List Bool} {c n : Nat} (h : c + n ≤ bits.length) :
    natOfBits ((bits.drop c).take n) = natOfBits bits / 2 ^ (bits.length - c - n) % 2 ^ n := by
  rw [List.take_drop, natOfBits_drop, natOfBits_take, List.length_take_of_le h, Nat.add_sub_cancel_left,
    Nat.sub_sub]

end Sys2Proof

namespace Sys2Proof.Machine

theorem natOfBits_readBits {m : Memory} {bytes : List Byte} {c n : Nat} (hm : Holds m bytes)
    (hle : c + n ≤ 8 * bytes.length) :
    (readBits m c n).map natOfBits =
      some (natOfBits (bitsOfBytes bytes) / 2 ^ (8 * bytes.length - c - n) % 2 ^ n) := by
  have hlen := length_bitsOfBytes bytes
  rw [readBits_eq hm hle, Option.map_some, natOfBits_drop_take (hlen.symm ▸ hle), hlen]

theorem natOfBits_readBits_add {mem : Memory} {c m n : Nat} {hi lo : List Bool} (hhi : readBits mem c m = some hi)
    (hlo : readBits mem (c + m) n = some lo) :
    (readBits mem c (m + n)).map natOfBits = some (natOfBits hi * 2 ^ n + natOfBits lo) := by
  have hone : readBits mem c (m + n) = some (hi ++ lo) := by
    rw [readBits_add, hhi, Option.bind_some, hlo, Option.map_some]
  rw [hone, Option.map_some, natOfBits_append, readBits_length hlo]

/-- Settles O6: a read is a slice of the stream, and two reads in a row are one read of their bits joined. -/
theorem readBitsIsAQuotient : Obligations.ReadBitsIsAQuotient :=
  ⟨fun _ _ _ _ => natOfBits_readBits, fun _ _ _ _ _ _ => natOfBits_readBits_add⟩

end Sys2Proof.Machine
end

section
/-! PROOF. The header parser (R140 to R147): what each header step does on a stream, the six steps in order as one
whole header, and `ParseHeader` in its two outcomes. -/

namespace Sys2Proof

theorem field_lt_of_le (bits : List Bool) (start : Nat) {n m : Nat} (h : n ≤ m) : field bits start n < 2 ^ m :=
  (field_lt bits start n).trans_le (Nat.pow_le_pow_right Nat.two_pos h)

end Sys2Proof

namespace Sys2Proof.Machine

/-! ## Runs -/

theorem run_succ_of_step {M : Host.Core} {s t : M.State} (k : Nat) (h : M.step s = .next t) :
    M.run (k + 1) s = M.run k t := by
  rw [Host.Core.run, h]

theorem run_one {M : Host.Core} (s : M.State) : M.run 1 s = M.step s := by
  rw [Host.Core.run]
  cases M.step s <;> rfl

/-- `ERROR` waits (R177, R259): further steps leave it as it is. -/
theorem run_of_error {s : State} (k : Nat) (hsilent : s.hostTurns = []) (hp : s.phase = .error) :
    Host.Core.run core k s = .next s := by
  induction k with
  | zero => rfl
  | succ k ih =>
    have hstep : step s = .next s := (step_silent hsilent).trans (decoderStep_quiet (.inr hp))
    exact (run_succ_of_step (M := core) k hstep).trans ih

/-! ## One header step -/

/-- The host is silent, headers are taken field by field, and the current source reads as `bits` up to its limit. -/
structure HeaderStream (bits : List Bool) (s : State) : Prop where
  silent : s.hostTurns = []
  grain : s.build.grain = .perField
  reads : ∀ i n, i + n ≤ s.limit → readBits s.source i n = some ((bits.drop i).take n)

theorem Launched.headerStream {bytes : List Byte} {s : State} (hs : Launched bytes s) :
    HeaderStream (bitsOfBytes bytes) s where
  silent := hs.silent
  grain := hs.grain
  reads i n hi := by
    rw [State.source_of_src_sb hs.src]
    exact readBits_eq hs.holds (hs.limit ▸ hi)

theorem Launched.remaining {bytes : List Byte} {s : State} (hs : Launched bytes s) :
    s.remaining = (bitsOfBytes bytes).length := by
  rw [State.remaining, hs.limit, hs.cur, length_bitsOfBytes, Nat.sub_zero]

theorem HeaderStream.ctx_eq {bits : List Bool} {s : State} (hs : HeaderStream bits s) :
    s.ctx = { phase := s.phase, fmt := s.fmt, cmp := s.cmp, len := s.len, whole := false
              rem := s.remaining, skip := s.skip } :=
  State.ctx_of_none (State.wholeHeader?_eq_none (.inl hs.grain))

/-- A state that selects a field of `n` bits takes its element: with the field's value where its bits are unread,
with a blank operand where they are not. -/
theorem step_takes_field {bits : List Bool} {s : State} (hs : HeaderStream bits s) {n : Nat} {mk : Nat → Instr}
    (hn : 0 < n) (hp : s.phase ≠ .idle ∧ s.phase ≠ .error) (hw : elementWidth s.ctx = n)
    (hd : ∀ operand, decode s.ctx operand = decodeField n mk operand) :
    ∃ v, step s = exec (mk v) s ∧ (n ≤ s.remaining → v = field bits s.cur n) := by
  have hfetch {operand : List Bool} (h : s.operandBits = some operand) (hlen : n ≤ operand.length) :
      step s = exec (mk (field operand 0 n)) s := by
    have hf : s.fetch = some (mk (field operand 0 n)) := by simp only [State.fetch, h, hd, decodeField_isOk mk hlen]
    rw [step_silent hs.silent, decoderStep_of_fetch hf hp]
  by_cases hr : n ≤ s.remaining
  · have hread := hs.reads s.cur n (by unfold State.remaining at hr; omega)
    have hoperand := hfetch (by rw [State.operandBits, hw, if_neg (by omega), hread]) (readBits_length hread).ge
    refine ⟨_, hoperand, fun _ => ?_⟩
    rw [field, List.drop_zero, List.take_take, Nat.min_self, field]
  · exact ⟨_, hfetch (by rw [State.operandBits, hw, if_pos (by omega)]) (by simp), fun h => absurd h hr⟩

/-- Where the element's meaning is a header field (R146), the step is that meaning with the field's value: a short
field's operand is not used. -/
theorem step_headerField {bits : List Bool} {s : State} (hs : HeaderStream bits s) {n : Nat} {mk : Nat → Instr}
    (hn : 0 < n) (hp : s.phase ≠ .idle ∧ s.phase ≠ .error) (hw : elementWidth s.ctx = n)
    (hd : ∀ operand, decode s.ctx operand = decodeField n mk operand)
    (hshort : ∀ v, s.remaining < n → exec (mk v) s = .next (s.raise .truncatedStream s.cur)) :
    step s = exec (mk (field bits s.cur n)) s := by
  obtain ⟨v, hstep, hv⟩ := step_takes_field hs hn hp hw hd
  by_cases hr : n ≤ s.remaining
  · rw [hstep, hv hr]
  · rw [hstep, hshort _ (by omega), hshort _ (by omega)]

section Steps
variable {bits : List Bool} {s : State} (hs : HeaderStream bits s)
include hs

theorem step_hFmt (hp : s.phase = .hFmt) : step s = execFmt (.ofNat 1 (field bits s.cur 1)) s :=
  step_headerField (mk := fun v => .fmt (.ofNat 1 v)) hs Nat.one_pos (by simp [hp])
    (by simp [hs.ctx_eq, elementWidth, hp]) (by simp [hs.ctx_eq, decode, hp])
    fun _ h => by rw [exec_fmt, execFmt, headerField_short _ h]

theorem step_hCmp (hp : s.phase = .hCmp) : step s = execCmp (.ofNat 1 (field bits s.cur 1)) s :=
  step_headerField (mk := fun v => .cmp (.ofNat 1 v)) hs Nat.one_pos (by simp [hp])
    (by simp [elementWidth, hp]) (by simp [decode, hp])
    fun _ h => by rw [exec_cmp, execCmp, headerField_short _ h]

theorem step_hLen (hp : s.phase = .hLen) : step s = execLen (.ofNat 4 (field bits s.cur 4)) s :=
  step_headerField (mk := fun v => .len (.ofNat 4 v)) hs (by decide) (by simp [hp])
    (by simp [elementWidth, hp]) (by simp [decode, hp])
    fun _ h => by rw [exec_len, execLen, headerField_short _ h]

theorem step_hWidth (hp : s.phase = .hWidth) : step s = execWm1 (.ofNat 16 (field bits s.cur s.dimBits)) s :=
  step_headerField (mk := fun v => .wm1 (.ofNat 16 v)) hs (Nat.succ_pos _) (by simp [hp])
    (by simp [hs.ctx_eq, elementWidth, hp, State.dimBits]) (by simp [hs.ctx_eq, decode, hp, State.dimBits])
    fun _ h => by rw [exec_wm1, execWm1, headerField_short _ h]

theorem step_hHeight (hp : s.phase = .hHeight) : step s = execHm1 (.ofNat 16 (field bits s.cur s.dimBits)) s :=
  step_headerField (mk := fun v => .hm1 (.ofNat 16 v)) hs (Nat.succ_pos _) (by simp [hp])
    (by simp [hs.ctx_eq, elementWidth, hp, State.dimBits]) (by simp [hs.ctx_eq, decode, hp, State.dimBits])
    fun _ h => by rw [exec_hm1, execHm1, headerField_short _ h]

theorem step_hCheck (hp : s.phase = .hCheck) : step s = execHdrCheck s := by
  have hfetch : s.fetch = some .hdrCheck :=
    State.fetch_of_decode (bits := []) (rest := []) (by simp [elementWidth, hp])
      (by simp [elementWidth, hp, readBits]) (by simp [decode, hp])
  rw [step_silent hs.silent, decoderStep_of_fetch hfetch (by simp [hp]), exec_hdrCheck]

/-! ## The six steps -/

/-- A run whose first step is a header field: it ends at the raise, or goes on past the field, where only `STATE`, the
cursor and the header registers have changed. -/
theorem run_headerField {n k cur : Nat} {p : Phase} {f c : Bit} {l : BitVec 4} {w h : BitVec 17} {r : Res}
    {rest : State → Res} (hstep : step s = r)
    (hshort : s.remaining < n → r = .next (s.raise .truncatedStream s.cur))
    (hlong : n ≤ s.remaining →
      r = .next { s with cur := cur, fmt := f, cmp := c, len := l, width := w, height := h, phase := p })
    (hp : p ≠ .error)
    (hrest : let t := { s with cur := cur, fmt := f, cmp := c, len := l, width := w, height := h, phase := p }
      HeaderStream bits t → Host.Core.run core k t = rest t) :
    Host.Core.run core (k + 1) s = andThen r rest := by
  rcases Nat.lt_or_ge s.remaining n with hr | hr
  · rw [hshort hr, andThen_error _ (State.raise_phase _ _ _)]
    exact (run_succ_of_step (M := core) k (hstep.trans (hshort hr))).trans (run_of_error k hs.silent rfl)
  · rw [hlong hr, andThen_next _ hp, ← hrest ⟨hs.silent, hs.grain, hs.reads⟩]
    exact run_succ_of_step (M := core) k (hstep.trans (hlong hr))

/-- The six steps R140 to R145 are the whole header of the fields at the cursor (R91, R147), its bits unread or not. -/
theorem run_eq_wholeHeader (hp : s.phase = .hFmt) :
    let l : BitVec 4 := .ofNat 4 (field bits (s.cur + 2) 4)
    Host.Core.run core 6 s = wholeHeader (.ofNat 1 (field bits s.cur 1)) (.ofNat 1 (field bits (s.cur + 1) 1)) l
      (.ofNat 16 (field bits (s.cur + 6) (l.toNat + 1)))
      (.ofNat 16 (field bits (s.cur + 6 + (l.toNat + 1)) (l.toNat + 1))) s := by
  intro l
  refine run_headerField hs (step_hFmt hs hp) (headerField_short _) (execFmt_long _) (by simp) fun hs => ?_
  refine run_headerField hs (step_hCmp hs rfl) (headerField_short _) (headerField_long _) (by simp) fun hs => ?_
  refine run_headerField hs (step_hLen hs rfl) (headerField_short _) (headerField_long _) (by simp) fun hs => ?_
  refine run_headerField hs (step_hWidth hs rfl) (headerField_short _) (headerField_long _) (by simp) fun hs => ?_
  refine run_headerField hs (step_hHeight hs rfl) (headerField_short _) (headerField_long _) (by simp) fun hs => ?_
  exact (run_one (M := core) _).trans (step_hCheck hs rfl)

end Steps

/-! ## `ParseHeader` -/

theorem parseHeader_long {bytes : List Byte} {n : Nat} (hn : n = field (bitsOfBytes bytes) 2 4 + 1)
    (h : 6 + 2 * n ≤ (bitsOfBytes bytes).length) : parseHeader bytes = .ok (headerOf (bitsOfBytes bytes)) := by
  subst hn
  simp only [parseHeader]
  rw [if_neg (by omega), if_neg (by omega), if_neg (by omega)]

/-- A stream of whole bytes that has a bit has the first three fields, so it is cut off at bit 0 or in a dimension. -/
theorem parseHeader_short {bytes : List Byte} {s : State} (hs : Launched bytes s) {n : Nat}
    (hn : n = field (bitsOfBytes bytes) 2 4 + 1) (h : (bitsOfBytes bytes).length < 6 + 2 * n) :
    parseHeader bytes = .error (.truncatedStream, s.headerFailure n) := by
  have hlen := length_bitsOfBytes bytes
  simp only [parseHeader, State.headerFailure, hs.remaining, hs.cur, ← hn, Nat.zero_add]
  by_cases hempty : (bitsOfBytes bytes).length < 1
  · simp only [hempty, if_true]
  have h2 : ¬ (bitsOfBytes bytes).length < 2 := by omega
  have h6 : ¬ (bitsOfBytes bytes).length < 6 := by omega
  by_cases hwidth : (bitsOfBytes bytes).length < 6 + n
  · simp only [hempty, h2, h6, hwidth, if_true, if_false]
  · simp only [hempty, h2, h6, hwidth, h, if_true, if_false]

/-- The six steps from a launch are the whole header at the stream's front (R91). -/
theorem run_launched {bytes : List Byte} {s : State} (hs : Launched bytes s) {bits : List Bool} {n : Nat}
    (hbits : bits = bitsOfBytes bytes) (hn : n = field bits 2 4 + 1) :
    Host.Core.run core 6 s = wholeHeader (.ofNat 1 (field bits 0 1)) (.ofNat 1 (field bits 1 1)) (.ofNat 4 (n - 1))
      (.ofNat 16 (field bits 6 n)) (.ofNat 16 (field bits (6 + n) n)) s := by
  subst hbits hn
  have hlen : (BitVec.ofNat 4 (field (bitsOfBytes bytes) 2 4)).toNat = field (bitsOfBytes bytes) 2 4 :=
    BitVec.toNat_ofNat .. ▸ Nat.mod_eq_of_lt (field_lt _ 2 4)
  simpa only [hs.cur, Nat.zero_add, hlen, Nat.add_sub_cancel] using run_eq_wholeHeader hs.headerStream hs.phase

/-- Settles O16: the six steps are the whole header at the stream's front, which is cut off or complete where
`ParseHeader` says. -/
theorem headerRunIsParseHeader : Obligations.HeaderRunIsParseHeader := by
  intro s bytes hs
  generalize hbits : bitsOfBytes bytes = bits
  obtain ⟨n, hn⟩ : ∃ n, n = field bits 2 4 + 1 := ⟨_, rfl⟩
  have hl : field bits 2 4 < 2 ^ 4 := field_lt bits 2 4
  have hlen : (BitVec.ofNat 4 (n - 1)).toNat = n - 1 := by simp; omega
  have hrun := run_launched hs hbits.symm hn
  have hrem := hs.remaining
  rcases Nat.lt_or_ge s.remaining (6 + 2 * n) with hr | hr
  · rw [parseHeader_short hs (hbits ▸ hn) (by omega)]
    exact hrun.trans (wholeHeader_short (by omega) _ _ hlen _ _ hr)
  · have hw : field bits 6 n < 2 ^ 16 := field_lt_of_le bits 6 (by omega)
    have hh : field bits (6 + n) n < 2 ^ 16 := field_lt_of_le bits (6 + n) (by omega)
    rw [parseHeader_long (hbits ▸ hn) (by omega), hbits, hrun, wholeHeader_long (by omega) _ _ hlen _ _ hr,
      BitVec.toNat_ofNat, BitVec.toNat_ofNat, Nat.mod_eq_of_lt hw, Nat.mod_eq_of_lt hh]
    simp only [headerOf, State.headerResult, ← hn, hs.cur, Nat.zero_add]
    exact ⟨rfl, hw, hh, frameBits_lt _ hw hh⟩

end Sys2Proof.Machine
end

section
/-! PROOF. The header of an image, read back (R148): the fields at their places, whatever follows them. -/

namespace Sys2Proof

/-- What `Finish` writes reads back, with its pad. -/
theorem bitsOfBytes_finishBytes (bits : List Bool) : bitsOfBytes (finishBytes bits) = padToByte bits := by
  have hlen := eight_mul_length_finishBytes bits
  rw [finishBytes, length_bytesOfBits, ← length_padToByte] at hlen
  rw [finishBytes, bitsOfBytes_bytesOfBits _ _ hlen.le, hlen, List.take_length]

/-- A field written after `k` bits at the front of a stream. -/
theorem field_of_prefix {xs bits : List Bool} {k n v : Nat} (hp : xs ++ bitsOfNat n v <+: bits) (hk : xs.length = k)
    (hv : v < 2 ^ n) : field bits k n = v := by
  obtain ⟨rest, rfl⟩ := hp
  rw [← hk, List.append_assoc, field_append_right, field_append_left hv]

end Sys2Proof

namespace Sys2Proof.Machine

/-- The header of an image with dimensions that fit `L` bits, at the front of a stream, reads as the image's (R91). -/
theorem headerOf_of_encHeader_prefix {img : Image} {lzw : Bool} {L : Nat} {bits : List Bool}
    (hp : encHeader img lzw L <+: bits) (hL : L - 1 < 2 ^ 4) (hw : img.width - 1 < 2 ^ L) (hh : img.height - 1 < 2 ^ L)
    (hL1 : 1 ≤ L) (hw1 : 1 ≤ img.width) (hh1 : 1 ≤ img.height) :
    L = field bits 2 4 + 1 ∧ headerOf bits =
      { fmt := img.fmt, cmp := BitVec.ofBool lzw, len := .ofNat 4 (L - 1), width := img.width, height := img.height
        frameBits := img.width * img.height * pixelBits img.fmt, cur := 6 + 2 * L } := by
  have hwidthPart := (List.prefix_append _ _).trans hp
  have hlenPart := (List.prefix_append _ _).trans hwidthPart
  have hcmpPart := (List.prefix_append _ _).trans hlenPart
  have hfmtPart := (List.prefix_append _ _).trans hcmpPart
  have hfmt : field bits 0 1 = img.fmt.toNat := field_of_prefix (xs := []) hfmtPart rfl img.fmt.isLt
  have hcmp : field bits 1 1 = lzw.toNat := field_of_prefix hcmpPart (by simp) lzw.toNat_lt
  have hlen : field bits 2 4 = L - 1 := field_of_prefix hlenPart (by simp) hL
  have hwidth : field bits 6 L = img.width - 1 := field_of_prefix hwidthPart (by simp) hw
  have hheight : field bits (6 + L) L = img.height - 1 := field_of_prefix hp (by simp; omega) hh
  have hL' : L - 1 + 1 = L := by omega
  have hc : BitVec.ofNat 1 lzw.toNat = BitVec.ofBool lzw := by cases lzw <;> rfl
  refine ⟨by omega, ?_⟩
  simp only [headerOf, hfmt, hcmp, hlen, hL', hwidth, hheight, hc, Nat.sub_add_cancel hw1, Nat.sub_add_cancel hh1,
    BitVec.ofNat_toNat, BitVec.setWidth_eq]

/-- Settles O17: `clog2` of a dimension is at most `L`, so its field holds it. -/
theorem headerRoundTrip : Obligations.HeaderRoundTrip := by
  refine ⟨fun img lzw L rest hw1 _ hh1 _ hmax hL => ?_, by decide⟩
  obtain ⟨hL1, hclog⟩ := max_le_iff.1 hmax
  obtain ⟨hw, hh⟩ := max_le_iff.1 hclog
  rw [clog2_le_iff] at hw hh
  have hp : encHeader img lzw L <+: bitsOfBytes (finishBytes (encHeader img lzw L ++ rest)) := by
    rw [bitsOfBytes_finishBytes, padToByte, List.append_assoc]
    exact List.prefix_append _ _
  obtain ⟨hn, hheader⟩ := headerOf_of_encHeader_prefix hp (by omega) (by omega) (by omega) hL1 hw1 hh1
  rw [parseHeader_long hn (length_encHeader img lzw L ▸ hp.length_le), hheader]

end Sys2Proof.Machine
end

section
/-! PROOF. The pixel codes and the triples of channels, each read back from the other (R163). -/

namespace Sys2Proof.Machine

/-- A code is its three channels: `R`, `G` and `B` are bits 2, 1 and 0, and there is no other bit (R162). -/
theorem unpack3_injective : Function.Injective unpack3 := by
  intro c d h
  obtain ⟨hR, hG, hB⟩ : c.getLsbD 2 = d.getLsbD 2 ∧ c.getLsbD 1 = d.getLsbD 1 ∧ c.getLsbD 0 = d.getLsbD 0 := by
    simpa only [unpack3, Prod.mk.injEq] using h
  refine BitVec.eq_of_getLsbD_eq fun i hi => ?_
  match i, hi with
  | 0, _ => exact hB
  | 1, _ => exact hG
  | 2, _ => exact hR

@[simp] theorem unpack3_pack3 : ∀ r g b : Bool, unpack3 (pack3 r g b) = (r, g, b) := by decide

@[simp] theorem pack3_unpack3 (c : Code) : pack3 (unpack3 c).1 (unpack3 c).2.1 (unpack3 c).2.2 = c :=
  unpack3_injective (unpack3_pack3 _ _ _)

/-- The weights of the channels fit the three bits of a code, so no bit is lost. -/
theorem toNat_pack3 (r g b : Bool) : (pack3 r g b).toNat = 4 * r.toNat + 2 * g.toNat + b.toNat := by
  have hr := r.toNat_lt
  have hg := g.toNat_lt
  have hb := b.toNat_lt
  rw [pack3, BitVec.toNat_ofNat, Nat.mod_eq_of_lt (by omega)]
  omega

@[simp] theorem unpack1_pack1 (v : Bool) : unpack1 (pack1 v) = v := by simp [unpack1, pack1]

/-- A one-bit code is its bit 0 (R161). -/
@[simp] theorem pack1_unpack1 (c : Bit) : pack1 (unpack1 c) = c := by
  refine BitVec.eq_of_getLsbD_eq fun i hi => ?_
  obtain rfl : i = 0 := by omega
  exact unpack1_pack1 (c.getLsbD 0)

theorem toNat_unpack1 (c : Bit) : (unpack1 c).toNat = c.toNat := by
  rw [← BitVec.toNat_ofBool, ← pack1, pack1_unpack1]

/-- Settles O32: each packing undoes its unpacking and the other way round, with the numbers of the codes. -/
theorem pixelCodesBijective : Obligations.PixelCodesBijective :=
  ⟨pack3_unpack3, fun r g b => ⟨unpack3_pack3 r g b, toNat_pack3 r g b⟩,
    fun c => ⟨pack1_unpack1 c, toNat_unpack1 c⟩, unpack1_pack1⟩

end Sys2Proof.Machine
end

section
/-! PROOF. One frame of the frame loop (R178): what is read as a frame, the bits it takes, the loop in these terms. -/

namespace Sys2Proof.Machine

/-- The bits the loop takes for a frame of `p` pixel bits out of `r`: a duration follows where 8 more are unread. -/
def frameWidth (p r : Nat) : Nat := if p + 8 ≤ r then p + 8 else p

/-- The frame the loop reads at the front of the unread bits: `n` codes of `b` bits, and the duration that follows. -/
def firstFrame (b n : Nat) (bits : List Bool) : Frame where
  pix := readCodes b n bits
  dur := if n * b + 8 ≤ bits.length then some (.ofNat 8 (natOfBits ((bits.drop (n * b)).take 8))) else none

theorem frameWidth_of_duration {p r : Nat} (h : p + 8 ≤ r) : frameWidth p r = p + 8 := if_pos h

theorem frameWidth_of_no_duration {p r : Nat} (h : r < p + 8) : frameWidth p r = p := if_neg (by omega)

theorem le_frameWidth (p r : Nat) : p ≤ frameWidth p r := by
  unfold frameWidth
  split <;> omega

theorem frameWidth_le {p r : Nat} (h : p ≤ r) : frameWidth p r ≤ r := by
  unfold frameWidth
  split <;> omega

theorem firstFrame_of_duration {b n : Nat} {bits : List Bool} (h : n * b + 8 ≤ bits.length) :
    firstFrame b n bits =
      { pix := readCodes b n bits, dur := some (.ofNat 8 (natOfBits ((bits.drop (n * b)).take 8))) } := by
  rw [firstFrame, if_pos h]

theorem firstFrame_of_no_duration {b n : Nat} {bits : List Bool} (h : bits.length < n * b + 8) :
    firstFrame b n bits = { pix := readCodes b n bits, dur := none } := by
  rw [firstFrame, if_neg (by omega)]

theorem frameLoop_stop {mf : Option Nat} {b n : Nat} (fuel : Nat) (frames : List Frame) {bits : List Bool}
    (h : bits.length < n * b) : frameLoop mf b n fuel frames bits = some (frames, bits) := by
  cases fuel with
  | zero => rfl
  | succ fuel => rw [frameLoop, if_pos h]

theorem frameLoop_full {mf : Option Nat} {b n : Nat} (fuel : Nat) {frames : List Frame} {bits : List Bool}
    (h : n * b ≤ bits.length) (hfull : mf = some frames.length) : frameLoop mf b n (fuel + 1) frames bits = none := by
  rw [frameLoop, if_neg (by omega), if_pos hfull]

theorem frameLoop_frame {mf : Option Nat} {b n : Nat} (fuel : Nat) {frames : List Frame} {bits : List Bool}
    (h : n * b ≤ bits.length) (hroom : mf ≠ some frames.length) :
    frameLoop mf b n (fuel + 1) frames bits =
      frameLoop mf b n fuel (frames ++ [firstFrame b n bits]) (bits.drop (frameWidth (n * b) bits.length)) := by
  rw [frameLoop, if_neg (by omega), if_neg hroom]
  simp only [List.length_drop]
  by_cases hdur : n * b + 8 ≤ bits.length
  · rw [if_pos (by omega), firstFrame_of_duration hdur, frameWidth_of_duration hdur, List.drop_drop]
  · rw [if_neg (by omega), firstFrame_of_no_duration (by omega), frameWidth_of_no_duration (by omega)]

end Sys2Proof.Machine
end

section
/-! PROOF. The closed form of the frame loop (R180): first the frames with a duration, then those without, each kind
of one width. -/

namespace Sys2Proof.Machine

/-- `m` frames of one width `w`, one after another. -/
theorem frameLoop_frames {b n w : Nat} (fuel : Nat) (frames : List Frame) {bits : List Bool} :
    ∀ {m : Nat},
      (∀ k < m, n * b ≤ (bits.drop (k * w)).length ∧ frameWidth (n * b) (bits.drop (k * w)).length = w) →
      frameLoop none b n (m + fuel) frames bits =
        frameLoop none b n fuel (frames ++ (List.range m).map fun k => firstFrame b n (bits.drop (k * w)))
          (bits.drop (m * w))
  | 0, _ => by simp
  | m + 1, h => by
    obtain ⟨hblock, hwidth⟩ := h m (Nat.lt_succ_self m)
    rw [Nat.add_right_comm, Nat.add_assoc, frameLoop_frames (fuel + 1) frames fun k hk => h k (by omega),
      frameLoop_frame fuel hblock (by simp), hwidth, List.drop_drop, List.range_succ, List.map_append,
      List.append_assoc, Nat.succ_mul]
    rfl

/-- The frames of both kinds and the residue are all the bits (R180). -/
theorem frames_use_up_bits (r0 p : Nat) :
    framesWithDuration r0 p * (p + 8) + framesWithout r0 p * p + residueBits r0 p = r0 := by
  rw [framesWithDuration, framesWithout, residueBits, Nat.add_assoc, Nat.div_add_mod', Nat.div_add_mod']

/-- Once the frames with a duration are read, fewer bits are left than such a frame takes. -/
theorem bits_without_duration_lt (r0 p : Nat) : framesWithout r0 p * p + residueBits r0 p < p + 8 := by
  rw [framesWithout, residueBits, Nat.div_add_mod']
  exact Nat.mod_lt _ (Nat.succ_pos _)

theorem block_and_duration_unread {r0 p k : Nat} (hk : k < framesWithDuration r0 p) : p + 8 ≤ r0 - k * (p + 8) := by
  have hsum := frames_use_up_bits r0 p
  have hfits : (k + 1) * (p + 8) ≤ framesWithDuration r0 p * (p + 8) := Nat.mul_le_mul_right _ hk
  rw [Nat.succ_mul] at hfits
  omega

/-- A block is unread, and no duration after it. -/
theorem block_alone_unread {r0 p j : Nat} (hj : j < framesWithout r0 p) :
    p ≤ r0 - (framesWithDuration r0 p * (p + 8) + j * p) ∧
      r0 - (framesWithDuration r0 p * (p + 8) + j * p) < p + 8 := by
  have hsum := frames_use_up_bits r0 p
  have hrest := bits_without_duration_lt r0 p
  have hfits : (j + 1) * p ≤ framesWithout r0 p * p := Nat.mul_le_mul_right p hj
  rw [Nat.succ_mul] at hfits
  omega

/-- A frame takes a bit or more, so a unit of fuel for each bit is enough. -/
theorem frames_le_bits {p : Nat} (r0 : Nat) (hpos : 1 ≤ p) : framesWithDuration r0 p + framesWithout r0 p ≤ r0 := by
  have hsum := frames_use_up_bits r0 p
  have hnd : framesWithDuration r0 p ≤ framesWithDuration r0 p * (p + 8) := Nat.le_mul_of_pos_right _ (Nat.succ_pos _)
  have hnu : framesWithout r0 p ≤ framesWithout r0 p * p := Nat.le_mul_of_pos_right _ hpos
  omega

/-- What is left after the frames of both kinds is the residue. -/
theorem bits_after_frames (r0 p : Nat) :
    r0 - (framesWithDuration r0 p * (p + 8) + framesWithout r0 p * p) = residueBits r0 p :=
  Nat.sub_eq_of_eq_add' (frames_use_up_bits r0 p).symm

/-- The loop as its two kinds of frames, `n_d` of `P + 8` bits and then `n_u` of `P` bits. -/
theorem decodeFrames_eq_closedForm {b n : Nat} (bits : List Bool) (hpos : 1 ≤ n * b) :
    let p := n * b
    let nd := framesWithDuration bits.length p
    let nu := framesWithout bits.length p
    decodeFrames none b n bits = some
      ((List.range nd).map (fun k => firstFrame b n (bits.drop (k * (p + 8)))) ++
        (List.range nu).map (fun j => firstFrame b n (bits.drop (nd * (p + 8) + j * p))),
      bits.drop (nd * (p + 8) + nu * p)) := by
  intro p nd nu
  obtain ⟨fuel, hfuel⟩ : ∃ fuel, bits.length + 1 = nd + nu + fuel :=
    Nat.exists_eq_add_of_le (Nat.le_succ_of_le (frames_le_bits bits.length hpos))
  have hlong : ∀ k < nd, p ≤ (bits.drop (k * (p + 8))).length ∧
      frameWidth p (bits.drop (k * (p + 8))).length = p + 8 := by
    intro k hk
    have hunread := block_and_duration_unread hk
    rw [List.length_drop]
    exact ⟨by omega, frameWidth_of_duration hunread⟩
  have hshort : ∀ j < nu, p ≤ ((bits.drop (nd * (p + 8))).drop (j * p)).length ∧
      frameWidth p ((bits.drop (nd * (p + 8))).drop (j * p)).length = p := by
    intro j hj
    obtain ⟨hblock, hno⟩ := block_alone_unread hj
    rw [List.drop_drop, List.length_drop]
    exact ⟨hblock, frameWidth_of_no_duration hno⟩
  have hstop : (bits.drop (nd * (p + 8) + nu * p)).length < p := by
    rw [List.length_drop, bits_after_frames]
    exact Nat.mod_lt _ hpos
  rw [decodeFrames, hfuel, Nat.add_assoc, frameLoop_frames _ _ hlong, frameLoop_frames _ _ hshort]
  simp only [List.drop_drop, List.nil_append]
  exact frameLoop_stop _ _ hstop

/-- Settles O34: the frames of the two kinds are found by their index; two without a duration fit in `P + 8` bits. -/
theorem frameLoopClosedForm : Obligations.FrameLoopClosedForm := by
  intro b n bits hpos p nd nu
  refine ⟨_, _, decodeFrames_eq_closedForm bits hpos, ?_, ?_, fun k hk => ?_, fun j hj => ?_, fun htwo => ?_⟩
  · rw [List.length_append, List.length_map, List.length_map, List.length_range, List.length_range]
  · rw [List.length_drop, bits_after_frames]
  · have hunread : p + 8 ≤ (bits.drop (k * (p + 8))).length := List.length_drop ▸ block_and_duration_unread hk
    rw [List.getElem?_append_left (by simpa using hk), List.getElem?_map, List.getElem?_range hk, Option.map_some,
      firstFrame_of_duration hunread, List.drop_drop]
  · have hno : (bits.drop (nd * (p + 8) + j * p)).length < p + 8 := List.length_drop ▸ (block_alone_unread hj).2
    rw [List.getElem?_append_right (by simp [nd, p]), List.length_map, List.length_range, Nat.add_sub_cancel_left,
      List.getElem?_map, List.getElem?_range hj, Option.map_some, firstFrame_of_no_duration hno]
  · have hfit : 2 * p ≤ nu * p := Nat.mul_le_mul_right p htwo
    have hrest : nu * p + residueBits bits.length p < p + 8 := bits_without_duration_lt _ p
    omega

end Sys2Proof.Machine
end

section
/-! PROOF. The operations of the frame sequencer (R171, R172, R174, R175), one equation per branch. -/

namespace Sys2Proof.Machine

theorem execFrameTest_stop {s : State} (h : s.remaining < s.frameBits.toNat) :
    execFrameTest s = .next { s with phase := .done } := if_pos h

theorem execFrameTest_full {s : State} (h : s.frameBits.toNat ≤ s.remaining)
    (hfull : s.build.maxFrames = some s.nframes) : execFrameTest s = .next (s.raise .capacityExceeded s.cur) := by
  rw [execFrameTest, if_neg (Nat.not_lt.2 h), if_pos hfull]

theorem execFrameTest_begin {s : State} (h : s.frameBits.toNat ≤ s.remaining)
    (hroom : s.build.maxFrames ≠ some s.nframes) : execFrameTest s = .next s.beginFrame := by
  rw [execFrameTest, if_neg (Nat.not_lt.2 h), if_neg hroom]

theorem execDurTest_duration {s : State} (h : 8 ≤ s.remaining) : execDurTest s = .next { s with phase := .dRead } :=
  if_pos h

theorem execDurTest_none {s : State} (h : s.remaining < 8) :
    execDurTest s = .next { s with nframes := s.nframes + 1, phase := .fTest } := if_neg (Nat.not_le.2 h)

theorem execDur_of_frame (d : Byte) {s : State} {fr : Frame} (h : 8 ≤ s.remaining) (hf : s.fs[s.nframes]? = some fr) :
    execDur d s = .next { s with
      cur := s.cur + 8, fs := s.fs.set s.nframes { fr with dur := some d }
      nframes := s.nframes + 1, phase := .fTest } := by
  rw [execDur, if_neg (Nat.not_lt.2 h), storeDur_of_frame d hf]

/-- Settles O24: the branch of `FRAME_TEST`, and the flags of `DONE`. -/
theorem frameTestStops : Obligations.FrameTestStops := fun _ h => ⟨execFrameTest_stop h, rfl, rfl⟩

/-- Settles O29: the two branches of `DUR_TEST`. -/
theorem durationTested : Obligations.DurationTested :=
  ⟨fun _ => execDurTest_duration, fun _ => execDurTest_none⟩

end Sys2Proof.Machine
end

section
/-! PROOF. The payload steps R171 to R175 on a stream: each is its element's meaning on the bits at the cursor. -/

namespace Sys2Proof.Machine

/-- A read that succeeds does so in two parts (R63, R134). -/
theorem readBits_split {m : Memory} {i a r : Nat} {bits : List Bool} (h : readBits m i r = some bits) (ha : a ≤ r) :
    readBits m i a = some (bits.take a) ∧ readBits m (i + a) (r - a) = some (bits.drop a) := by
  obtain ⟨d, rfl⟩ := Nat.exists_eq_add_of_le ha
  rw [readBits_add] at h
  obtain ⟨xs, hxs, h⟩ := Option.bind_eq_some_iff.1 h
  obtain ⟨ys, hys, rfl⟩ := Option.map_eq_some_iff.1 h
  have hlen := readBits_length hxs
  rw [Nat.add_sub_cancel_left, List.take_left' hlen, List.drop_left' hlen]
  exact ⟨hxs, hys⟩

/-- The host is silent and `bits` are unread, after a header of legal dimensions with its `FRAME_BITS`. -/
structure PayloadStream (bits : List Bool) (s : State) : Prop where
  silent : s.hostTurns = []
  unread : s.unread = some bits
  width_pos : 1 ≤ s.width.toNat
  width_le : s.width.toNat ≤ 65536
  height_pos : 1 ≤ s.height.toNat
  height_le : s.height.toNat ≤ 65536
  frameBits : s.frameBits.toNat = s.width.toNat * s.height.toNat * pixelBits s.fmt

theorem Inv.payloadStream {bits : List Bool} {s : State} (hs : Inv s) (hp : headerKnown s.phase = true)
    (hsilent : s.hostTurns = []) (hbits : s.unread = some bits) : PayloadStream bits s := by
  obtain ⟨⟨hw, hwle, -⟩, ⟨hh, hhle, -⟩, hframe⟩ := hs.header_known hp
  exact ⟨hsilent, hbits, hw, hwle, hh, hhle, hframe⟩

theorem step_of_decode {s : State} {bits rest : List Bool} {i : Instr} (hsilent : s.hostTurns = [])
    (hp : s.phase ≠ .idle ∧ s.phase ≠ .error) (hlen : elementWidth s.ctx ≤ s.remaining)
    (hread : readBits s.source s.cur (elementWidth s.ctx) = some bits) (hd : decode s.ctx bits = .ok (i, rest)) :
    step s = exec i s := by
  rw [step_silent hsilent, decoderStep_of_fetch (State.fetch_of_decode hlen hread hd) hp]

namespace PayloadStream
variable {bits : List Bool} {s : State} (hs : PayloadStream bits s)
include hs

theorem frameBits_pos : 1 ≤ s.width.toNat * s.height.toNat * pixelBits s.fmt :=
  Nat.mul_pos (Nat.mul_pos hs.width_pos hs.height_pos) (pixelBits_pos _)

theorem remaining : s.remaining = bits.length := (readBits_length hs.unread).symm

/-- Past `n` bits the rest is unread, whatever else a payload step writes. -/
theorem advance {n : Nat} (hn : n ≤ bits.length) {x y : BitVec 16} {fs : List Frame} {nf : Nat} {p : Phase} :
    PayloadStream (bits.drop n) { s with cur := s.cur + n, x := x, y := y, fs := fs, nframes := nf, phase := p } where
  silent := hs.silent
  unread := by
    have hrest := (readBits_split hs.unread (hs.remaining ▸ hn)).2
    rwa [State.remaining, Nat.sub_sub] at hrest
  width_pos := hs.width_pos
  width_le := hs.width_le
  height_pos := hs.height_pos
  height_le := hs.height_le
  frameBits := hs.frameBits

/-- A state that selects a field of `n` bits, unread, takes the element of the bits at the cursor. -/
theorem step_field {n : Nat} {mk : Nat → Instr} (hn : n ≤ bits.length) (hp : s.phase ≠ .idle ∧ s.phase ≠ .error)
    (hw : elementWidth s.ctx = n) (hd : ∀ operand, decode s.ctx operand = decodeField n mk operand) :
    step s = exec (mk (natOfBits (bits.take n))) s := by
  have hread := (readBits_split hs.unread (hs.remaining ▸ hn)).1
  have hlen : (bits.take n).length = n := readBits_length hread
  have hfield : field (bits.take n) 0 n = natOfBits (bits.take n) := by
    rw [field, List.drop_zero, List.take_take, Nat.min_self]
  have hdecode : decode s.ctx (bits.take n) = .ok (mk (natOfBits (bits.take n)), (bits.take n).drop n) := by
    rw [hd, decodeField_isOk mk hlen.ge, hfield]
  exact step_of_decode hs.silent hp (hw ▸ hs.remaining ▸ hn) (hw.symm ▸ hread) hdecode

theorem step_no_bits {i : Instr} (hp : s.phase ≠ .idle ∧ s.phase ≠ .error) (hw : elementWidth s.ctx = 0)
    (hd : decode s.ctx [] = .ok (i, [])) : step s = exec i s :=
  step_of_decode hs.silent hp (hw ▸ Nat.zero_le _) (hw ▸ rfl) hd

theorem step_fTest (hp : s.phase = .fTest) : step s = execFrameTest s :=
  hs.step_no_bits (i := .frameTest) (by simp [hp]) (by simp [elementWidth, hp]) (by simp [decode, hp])

theorem step_dTest (hp : s.phase = .dTest) : step s = execDurTest s :=
  hs.step_no_bits (i := .durTest) (by simp [hp]) (by simp [elementWidth, hp]) (by simp [decode, hp])

theorem step_dRead (hp : s.phase = .dRead) (h8 : 8 ≤ bits.length) :
    step s = execDur (.ofNat 8 (natOfBits (bits.take 8))) s :=
  hs.step_field (mk := fun v => .dur (.ofNat 8 v)) h8 (by simp [hp]) (by simp [elementWidth, hp]) (by simp [decode, hp])

/-- `PIX1` or `PIX3`, as the format selects: a code of one bit is zero-extended in its cell (R165). -/
theorem step_fPixel (hp : s.phase = .fPixel) (hb : pixelBits s.fmt ≤ bits.length) :
    step s = pixelElement (pixelBits s.fmt) (.ofNat 3 (natOfBits (bits.take (pixelBits s.fmt)))) s := by
  rcases bit_eq_zero_or_one s.fmt with hf | hf
  · have hw : pixelBits s.fmt = 1 := by simp [pixelBits, hf]
    rw [hw] at hb ⊢
    have hv : natOfBits (bits.take 1) < 2 ^ 1 := by simpa [hb] using natOfBits_lt (bits.take 1)
    have hstep := hs.step_field (mk := fun v => .pix1 (.ofNat 1 v)) hb (by simp [hp])
      (by simp [elementWidth, hp, hf]) (by simp [decode, hp, hf])
    rw [hstep, exec_pix1, execPix1, BitVec.setWidth_ofNat_of_le_of_lt (by decide) hv]
  · have hw : pixelBits s.fmt = 3 := by simp [pixelBits, hf]
    rw [hw] at hb ⊢
    exact hs.step_field (mk := fun v => .pix3 (.ofNat 3 v)) hb (by simp [hp])
      (by simp [elementWidth, hp, hf]) (by simp [decode, hp, hf])

end PayloadStream

end Sys2Proof.Machine
end

section
/-! PROOF. The pixel block of a frame (R173): the codes at the cursor, stored one after another. -/

namespace Sys2Proof.Machine

/-- `X` and `Y` go through the frame in linear order, and a frame's last pixel leaves them (R66, R173). -/
theorem State.nextPixel_cases {s : State} (hx : s.x.toNat < s.width.toNat) (hy : s.y.toNat < s.height.toNat)
    (hw : s.width.toNat ≤ 65536) (hh : s.height.toNat ≤ 65536) :
    (s.pixelIndex + 1 = s.width.toNat * s.height.toNat ∧ s.nextPixel = { s with phase := .dTest }) ∨
      ∃ x y : BitVec 16, s.nextPixel = { s with x := x, y := y } ∧ x.toNat < s.width.toNat ∧
        y.toNat < s.height.toNat ∧ y.toNat * s.width.toNat + x.toNat = s.pixelIndex + 1 := by
  unfold State.nextPixel State.pixelIndex
  by_cases hcol : s.x.toNat + 1 < s.width.toNat
  · have hx1 : (s.x + 1).toNat = s.x.toNat + 1 := by bv_omega
    exact .inr ⟨s.x + 1, s.y, if_pos hcol, by omega, hy, by omega⟩
  have hlast : s.x.toNat + 1 = s.width.toNat := by omega
  rw [if_neg hcol]
  by_cases hrow : s.y.toNat + 1 < s.height.toNat
  · have hy1 : (s.y + 1).toNat = s.y.toNat + 1 := by bv_omega
    refine .inr ⟨0, s.y + 1, if_pos hrow, by simp; omega, by omega, ?_⟩
    rw [hy1, Nat.succ_mul, Nat.add_assoc (_ * _) s.x.toNat, hlast]
    rfl
  · have hbottom : s.y.toNat + 1 = s.height.toNat := by omega
    refine .inl ⟨?_, if_neg hrow⟩
    rw [← hbottom, Nat.mul_succ, Nat.mul_comm, Nat.add_assoc, hlast]

/-- The pixel code at the front of the unread bits. -/
def nextCode (b : Nat) (bits : List Bool) : Code := .ofNat 3 (natOfBits (bits.take b))

theorem readCodes_zero (b : Nat) (bits : List Bool) : readCodes b 0 bits = [] := rfl

theorem readCodes_succ (b m : Nat) (bits : List Bool) :
    readCodes b (m + 1) bits = nextCode b bits :: readCodes b m (bits.drop b) := rfl

/-- A frame is being decoded: `done` holds the codes read, `m` more of it are to come, `before` the frames completed. -/
structure FrameUnderway (before : List Frame) (done : List Code) (m : Nat) (s : State) : Prop where
  phase : s.phase = .fPixel
  x_lt : s.x.toNat < s.width.toNat
  y_lt : s.y.toNat < s.height.toNat
  left : s.pixelIndex + m = s.width.toNat * s.height.toNat
  frames : s.fs = before ++ [{ pix := done ++ List.replicate m 0, dur := none }]
  count : before.length = s.nframes
  place : done.length = s.pixelIndex

/-- The pixel at `(Y, X)` is still to come. -/
theorem FrameUnderway.left_pos {before : List Frame} {done : List Code} {m : Nat} {s : State}
    (hf : FrameUnderway before done m s) : 0 < m := by
  have hrow : (s.y.toNat + 1) * s.width.toNat ≤ s.height.toNat * s.width.toNat := Nat.mul_le_mul_right _ hf.y_lt
  have hleft := hf.left
  have hx := hf.x_lt
  rw [Nat.succ_mul, Nat.mul_comm s.height.toNat] at hrow
  rw [State.pixelIndex] at hleft
  omega

section
variable {bits : List Bool} {s : State} {before : List Frame} {done : List Code} {m : Nat}

/-- One pixel: its code goes to the first cell not yet read. -/
theorem step_pixel (hs : PayloadStream bits s) (hf : FrameUnderway before done (m + 1) s)
    (hb : pixelBits s.fmt ≤ bits.length) :
    step s = .next (State.nextPixel { s with
      cur := s.cur + pixelBits s.fmt
      fs := before ++ [{ pix := done ++ [nextCode (pixelBits s.fmt) bits] ++ List.replicate m 0, dur := none }] }) := by
  have hframe : s.fs[s.nframes]? = some { pix := done ++ List.replicate (m + 1) 0, dur := none } := by
    rw [hf.frames, ← hf.count, List.getElem?_concat_length]
  have hcell : s.pixelIndex < (done ++ List.replicate (m + 1) (0 : Code)).length := by
    simp [← hf.place]
  rw [hs.step_fPixel hf.phase hb, pixelElement_of_cell _ (hs.remaining ▸ hb) hframe hcell]
  simp [hf.frames, ← hf.count, ← hf.place, List.replicate_succ, List.set_append_right, nextCode]

/-- After it the frame is read, or still underway with one code more. -/
theorem step_pixel_cases (hs : PayloadStream bits s) (hf : FrameUnderway before done (m + 1) s)
    (hb : pixelBits s.fmt ≤ bits.length) :
    let code := nextCode (pixelBits s.fmt) bits
    let u : State := { s with
      cur := s.cur + pixelBits s.fmt
      fs := before ++ [{ pix := done ++ [code] ++ List.replicate m 0, dur := none }] }
    (m = 0 ∧ step s = .next { u with phase := .dTest }) ∨
      ∃ x y : BitVec 16, step s = .next { u with x := x, y := y } ∧
        FrameUnderway before (done ++ [code]) m { u with x := x, y := y } := by
  intro code u
  have hstep : step s = .next u.nextPixel := step_pixel hs hf hb
  have hleft := hf.left
  rcases State.nextPixel_cases (s := u) hf.x_lt hf.y_lt hs.width_le hs.height_le with
    ⟨hlast, hnext⟩ | ⟨x, y, hnext, hx, hy, hplace⟩
  · have hlast' : s.pixelIndex + 1 = s.width.toNat * s.height.toNat := hlast
    exact .inl ⟨by omega, hstep.trans (congrArg _ hnext)⟩
  · have hplace' : y.toNat * s.width.toNat + x.toNat = s.pixelIndex + 1 := hplace
    refine .inr ⟨x, y, hstep.trans (congrArg _ hnext), hf.phase, hx, hy, ?_, rfl, hf.count, ?_⟩
    · show y.toNat * s.width.toNat + x.toNat + m = s.width.toNat * s.height.toNat
      omega
    · rw [List.length_append, hf.place]
      exact hplace.symm

end

/-- The pixels that are left, one step each: their codes follow those read, the cursor passes their bits. -/
theorem run_pixels {before : List Frame} : ∀ {m : Nat} {bits : List Bool} {s : State} {done : List Code},
    PayloadStream bits s → FrameUnderway before done m s → m * pixelBits s.fmt ≤ bits.length →
    ∃ x y : BitVec 16, Host.Core.run core m s = .next { s with
      cur := s.cur + m * pixelBits s.fmt, x := x, y := y, phase := .dTest
      fs := before ++ [{ pix := done ++ readCodes (pixelBits s.fmt) m bits, dur := none }] }
  | 0, _, _, _, _, hf, _ => absurd hf.left_pos (Nat.lt_irrefl 0)
  | m + 1, bits, s, done, hs, hf, hbits => by
    rw [Nat.succ_mul] at hbits
    have hb : pixelBits s.fmt ≤ bits.length := by omega
    rcases step_pixel_cases hs hf hb with ⟨rfl, hstep⟩ | ⟨x, y, hstep, hnext⟩
    · refine ⟨s.x, s.y, (run_one (M := core) s).trans
        (hstep.trans (congrArg (Host.Outcome.next (σ := State)) ?_))⟩
      simp [readCodes_succ, readCodes_zero]
    · have hrest : m * pixelBits s.fmt ≤ (bits.drop (pixelBits s.fmt)).length := by
        rw [List.length_drop]; omega
      obtain ⟨x', y', hrun⟩ := run_pixels (hs.advance hb) hnext hrest
      refine ⟨x', y', (run_succ_of_step (M := core) m hstep).trans
        (hrun.trans (congrArg (Host.Outcome.next (σ := State)) ?_))⟩
      simp [readCodes_succ, Nat.succ_mul, Nat.add_assoc, Nat.add_comm]

end Sys2Proof.Machine
end

section
/-! PROOF. The payload run (R178): the steps of one frame, and the run to the end as the loop of `DecodeFrames`. -/

namespace Sys2Proof.Machine

/-- A run that got to a state goes on from there. -/
theorem run_add_of_run {M : Host.Core} {s t : M.State} {j : Nat} (k : Nat) (h : M.run j s = .next t) :
    M.run (j + k) s = M.run k t := by
  induction j generalizing s with
  | zero => cases h; rw [Nat.zero_add]
  | succ j ih =>
    rw [Host.Core.run] at h
    cases hstep : M.step s with
    | next u =>
      rw [hstep] at h
      rw [Nat.add_right_comm, run_succ_of_step _ hstep, ih h]
    | fault r => rw [hstep] at h; cases h
    | refused r => rw [hstep] at h; cases h

section
variable {bits : List Bool} {s : State} {before : List Frame} {px : List Code} (hs : PayloadStream bits s)
include hs

/-- After a frame's pixels, its duration where 8 bits are unread (R174, R175). -/
theorem run_duration (hp : s.phase = .dTest) (hfs : s.fs = before ++ [{ pix := px, dur := none }])
    (hcount : before.length = s.nframes) (h8 : 8 ≤ bits.length) :
    Host.Core.run core 2 s = .next { s with
      cur := s.cur + 8, fs := before ++ [{ pix := px, dur := some (.ofNat 8 (natOfBits (bits.take 8))) }]
      nframes := s.nframes + 1, phase := .fTest } := by
  have hframe : s.fs[s.nframes]? = some { pix := px, dur := none } := by
    rw [hfs, ← hcount, List.getElem?_concat_length]
  have htest : step s = .next { s with phase := .dRead } :=
    (hs.step_dTest hp).trans (execDurTest_duration (hs.remaining ▸ h8))
  have hread : PayloadStream bits { s with phase := .dRead } := hs.advance (Nat.zero_le _)
  have hdur := (hread.step_dRead rfl h8).trans (execDur_of_frame _ (hread.remaining ▸ h8) hframe)
  have hset : s.fs.set s.nframes { pix := px, dur := some (.ofNat 8 (natOfBits (bits.take 8))) } =
      before ++ [{ pix := px, dur := some (.ofNat 8 (natOfBits (bits.take 8))) }] := by
    simp [hfs, ← hcount]
  rw [← hset]
  exact (run_succ_of_step (M := core) 1 htest).trans ((run_one (M := core) _).trans hdur)

theorem run_no_duration (hp : s.phase = .dTest) (h8 : bits.length < 8) :
    Host.Core.run core 1 s = .next { s with nframes := s.nframes + 1, phase := .fTest } :=
  (run_one (M := core) s).trans ((hs.step_dTest hp).trans (execDurTest_none (hs.remaining ▸ h8)))

/-- A frame begun (R172): all its codes are to come. -/
theorem PayloadStream.beginFrame (hcount : s.fs.length = s.nframes) :
    PayloadStream bits s.beginFrame ∧ FrameUnderway s.fs [] (s.width.toNat * s.height.toNat) s.beginFrame := by
  refine ⟨hs.advance (Nat.zero_le _), rfl, hs.width_pos, hs.height_pos, ?_, ?_, hcount, ?_⟩
  · simp [State.pixelIndex]
  · simp [← hcount, zeroFrame]
  · simp [State.pixelIndex]

/-- From one `F_TEST` to the next: a frame, read at the cursor as `DecodeFrames` reads it. -/
theorem run_frame (hp : s.phase = .fTest) (hcount : s.fs.length = s.nframes)
    (hblock : s.width.toNat * s.height.toNat * pixelBits s.fmt ≤ bits.length)
    (hroom : s.build.maxFrames ≠ some s.nframes) :
    ∃ (k : Nat) (x y : BitVec 16), Host.Core.run core k s = .next { s with
      cur := s.cur + frameWidth (s.width.toNat * s.height.toNat * pixelBits s.fmt) bits.length, x := x, y := y
      fs := s.fs ++ [firstFrame (pixelBits s.fmt) (s.width.toNat * s.height.toNat) bits]
      nframes := s.nframes + 1, phase := .fTest } := by
  have hbegin : step s = .next s.beginFrame :=
    (hs.step_fTest hp).trans (execFrameTest_begin (by rwa [hs.frameBits, hs.remaining]) hroom)
  obtain ⟨hstream, hframe⟩ := hs.beginFrame hcount
  obtain ⟨x, y, hpixels⟩ := run_pixels hstream hframe hblock
  have hrest := hs.advance hblock (x := x) (y := y) (nf := s.nframes) (p := .dTest)
    (fs := s.fs ++ [{ pix := readCodes (pixelBits s.fmt) (s.width.toNat * s.height.toNat) bits, dur := none }])
  have hrun := (run_succ_of_step (M := core) _ hbegin).trans hpixels
  by_cases hdur : s.width.toNat * s.height.toNat * pixelBits s.fmt + 8 ≤ bits.length
  · refine ⟨_, x, y, (run_add_of_run (M := core) 2 hrun).trans ?_⟩
    rw [firstFrame_of_duration hdur, frameWidth_of_duration hdur, ← Nat.add_assoc]
    exact run_duration hrest rfl rfl hcount (by rw [List.length_drop]; omega)
  · refine ⟨_, x, y, (run_add_of_run (M := core) 1 hrun).trans ?_⟩
    rw [firstFrame_of_no_duration (Nat.not_le.1 hdur), frameWidth_of_no_duration (Nat.not_le.1 hdur)]
    exact run_no_duration hrest rfl (by rw [List.length_drop]; omega)

end

/-- `k` steps end the run as a result of the loop says (R178): the frames and the residue in `DONE`, or the error. -/
def RunEnds (k : Nat) (s : State) : Option (List Frame × List Bool) → Prop
  | some (frames, rest) =>
    ∃ t, Host.Core.run core k s = .next t ∧ t.phase = .done ∧ t.fs = frames ∧ t.nframes = frames.length ∧
      t.remaining = rest.length ∧
      t = { s with cur := t.cur, x := t.x, y := t.y, fs := t.fs, nframes := t.nframes, phase := .done }
  | none => ∃ pos, Host.Core.run core k s = .next (s.raise .capacityExceeded pos)

/-- Steps before it that write only the payload's registers do not show in how a run ends. -/
theorem RunEnds.of_run {j k cur nf : Nat} {x y : BitVec 16} {fs : List Frame} {p : Phase} {s : State}
    {r : Option (List Frame × List Bool)}
    (hrun : Host.Core.run core j s =
      .next { s with cur := cur, x := x, y := y, fs := fs, nframes := nf, phase := p })
    (h : RunEnds k { s with cur := cur, x := x, y := y, fs := fs, nframes := nf, phase := p } r) :
    RunEnds (j + k) s r := by
  have hadd := run_add_of_run (M := core) k hrun
  match r, h with
  | some (_, _), ⟨t, ht, hend⟩ => exact ⟨t, hadd.trans ht, hend⟩
  | none, ⟨pos, hraise⟩ => exact ⟨pos, hadd.trans hraise⟩

/-- The run from an `F_TEST` is the loop from there, given a unit of fuel for each unread bit. -/
theorem run_frameLoop : ∀ {fuel : Nat} {bits : List Bool} {s : State}, PayloadStream bits s → s.phase = .fTest →
    s.fs.length = s.nframes → bits.length < fuel →
    ∃ k, RunEnds k s
      (frameLoop s.build.maxFrames (pixelBits s.fmt) (s.width.toNat * s.height.toNat) fuel s.fs bits)
  | 0, _, _, _, _, _, hfuel => absurd hfuel (Nat.not_lt_zero _)
  | fuel + 1, bits, s, hs, hp, hcount, hfuel => by
    have hstep := (run_one (M := core) s).trans (hs.step_fTest hp)
    have hframeBits := hs.frameBits
    have hrem := hs.remaining
    rcases Nat.lt_or_ge bits.length (s.width.toNat * s.height.toNat * pixelBits s.fmt) with hshort | hblock
    · rw [frameLoop_stop _ _ hshort]
      exact ⟨1, _, hstep.trans (execFrameTest_stop (by omega)), rfl, rfl, hcount.symm, hrem, rfl⟩
    by_cases hfull : s.build.maxFrames = some s.nframes
    · rw [frameLoop_full _ hblock (hcount ▸ hfull)]
      exact ⟨1, s.cur, hstep.trans (execFrameTest_full (by omega) hfull)⟩
    · have hpos := hs.frameBits_pos
      have hblockWidth := le_frameWidth (s.width.toNat * s.height.toNat * pixelBits s.fmt) bits.length
      have hfits := frameWidth_le hblock
      have hcount' : (s.fs ++ [firstFrame (pixelBits s.fmt) (s.width.toNat * s.height.toNat) bits]).length =
          s.nframes + 1 := by rw [List.length_append, hcount]; rfl
      obtain ⟨j, x, y, hframe⟩ := run_frame hs hp hcount hblock hfull
      obtain ⟨k, hend⟩ := run_frameLoop (fuel := fuel) (hs.advance hfits (x := x) (y := y)) rfl hcount'
        (by rw [List.length_drop]; omega)
      rw [frameLoop_frame _ hblock (hcount ▸ hfull)]
      exact ⟨j + k, RunEnds.of_run hframe hend⟩

/-- Settles O35: at the first `F_TEST` the frame store is empty, and the loop's fuel is one more than the bits. -/
theorem payloadRunIsDecodeFrames : Obligations.PayloadRunIsDecodeFrames := by
  intro s bits hinv hp hn hsilent hbits
  have hcount : s.fs.length = s.nframes := by simpa [hp, inFrame] using hinv.frame_count
  have hempty : s.fs = [] := List.eq_nil_of_length_eq_zero (hcount.trans hn)
  have hs := hinv.payloadStream (by rw [hp]; rfl) hsilent hbits
  have hrun := run_frameLoop hs hp hcount (Nat.lt_succ_self _)
  rw [hempty] at hrun
  exact hrun

end Sys2Proof.Machine
end

section
/-! PROOF. The payload select of a raw stream (R200): `SEL_RAW` from `P_SELECT`, and the source, cursor and limit there. -/

namespace Sys2Proof.Machine

theorem execSelRaw_eq (s : State) : execSelRaw s = .next { s with phase := .fTest } := rfl

/-- `SEL_RAW` is of no bits, so `P_SELECT` of a raw stream reads nothing (R200). -/
theorem step_pSelect_raw {s : State} (hsilent : s.hostTurns = []) (hp : s.phase = .pSelect) (hc : s.cmp = 0) :
    step s = execSelRaw s := by
  have hw : elementWidth s.ctx = 0 := by simp [elementWidth, hp, hc]
  have hd : decode s.ctx [] = .ok (.selRaw, []) := by simp [decode, hp, hc]
  exact step_of_decode hsilent (by simp [hp]) (hw ▸ Nat.zero_le _) (hw ▸ rfl) hd

namespace Inv
variable {s : State} (hs : Inv s)
include hs

/-- While busy in `SB` the limit is the stream's (R22, R131). -/
theorem limit_of_src_sb (hbusy : s.busy = true) (hsrc : s.src = .sb) : s.limit = 8 * s.streamLen := by
  obtain ⟨n, hlimit, -, hn⟩ := hs.source_readable hbusy
  rw [hlimit, hn hsrc]

/-- `P_SELECT` is entered at the header's end, the source still `SB` (R200). -/
theorem src_cur_limit_of_pSelect (hp : s.phase = .pSelect) :
    s.src = .sb ∧ s.cur = 6 + 2 * s.dimBits ∧ s.limit = 8 * s.streamLen := by
  obtain ⟨hsrc, hcur, -⟩ := hs.header_place (6 + 2 * s.dimBits) (by rw [hp]; rfl)
  exact ⟨hsrc, hcur, hs.limit_of_src_sb (by rw [State.busy, hp]; decide) hsrc⟩

end Inv

/-- Settles O21: `P_SELECT` of a raw stream takes `SEL_RAW`; the invariant places the source, cursor and limit. -/
theorem rawPayloadSelected : Obligations.RawPayloadSelected :=
  ⟨execSelRaw_eq, fun s hsilent hp hc => (step_pSelect_raw hsilent hp hc).trans (execSelRaw_eq s),
    fun _ hs hp => hs.src_cur_limit_of_pSelect hp⟩

end Sys2Proof.Machine
end

section
/-! PROOF. Fields written and finished read back (R239): a field in front of what follows it, pad included. -/

namespace Sys2Proof.Machine

/-- A field at a written place of a finished buffer reads back, the `Finish` pad after it. -/
theorem natOfBits_readBits_finishBytes {m : Memory} {xs bits : List Bool} {n v : Nat} (hm : Holds m (finishBytes bits))
    (hp : xs ++ bitsOfNat n v <+: bits) (hv : v < 2 ^ n) : (readBits m xs.length n).map natOfBits = some v := by
  have hle : xs.length + n ≤ bits.length := by simpa using hp.length_le
  have hwhole : xs.length + n ≤ 8 * (finishBytes bits).length := by
    rw [eight_mul_length_finishBytes]; exact hle.trans (Nat.le_add_right _ _)
  have hpad : xs ++ bitsOfNat n v <+: bitsOfBytes (finishBytes bits) := by
    rw [bitsOfBytes_finishBytes]; exact hp.trans (List.prefix_append _ _)
  rw [readBits_eq hm hwhole, Option.map_some]
  exact congrArg some (field_of_prefix hpad rfl hv)

/-- Settles O43: the fields before one, then its own bits, are the front of all the bits written. -/
theorem writtenFieldsReadBack : Obligations.WrittenFieldsReadBack := by
  intro m before after n v _ _ hv write hm
  have hp : write before ++ bitsOfNat n v <+: write (before ++ (n, v) :: after) := by
    simp only [write, List.flatMap_append, List.flatMap_cons, ← List.append_assoc, List.prefix_append]
  exact natOfBits_readBits_finishBytes hm hp hv

end Sys2Proof.Machine
end

section
/-! PROOF. Decode and encode agree (R91, R104, R106): an element's bits decode to it, and what is decoded is encoded in
the bits it was read from. -/

namespace Sys2Proof

/-- A field of the stream's bits, as a word and back. -/
theorem exists_bitsOfNat_eq {n : Nat} {bits : List Bool} (hn : bits.length = n) :
    ∃ v : BitVec n, v = .ofNat n (natOfBits bits) ∧ bitsOfNat n v.toNat = bits := by
  subst hn
  refine ⟨_, rfl, ?_⟩
  rw [BitVec.toNat_ofNat, Nat.mod_eq_of_lt (natOfBits_lt bits), bitsOfNat_natOfBits]

/-- A field written again is the bits it was read from. -/
theorem bitsOfNat_field {bits : List Bool} {start n : Nat} (h : start + n ≤ bits.length) :
    bitsOfNat n (field bits start n) = (bits.drop start).take n := by
  have hlen : ((bits.drop start).take n).length = n := by simp; omega
  have hfield := bitsOfNat_natOfBits ((bits.drop start).take n)
  rwa [hlen] at hfield

/-! ## From an element to its bits and back -/

theorem decode_field_bits {c : Ctx} {n v : Nat} {mk : Nat → Instr} {rest : List Bool} (hv : v < 2 ^ n)
    (hd : ∀ bits, decode c bits = decodeField n mk bits) :
    decode c (bitsOfNat n v ++ rest) = .ok (mk v, rest) := by
  rw [hd, decodeField_bitsOfNat hv]

/-- The header bits of `L`-bit dimensions decode to the header format of `L - 1`. -/
theorem decode_headerBits {c : Ctx} {l : Nat} (hl : l < 16) (f m : Bit) (w h : BitVec (l + 1)) (rest : List Bool)
    (hw : (decide (c.phase = .hFmt) && c.whole) = true) :
    decode c (headerBits (l + 1) f m w h ++ rest) = .ok (headerInstr l f m w.toNat h.toNat, rest) := by
  obtain ⟨hp, hwhole⟩ : c.phase = .hFmt ∧ c.whole = true := by simpa using hw
  simp only [decode, hp, hwhole, if_true]
  exact decodeHeader_bits f m hl w.isLt h.isLt rest

/-- Settles O1: each field decodes to its value; the header formats differ in their `LEN` only. -/
theorem decodeInvertsEncode : Obligations.DecodeInvertsEncode := by
  intro c i rest hw
  cases i with
  | hdrL1 f m w h | hdrL2 f m w h | hdrL3 f m w h | hdrL4 f m w h | hdrL5 f m w h | hdrL6 f m w h | hdrL7 f m w h
  | hdrL8 f m w h | hdrL9 f m w h | hdrL10 f m w h | hdrL11 f m w h | hdrL12 f m w h | hdrL13 f m w h
  | hdrL14 f m w h | hdrL15 f m w h | hdrL16 f m w h =>
    simpa [headerInstr, encode] using decode_headerBits (by decide) f m w h rest hw
  | fmt f =>
    obtain ⟨hp, hwhole⟩ : c.phase = .hFmt ∧ c.whole = false := by simpa [wellFormed] using hw
    simpa [encode] using decode_field_bits (mk := fun v => .fmt (.ofNat 1 v)) f.isLt (by simp [decode, hp, hwhole])
  | cmp m =>
    have hp : c.phase = .hCmp := by simpa [wellFormed] using hw
    simpa [encode] using decode_field_bits (mk := fun v => .cmp (.ofNat 1 v)) m.isLt (by simp [decode, hp])
  | len l =>
    have hp : c.phase = .hLen := by simpa [wellFormed] using hw
    simpa [encode] using decode_field_bits (mk := fun v => .len (.ofNat 4 v)) l.isLt (by simp [decode, hp])
  | wm1 w =>
    obtain ⟨hp, hfit⟩ : c.phase = .hWidth ∧ w.toNat < 2 ^ (c.len.toNat + 1) := by simpa [wellFormed] using hw
    simpa [encode] using decode_field_bits (mk := fun v => .wm1 (.ofNat 16 v)) hfit (by simp [decode, hp])
  | hm1 h =>
    obtain ⟨hp, hfit⟩ : c.phase = .hHeight ∧ h.toNat < 2 ^ (c.len.toNat + 1) := by simpa [wellFormed] using hw
    simpa [encode] using decode_field_bits (mk := fun v => .hm1 (.ofNat 16 v)) hfit (by simp [decode, hp])
  | pix1 v =>
    obtain ⟨hp, hf⟩ : c.phase = .fPixel ∧ c.fmt = 0 := by simpa [wellFormed] using hw
    simpa [encode] using decode_field_bits (mk := fun v => .pix1 (.ofNat 1 v)) v.isLt (by simp [decode, hp, hf])
  | pix3 v =>
    obtain ⟨hp, hf⟩ : c.phase = .fPixel ∧ c.fmt = 1 := by simpa [wellFormed] using hw
    simpa [encode] using decode_field_bits (mk := fun v => .pix3 (.ofNat 3 v)) v.isLt (by simp [decode, hp, hf])
  | dur d =>
    have hp : c.phase = .dRead := by simpa [wellFormed] using hw
    simpa [encode] using decode_field_bits (mk := fun v => .dur (.ofNat 8 v)) d.isLt (by simp [decode, hp])
  | cbyte bytes =>
    obtain ⟨⟨hp, hc⟩, hlen⟩ : (c.phase = .pSelect ∧ c.cmp = 1) ∧ bytes.length = compressedBytes c := by
      simpa [wellFormed, compressedBytes] using hw
    have hwidth : elementWidth c = c.skip + 8 * bytes.length := by simp [elementWidth, hp, hc, hlen]
    have hskip : (List.replicate c.skip false ++ bitsOfBytes bytes ++ rest).drop c.skip = bitsOfBytes bytes ++ rest := by
      rw [List.append_assoc, List.drop_left' List.length_replicate]
    have hrest : (List.replicate c.skip false ++ bitsOfBytes bytes ++ rest).drop (elementWidth c) = rest :=
      List.drop_left' (by simp [hwidth])
    have he : encode c (.cbyte bytes) = List.replicate c.skip false ++ bitsOfBytes bytes := rfl
    rw [he]
    simp only [decode, hp, hc, if_true]
    rw [if_neg (by simp [hwidth]), hskip, hrest, ← hlen, bytesOfBits_bitsOfBytes]
  | pad n =>
    obtain ⟨hp, rfl⟩ : c.phase = .done ∧ n = c.rem := by simpa [wellFormed] using hw
    simp only [decode, encode, hp]
    rw [List.drop_left' List.length_replicate]
  | hdrCheck =>
    have hp : c.phase = .hCheck := by simpa [wellFormed] using hw
    simp [decode, encode, hp]
  | selRaw =>
    obtain ⟨hp, hc⟩ : c.phase = .pSelect ∧ c.cmp = 0 := by simpa [wellFormed] using hw
    simp [decode, encode, hp, hc]
  | frameTest =>
    have hp : c.phase = .fTest := by simpa [wellFormed] using hw
    simp [decode, encode, hp]
  | durTest =>
    have hp : c.phase = .dTest := by simpa [wellFormed] using hw
    simp [decode, encode, hp]

/-! ## From bits to the element and back -/

/-- The header format of `l` writes its fields in the order of R91. -/
theorem encode_headerInstr (c : Ctx) {l : Nat} (hl : l < 16) (f m : Bit) (w h : Nat) :
    encode c (headerInstr l f m w h) =
      bitsOfNat 1 f.toNat ++ bitsOfNat 1 m.toNat ++ bitsOfNat 4 l ++ bitsOfNat (l + 1) w ++ bitsOfNat (l + 1) h := by
  have hmod (n v : Nat) : bitsOfNat n (v % 2 ^ n) = bitsOfNat n v := bitsOfNat_mod n v n le_rfl
  interval_cases l <;> simp only [headerInstr, encode, headerBits, BitVec.toNat_ofNat, hmod]

/-- What a header's decoding reads, and what it leaves. -/
theorem decodeHeader_ok {bits rest : List Bool} {i : Instr} (h : decodeHeader bits = .ok (i, rest)) :
    let l := field bits 2 4
    6 + 2 * (l + 1) ≤ bits.length ∧ rest = bits.drop (6 + 2 * (l + 1)) ∧
      i = headerInstr l (.ofNat 1 (field bits 0 1)) (.ofNat 1 (field bits 1 1)) (field bits 6 (l + 1))
        (field bits (6 + (l + 1)) (l + 1)) := by
  unfold decodeHeader at h
  simp only at h
  split at h
  · cases h
  · split at h
    · cases h
    · cases h
      exact ⟨by omega, rfl, rfl⟩

theorem take_add_field {bits : List Bool} {k n v : Nat} (hv : v = field bits k n) (h : k + n ≤ bits.length) :
    bits.take (k + n) = bits.take k ++ bitsOfNat n v := by
  rw [hv, bitsOfNat_field h, List.take_add]

/-- A header decoded is encoded in the bits it was read from. -/
theorem encode_of_decodeHeader {c : Ctx} {bits rest : List Bool} {i : Instr} (h : decodeHeader bits = .ok (i, rest)) :
    encode c i ++ rest = bits := by
  obtain ⟨hlen, rfl, rfl⟩ := decodeHeader_ok h
  have hl : field bits 2 4 < 2 ^ 4 := field_lt bits 2 4
  have hbit (k : Nat) : (BitVec.ofNat 1 (field bits k 1)).toNat = field bits k 1 :=
    BitVec.toNat_ofNat .. ▸ Nat.mod_eq_of_lt (field_lt bits k 1)
  rw [encode_headerInstr c hl, hbit, hbit]
  generalize hL : field bits 2 4 + 1 = L at hlen ⊢
  have htake : bits.take (6 + 2 * L) = bitsOfNat 1 (field bits 0 1) ++ bitsOfNat 1 (field bits 1 1) ++
      bitsOfNat 4 (field bits 2 4) ++ bitsOfNat L (field bits 6 L) ++ bitsOfNat L (field bits (6 + L) L) := by
    rw [show 6 + 2 * L = 6 + L + L by omega, take_add_field rfl (by omega), take_add_field rfl (by omega),
      show bits.take 6 = bits.take (2 + 4) from rfl, take_add_field rfl (by omega),
      show bits.take 2 = bits.take (1 + 1) from rfl, take_add_field rfl (by omega),
      show bits.take 1 = bits.take (0 + 1) from rfl, take_add_field rfl (by omega)]
    rfl
  rw [← htake, List.take_append_drop]

/-- A field decoded is written in the bits it was read from, and as many bits are left as it did not take. -/
theorem encode_of_decodeField {c : Ctx} {n : Nat} {mk : Nat → Instr} {bits rest : List Bool} {i : Instr}
    (h : decodeField n mk bits = .ok (i, rest)) (he : ∀ v, v < 2 ^ n → encode c (mk v) = bitsOfNat n v) :
    encode c i ++ rest = bits := by
  obtain ⟨hlen, rfl, rfl⟩ := decodeField_ok h
  rw [he _ (field_lt bits 0 n), bitsOfNat_field (by omega), List.drop_zero, List.take_append_drop]

theorem encode_of_decode {c : Ctx} {bits rest : List Bool} {i : Instr} (hdone : c.phase ≠ .done)
    (hskip : c.phase = .pSelect → c.skip = 0) (h : decode c bits = .ok (i, rest)) : encode c i ++ rest = bits := by
  have hmod {n v : Nat} (hv : v < 2 ^ n) : (BitVec.ofNat n v).toNat = v := by
    rw [BitVec.toNat_ofNat, Nat.mod_eq_of_lt hv]
  have hdim {v : Nat} (hv : v < 2 ^ (c.len.toNat + 1)) : (BitVec.ofNat 16 v).toNat = v :=
    hmod (hv.trans_le (Nat.pow_le_pow_right Nat.two_pos c.len.isLt))
  cases hp : c.phase <;> simp only [decode, hp] at h
  case idle | error => cases h
  case hFmt =>
    split at h
    · exact encode_of_decodeHeader h
    · exact encode_of_decodeField h fun v hv => by simp only [encode, hmod hv]
  case hCmp | hLen | dRead => exact encode_of_decodeField h fun v hv => by simp only [encode, hmod hv]
  case hWidth | hHeight => exact encode_of_decodeField h fun v hv => by simp only [encode, hdim hv]
  case fPixel =>
    split at h <;> exact encode_of_decodeField h fun v hv => by simp only [encode, hmod hv]
  case pSelect =>
    split at h
    · split at h
      · cases h
      · rename_i hc hlen
        cases h
        have hwidth : elementWidth c = 8 * compressedBytes c := by simp [elementWidth, hp, hc, hskip hp]
        rw [encode, hskip hp, List.drop_zero, bitsOfBytes_bytesOfBits _ _ (by omega), hwidth]
        exact List.take_append_drop ..
    · cases h; rfl
  case hCheck | fTest | dTest => cases h; rfl
  case done => exact absurd hp hdone

/-- Settles O2, by the sequencer state that selects the element. -/
theorem decodedBitsAreTheElement : Obligations.DecodedBitsAreTheElement :=
  fun _ _ _ _ => encode_of_decode

theorem length_encode_of_append {c : Ctx} {bits rest : List Bool} {i : Instr} {n : Nat}
    (he : encode c i ++ rest = bits) (hrest : rest = bits.drop n) (hn : n ≤ bits.length) : (encode c i).length = n := by
  have hlen := congrArg List.length he
  rw [List.length_append, hrest, List.length_drop] at hlen
  omega

/-- Outside `DONE` and a header taken whole the decoder leaves what the element's width does not take. -/
theorem decode_rest {c : Ctx} {bits rest : List Bool} {i : Instr} (hwhole : c.whole = false) (hdone : c.phase ≠ .done)
    (h : decode c bits = .ok (i, rest)) : rest = bits.drop (elementWidth c) := by
  unfold elementWidth
  cases hp : c.phase <;> simp only [decode, hp] at h
  case idle | error => cases h
  case hFmt =>
    simp only [hwhole, Bool.false_eq_true, if_false] at h ⊢
    exact (decodeField_ok h).2.2
  case hCmp | hLen | dRead | hWidth | hHeight => exact (decodeField_ok h).2.2
  case fPixel =>
    split at h
    case isTrue hf => simpa only [hf, if_true] using (decodeField_ok h).2.2
    case isFalse hf => simpa only [hf, if_false] using (decodeField_ok h).2.2
  case pSelect =>
    split at h
    case isTrue hc =>
      split at h
      · cases h
      · cases h; simp [elementWidth, hp, hc]
    case isFalse hc => cases h; rw [if_neg hc]; rfl
  case hCheck | fTest | dTest => cases h; rfl
  case done => exact absurd hp hdone

/-- A word of `n` bits is the element of a state that selects a field of `n` bits. -/
theorem decode_word {c : Ctx} {n : Nat} {mk : BitVec n → Instr} {bits : List Bool} (hlen : bits.length = n)
    (hd : decode c bits = decodeField n (fun v => mk (.ofNat n v)) bits) :
    ∃ v : BitVec n, decode c bits = .ok (mk v, []) ∧ bitsOfNat n v.toNat = bits := by
  obtain ⟨v, hv, hbits⟩ := exists_bitsOfNat_eq hlen
  refine ⟨v, ?_, hbits⟩
  rw [hd, decodeField_isOk _ hlen.ge, field, List.drop_zero, List.take_of_length_le hlen.le, ← hv,
    List.drop_eq_nil_of_le hlen.le]

/-- Settles O3: enough bits are always decoded, to a well formed element, which is encoded in them. -/
theorem noEncodingIsIllegal : Obligations.NoEncodingIsIllegal := by
  refine ⟨fun c bits hp hwhole hlen => ?_, fun c bits hidle herror hwhole hlen => ?_, fun c bits hp hf hlen => ?_,
    fun c bits hp hf hlen => ?_, fun c bits hp hlen => ?_⟩
  · obtain ⟨i, rest, hd⟩ := decodeHeader_isOk hlen
    have hdecode : decode c bits = .ok (i, rest) := by simpa [decode, hp, hwhole] using hd
    have he := encode_of_decodeHeader (c := c) hd
    obtain ⟨-, hrest, -⟩ := decodeHeader_ok hd
    exact ⟨i, rest, hdecode, decode_wellFormed hdecode, he, length_encode_of_append he hrest hlen⟩
  · obtain ⟨i, rest, hd⟩ := decode_isOk ⟨hidle, herror⟩ hwhole hlen
    refine ⟨i, rest, hd, decode_wellFormed hd, fun hdone hskip => ?_⟩
    have he := encode_of_decode hdone hskip hd
    exact ⟨he, length_encode_of_append he (decode_rest hwhole hdone hd) hlen⟩
  · exact decode_word hlen (by simp [decode, hp, hf])
  · exact decode_word hlen (by simp [decode, hp, hf])
  · exact decode_word hlen (by simp [decode, hp])

/-- Settles O4: each word is evaluated. -/
theorem tableWordsDecode : Obligations.TableWordsDecode := by
  unfold Obligations.TableWordsDecode
  decide

end Sys2Proof
end

section
/-! PROOF. The header's elements (R140 to R147): each field complete or cut off, as a meaning and as a step of the
machine; the check; the sixteen whole headers. -/

namespace Sys2Proof.Machine

/-! ## The fields, complete and cut off -/

section
variable {s : State}

theorem execCmp_long (c : Bit) (h : 1 ≤ s.remaining) :
    execCmp c s = .next { s with cmp := c, cur := s.cur + 1, phase := .hLen } := headerField_long _ h

theorem execLen_long (l : BitVec 4) (h : 4 ≤ s.remaining) :
    execLen l s = .next { s with len := l, cur := s.cur + 4, phase := .hWidth } := headerField_long _ h

theorem execWm1_long (w : BitVec 16) (h : s.dimBits ≤ s.remaining) :
    execWm1 w s = .next { s with
      width := .ofNat 17 (w.toNat + 1), cur := s.cur + s.dimBits, phase := .hHeight } := headerField_long _ h

theorem execHm1_long (v : BitVec 16) (h : s.dimBits ≤ s.remaining) :
    execHm1 v s = .next { s with
      height := .ofNat 17 (v.toNat + 1), cur := s.cur + s.dimBits, phase := .hCheck } := headerField_long _ h

theorem execFmt_short (f : Bit) (h : s.remaining < 1) : execFmt f s = .next (s.raise .truncatedStream s.cur) :=
  headerField_short _ h

theorem execCmp_short (c : Bit) (h : s.remaining < 1) : execCmp c s = .next (s.raise .truncatedStream s.cur) :=
  headerField_short _ h

theorem execLen_short (l : BitVec 4) (h : s.remaining < 4) : execLen l s = .next (s.raise .truncatedStream s.cur) :=
  headerField_short _ h

theorem execWm1_short (w : BitVec 16) (h : s.remaining < s.dimBits) :
    execWm1 w s = .next (s.raise .truncatedStream s.cur) := headerField_short _ h

theorem execHm1_short (v : BitVec 16) (h : s.remaining < s.dimBits) :
    execHm1 v s = .next (s.raise .truncatedStream s.cur) := headerField_short _ h

end

/-- Settles O8: the three fields of fixed width, complete. -/
theorem flagFieldsComplete : Obligations.FlagFieldsComplete :=
  ⟨fun f _ => execFmt_long f, fun c _ => execCmp_long c, fun l _ => execLen_long l⟩

/-- A dimension of 16 bits plus one fits 17. -/
theorem toNat_dimension (v : BitVec 16) : (BitVec.ofNat 17 (v.toNat + 1)).toNat = v.toNat + 1 :=
  BitVec.toNat_ofNat .. ▸ Nat.mod_eq_of_lt (Nat.add_lt_add_right v.isLt 1 |>.trans_le (by decide))

/-- Settles O9: the two fields of `L` bits, complete. -/
theorem dimensionFieldsComplete : Obligations.DimensionFieldsComplete :=
  ⟨fun w _ => execWm1_long w, fun h _ => execHm1_long h, toNat_dimension⟩

/-- Settles O10: the five fields, cut off. -/
theorem shortHeaderFieldRaises : Obligations.ShortHeaderFieldRaises := fun _ =>
  ⟨fun h f => execFmt_short f h, fun h c => execCmp_short c h, fun h l => execLen_short l h,
    fun h w => execWm1_short w h, fun h v => execHm1_short v h⟩

/-- Settles O12: the product fits 34 bits, or a dimension is zero. -/
theorem headerCheckComputesFrameBits : Obligations.HeaderCheckComputesFrameBits := by
  refine ⟨fun s hw hwle hh hhle => ⟨_, ?_, execHdrCheck_of_dims hw hh⟩, fun s => execHdrCheck_of_zero⟩
  rw [BitVec.toNat_ofNat, Nat.mod_eq_of_lt (frameBits_lt _ hwle hhle), pixelBits]

/-! ## The field steps of the machine -/

section
variable {s : State} {n : Nat} {mk : Nat → Instr} (hsilent : s.hostTurns = [])
  (hp : s.phase ≠ .idle ∧ s.phase ≠ .error) (hw : elementWidth s.ctx = n)
  (hd : ∀ operand, decode s.ctx operand = decodeField n mk operand)
include hsilent hp hw hd

/-- A state that selects a field of `n` bits takes the element of the bits read at the cursor. -/
theorem step_of_readBits {bits : List Bool} (hr : n ≤ s.remaining) (hread : readBits s.source s.cur n = some bits) :
    step s = exec (mk (natOfBits bits)) s := by
  have hlen := readBits_length hread
  have hfield : field bits 0 n = natOfBits bits := by rw [field, List.drop_zero, List.take_of_length_le hlen.le]
  exact step_of_decode hsilent hp (hw ▸ hr) (hw ▸ hread) (by rw [hd, decodeField_isOk mk hlen.ge, hfield])

/-- A field that does not fit is taken with a blank operand, which its meaning does not use (R131, R146). -/
theorem step_of_short {r : Res} (hr : s.remaining < n) (hraise : ∀ v, exec (mk v) s = r) : step s = r := by
  have hoperand : s.operandBits = some (List.replicate n false) := by rw [State.operandBits, hw, if_pos hr]
  have hfetch : s.fetch = some (mk (field (List.replicate n false) 0 n)) := by
    simp only [State.fetch, hoperand, hd, decodeField_isOk mk List.length_replicate.ge]
  rw [step_silent hsilent, decoderStep_of_fetch hfetch hp, hraise]

end

/-- A field of up to 16 bits, kept in a word of 16, plus one. -/
theorem dimension_of_field {v n : Nat} (hv : v < 2 ^ n) (hn : n ≤ 16) :
    BitVec.ofNat 17 ((BitVec.ofNat 16 v).toNat + 1) = BitVec.ofNat 17 (v + 1) := by
  rw [BitVec.toNat_ofNat, Nat.mod_eq_of_lt (hv.trans_le (Nat.pow_le_pow_right Nat.two_pos hn))]

section
variable {s : State} {n : Nat} {bits : List Bool} (hsilent : s.hostTurns = [])
include hsilent

theorem step_rdFmt (hgrain : s.build.grain = .perField) (hp : s.phase = .hFmt) (hr : 1 ≤ s.remaining)
    (hread : readBits s.source s.cur 1 = some bits) :
    step s = .next { s with fmt := .ofNat 1 (natOfBits bits), cur := s.cur + 1, phase := .hCmp } :=
  have hctx := State.ctx_of_none (State.wholeHeader?_eq_none (.inl hgrain))
  (step_of_readBits (mk := fun v => .fmt (.ofNat 1 v)) hsilent (by simp [hp]) (by simp [hctx, elementWidth, hp])
    (by simp [hctx, decode, hp]) hr hread).trans (execFmt_long _ hr)

theorem step_rdFmt_short (hgrain : s.build.grain = .perField) (hp : s.phase = .hFmt) (hr : s.remaining < 1) :
    step s = .next (s.raise .truncatedStream s.cur) :=
  have hctx := State.ctx_of_none (State.wholeHeader?_eq_none (.inl hgrain))
  step_of_short (mk := fun v => .fmt (.ofNat 1 v)) hsilent (by simp [hp]) (by simp [hctx, elementWidth, hp])
    (by simp [hctx, decode, hp]) hr fun _ => execFmt_short _ hr

theorem step_rdCmp (hp : s.phase = .hCmp) (hr : 1 ≤ s.remaining) (hread : readBits s.source s.cur 1 = some bits) :
    step s = .next { s with cmp := .ofNat 1 (natOfBits bits), cur := s.cur + 1, phase := .hLen } :=
  (step_of_readBits (mk := fun v => .cmp (.ofNat 1 v)) hsilent (by simp [hp]) (by simp [elementWidth, hp])
    (by simp [decode, hp]) hr hread).trans (execCmp_long _ hr)

theorem step_rdCmp_short (hp : s.phase = .hCmp) (hr : s.remaining < 1) :
    step s = .next (s.raise .truncatedStream s.cur) :=
  step_of_short (mk := fun v => .cmp (.ofNat 1 v)) hsilent (by simp [hp]) (by simp [elementWidth, hp])
    (by simp [decode, hp]) hr fun _ => execCmp_short _ hr

theorem step_rdLen (hp : s.phase = .hLen) (hr : 4 ≤ s.remaining) (hread : readBits s.source s.cur 4 = some bits) :
    step s = .next { s with len := .ofNat 4 (natOfBits bits), cur := s.cur + 4, phase := .hWidth } :=
  (step_of_readBits (mk := fun v => .len (.ofNat 4 v)) hsilent (by simp [hp]) (by simp [elementWidth, hp])
    (by simp [decode, hp]) hr hread).trans (execLen_long _ hr)

theorem step_rdLen_short (hp : s.phase = .hLen) (hr : s.remaining < 4) :
    step s = .next (s.raise .truncatedStream s.cur) :=
  step_of_short (mk := fun v => .len (.ofNat 4 v)) hsilent (by simp [hp]) (by simp [elementWidth, hp])
    (by simp [decode, hp]) hr fun _ => execLen_short _ hr

theorem step_rdWidth (hp : s.phase = .hWidth) (hn : s.dimBits = n) (hr : n ≤ s.remaining)
    (hread : readBits s.source s.cur n = some bits) :
    step s = .next { s with width := .ofNat 17 (natOfBits bits + 1), cur := s.cur + n, phase := .hHeight } := by
  subst hn
  have hctx := State.ctx_of_none (State.wholeHeader?_eq_none (s := s) (.inr (by simp [hp])))
  rw [step_of_readBits (mk := fun v => .wm1 (.ofNat 16 v)) hsilent (by simp [hp])
    (by simp [hctx, elementWidth, hp, State.dimBits]) (by simp [hctx, decode, hp, State.dimBits]) hr hread, exec_wm1,
    execWm1_long _ hr, dimension_of_field (n := s.dimBits) (readBits_length hread ▸ natOfBits_lt bits) s.len.isLt]

theorem step_rdWidth_short (hp : s.phase = .hWidth) (hr : s.remaining < s.dimBits) :
    step s = .next (s.raise .truncatedStream s.cur) :=
  have hctx := State.ctx_of_none (State.wholeHeader?_eq_none (s := s) (.inr (by simp [hp])))
  step_of_short (mk := fun v => .wm1 (.ofNat 16 v)) hsilent (by simp [hp])
    (by simp [hctx, elementWidth, hp, State.dimBits]) (by simp [hctx, decode, hp, State.dimBits]) hr
    fun _ => execWm1_short _ hr

theorem step_rdHeight (hp : s.phase = .hHeight) (hn : s.dimBits = n) (hr : n ≤ s.remaining)
    (hread : readBits s.source s.cur n = some bits) :
    step s = .next { s with height := .ofNat 17 (natOfBits bits + 1), cur := s.cur + n, phase := .hCheck } := by
  subst hn
  have hctx := State.ctx_of_none (State.wholeHeader?_eq_none (s := s) (.inr (by simp [hp])))
  rw [step_of_readBits (mk := fun v => .hm1 (.ofNat 16 v)) hsilent (by simp [hp])
    (by simp [hctx, elementWidth, hp, State.dimBits]) (by simp [hctx, decode, hp, State.dimBits]) hr hread, exec_hm1,
    execHm1_long _ hr, dimension_of_field (n := s.dimBits) (readBits_length hread ▸ natOfBits_lt bits) s.len.isLt]

theorem step_rdHeight_short (hp : s.phase = .hHeight) (hr : s.remaining < s.dimBits) :
    step s = .next (s.raise .truncatedStream s.cur) :=
  have hctx := State.ctx_of_none (State.wholeHeader?_eq_none (s := s) (.inr (by simp [hp])))
  step_of_short (mk := fun v => .hm1 (.ofNat 16 v)) hsilent (by simp [hp])
    (by simp [hctx, elementWidth, hp, State.dimBits]) (by simp [hctx, decode, hp, State.dimBits]) hr
    fun _ => execHm1_short _ hr

end

/-- Settles O11: each header state selects its field, whose bits are read or which is cut off. -/
theorem headerFieldSteps : Obligations.HeaderFieldSteps := fun _ hsilent hgrain =>
  ⟨fun _ => step_rdFmt hsilent hgrain, fun _ => step_rdCmp hsilent, fun _ => step_rdLen hsilent,
    fun _ hp => step_rdWidth hsilent hp rfl, fun _ hp => step_rdHeight hsilent hp rfl,
    fun hp hr => hp.elim (step_rdFmt_short hsilent hgrain · hr) (step_rdCmp_short hsilent · hr),
    step_rdLen_short hsilent,
    fun hp hr => hp.elim (step_rdWidth_short hsilent · hr) (step_rdHeight_short hsilent · hr)⟩

/-! ## The whole headers -/

theorem toNat_setWidth_sixteen {n : Nat} (hn : n ≤ 16) (v : BitVec n) : (v.setWidth 16).toNat = v.toNat :=
  BitVec.toNat_setWidth_of_le hn

/-- The whole header of `n`-bit dimensions, complete. -/
theorem wholeHeader_complete {s : State} {n : Nat} (hn1 : 1 ≤ n) (hn : n ≤ 16) (f c : Bit) {l : BitVec 4}
    (hl : l.toNat = n - 1) (hr : 6 + 2 * n ≤ s.remaining) (w h : BitVec n) :
    wholeHeader f c l (w.setWidth 16) (h.setWidth 16) s = .next (s.headerResult n f c w.toNat h.toNat) := by
  rw [wholeHeader_long hn1 f c hl _ _ hr, toNat_setWidth_sixteen hn, toNat_setWidth_sixteen hn]

/-- Settles O13: one lemma for the sixteen rows; the values fit their registers. -/
theorem wholeHeadersComplete : Obligations.WholeHeadersComplete := by
  refine ⟨fun s f c => ?_, fun s n f c w h hn1 hn => ⟨?_, toNat_dimension w, toNat_dimension h, ?_⟩⟩
  · refine ⟨?_, ?_, ?_, ?_, ?_, ?_, ?_, ?_, ?_, ?_, ?_, ?_, ?_, ?_, ?_, ?_⟩
    all_goals exact fun hr w h => wholeHeader_complete (by decide) (by decide) f c rfl hr w h
  · exact BitVec.toNat_ofNat .. ▸ Nat.mod_eq_of_lt (by omega)
  · have hlt : (w.toNat + 1) * (h.toNat + 1) * pixelBits f < 2 ^ 34 := frameBits_lt f w.isLt h.isLt
    exact BitVec.toNat_ofNat .. ▸ Nat.mod_eq_of_lt hlt

/-- Settles O14: one lemma for the sixteen rows. -/
theorem wholeHeadersTruncate : Obligations.WholeHeadersTruncate := by
  intro s f c
  refine ⟨?_, ?_, ?_, ?_, ?_, ?_, ?_, ?_, ?_, ?_, ?_, ?_, ?_, ?_, ?_, ?_⟩
  all_goals exact fun hr w h => wholeHeader_short (by decide) f c rfl _ _ hr

end Sys2Proof.Machine
end

section
/-! PROOF. The error entry (R258, R259), the inflate hand-off (R202, R253) and the elements of a frame (R172, R173, R175):
what each writes, and where. -/

namespace Sys2Proof.Machine

/-! ## Errors -/

/-- `STATUS` is a function of `STATE` (R36). -/
theorem status_eq_of_phase {s t : State} (h : s.phase = t.phase) : s.status = t.status := by
  simp only [State.status, State.errFlag, State.doneFlag, State.busy, h]

theorem status_of_error {s : State} (h : s.phase = .error) : s.status = 0xD4 :=
  (status_eq_of_phase (t := State.reset.raise .none 0) h).trans (by decide)

theorem status_of_hFmt {s : State} (h : s.phase = .hFmt) : s.status = 0x11 :=
  (status_eq_of_phase (t := State.reset.launch) h).trans (by decide)

/-- Settles O19. -/
theorem errorEntry : Obligations.ErrorEntry := fun _ _ _ =>
  ⟨rfl, rfl, rfl, rfl, rfl, rfl, rfl, rfl, rfl, rfl, rfl, rfl, rfl, rfl, rfl, rfl, status_of_error rfl, rfl, rfl, rfl,
    rfl, rfl, rfl⟩

/-- A write of `CTRL` that does something has one of its two bits. -/
theorem ctrl_bits_of_changes {v : Nat} {s t : State} (h : writeCtrl v s = .next t) (hne : t ≠ s) :
    v.testBit 0 = true ∨ v.testBit 1 = true := by
  by_contra hbits
  obtain ⟨h0, h1⟩ : v.testBit 0 = false ∧ v.testBit 1 = false := by simpa using hbits
  rw [writeCtrl_nothing s h1 h0] at h
  cases h
  exact hne rfl

/-- A host action that goes to another sequencer state is a write of `CTRL` or the reset. -/
theorem hostAct_changes_phase {a : HostAction} {s t : State} (h : hostAct a s = .next t) (hne : t.phase ≠ s.phase) :
    a = .reset ∨ ∃ v, a = .writeReg .ctrl v ∧ writeCtrl v s = .next t := by
  cases a with
  | reset => exact .inl rfl
  | writeReg r v =>
    cases r with
    | ctrl => exact .inr ⟨v, rfl, h⟩
    | streamLen =>
      simp only [hostAct, hostWriteReg, writeStreamLen] at h
      split at h <;> cases h
      exact absurd rfl hne
    | status | errcode | errpos | fmt | cmp | len | width | height | frameBits | nframes | remain =>
      cases h; exact absurd rfl hne
  | writeSb addr v =>
    simp only [hostAct, hostWriteSb] at h
    split at h <;> cases h
    exact absurd rfl hne
  | readReg r =>
    obtain ⟨-, rfl⟩ := hostReadReg_cases h
    exact absurd rfl hne
  | readPix f y x =>
    obtain ⟨-, -, -, fr, -, h⟩ := fetchFrame_cases h
    split at h <;> cases h
    exact absurd rfl hne
  | readDurv f =>
    obtain ⟨-, -, -, fr, -, h⟩ := fetchFrame_cases h
    cases h; exact absurd rfl hne
  | readDur f =>
    obtain ⟨-, -, -, fr, -, h⟩ := fetchFrame_cases h
    split at h <;> (cases h; exact absurd rfl hne)

/-- Settles O20: the decoder waits in `ERROR`; of the host's actions those of `CTRL` and the reset change the state. -/
theorem errorIsLeftByHostOnly : Obligations.ErrorIsLeftByHostOnly := by
  refine ⟨fun s t hp h => ?_, fun s t a hp h hne => ?_⟩
  · rw [decoderStep_quiet (.inr hp)] at h
    cases h; rfl
  · refine (hostAct_changes_phase h (hp ▸ hne)).imp_right fun ⟨v, ha, hv⟩ => ⟨v, ha, ctrl_bits_of_changes hv ?_⟩
    rintro rfl
    exact hne hp

/-! ## The inflate hand-off -/

theorem takeInflated_fail (s : State) : takeInflated none s = .next (s.raise .inflateFault (6 + 2 * s.dimBits)) := rfl

theorem takeInflated_fits {r : List Byte} {s : State} (h : 8 * r.length < 2 ^ s.build.cursorW) :
    takeInflated (some r) s = .next (s.switchSource r) := if_pos h

theorem takeInflated_long {r : List Byte} {s : State} (h : 2 ^ s.build.cursorW ≤ 8 * r.length) :
    takeInflated (some r) s = .refused .inflateTooLong := if_neg (Nat.not_lt.2 h)

/-- Settles O22, by the agent's answer. -/
theorem inflateHandOff : Obligations.InflateHandOff := by
  intro bytes s
  rw [exec_cbyte, execCbyte]
  cases Config.inflate bytes with
  | none => rfl
  | some r => rfl

/-- Settles O23: `IB` reads as the answer written to it. -/
theorem compressedPayloadCompletes : Obligations.CompressedPayloadCompletes := by
  intro bytes s hfits
  rw [exec_cbyte, execCbyte]
  cases hr : Config.inflate bytes with
  | none => exact ⟨_, takeInflated_fail s, fun _ => rfl, by simp⟩
  | some r =>
    refine ⟨_, takeInflated_fits (hfits r hr), by simp, fun r' hr' => ?_⟩
    cases hr'
    exact ⟨Memory.read_ofBytes r, rfl, rfl, rfl, rfl, rfl⟩

/-! ## The elements of a frame -/

/-- Settles O25: the frames completed are all there are, so the new one stands after them. -/
theorem frameTestBegins : Obligations.FrameTestBegins := by
  intro s hblock hroom hcount
  rw [exec_frameTest, execFrameTest_begin hblock hroom, State.beginFrame, List.take_of_length_le hcount.le]
  rfl

/-- Settles O26. -/
theorem frameStoreOverflowRaises : Obligations.FrameStoreOverflowRaises := fun _ => execFrameTest_full

theorem State.nextPixel_column {s : State} (h : s.x.toNat + 1 < s.width.toNat) :
    s.nextPixel = { s with x := s.x + 1 } := if_pos h

theorem State.nextPixel_row {s : State} (h : ¬ s.x.toNat + 1 < s.width.toNat) (h' : s.y.toNat + 1 < s.height.toNat) :
    s.nextPixel = { s with x := 0, y := s.y + 1 } := by
  rw [State.nextPixel, if_neg h, if_pos h']

theorem State.nextPixel_last {s : State} (h : ¬ s.x.toNat + 1 < s.width.toNat)
    (h' : ¬ s.y.toNat + 1 < s.height.toNat) : s.nextPixel = { s with phase := .dTest } := by
  rw [State.nextPixel, if_neg h, if_neg h']

/-- A pixel element is `pixelElement` of its width with its code, which a bit's zero extension is (R165). -/
theorem exec_pixel {i : Instr} {n : Nat} {code : Code}
    (hi : (∃ v : Bit, i = .pix1 v ∧ n = 1 ∧ code.toNat = v.toNat) ∨ (i = .pix3 code ∧ n = 3)) (s : State) :
    exec i s = pixelElement n code s := by
  rcases hi with ⟨v, rfl, rfl, hv⟩ | ⟨rfl, rfl⟩
  · have hcode : code = v.setWidth 3 := BitVec.eq_of_toNat_eq (hv.trans (BitVec.toNat_setWidth_of_le (by decide)).symm)
    rw [exec_pix1, execPix1, hcode]
  · rfl

/-- Settles O27: the pixel is stored, then `X`, `Y` and `STATE` step. -/
theorem pixelsStored : Obligations.PixelsStored := by
  intro s fr n i code hi hn hfr hcell u
  have hexec : exec i s = .next u.nextPixel := (exec_pixel hi s).trans (pixelElement_of_cell code hn hfr hcell)
  rw [hexec]
  exact ⟨fun h => by rw [State.nextPixel_column (s := u) h], fun h h' => by rw [State.nextPixel_row (s := u) h h'],
    fun h h' => by rw [State.nextPixel_last (s := u) h h']⟩

/-! ## The frame store, cell by cell -/

section
variable {fs : List Frame} {f : Nat} {fr : Frame} (hfr : fs[f]? = some fr)
include hfr

/-- The frame store with frame `f` replaced by one that agrees with it in a cell. -/
theorem cell_set_of_eq {fr' : Frame} {g j : Nat} (h : g = f → fr'.pix[j]? = fr.pix[j]?) :
    cell (fs.set f fr') g j = cell fs g j := by
  have hlt : f < fs.length := (List.getElem?_eq_some_iff.1 hfr).1
  unfold cell
  by_cases hg : g = f
  · subst hg
    rw [List.getElem?_set_self hlt, hfr]
    exact h rfl
  · rw [List.getElem?_set_ne (Ne.symm hg)]

theorem cell_set_pix_same {i : Nat} (hi : i < fr.pix.length) (v : Code) :
    cell (fs.set f { fr with pix := fr.pix.set i v }) f i = some v := by
  have hlt : f < fs.length := (List.getElem?_eq_some_iff.1 hfr).1
  rw [cell, List.getElem?_set_self hlt, Option.bind_some, List.getElem?_set_self hi]

theorem cell_set_pix_other {i g j : Nat} (h : (g, j) ≠ (f, i)) (v : Code) :
    cell (fs.set f { fr with pix := fr.pix.set i v }) g j = cell fs g j :=
  cell_set_of_eq hfr fun hg => List.getElem?_set_ne fun hj => h (by rw [hg, hj])

theorem cell_set_dur (d : Byte) (g j : Nat) : cell (fs.set f { fr with dur := some d }) g j = cell fs g j :=
  cell_set_of_eq hfr fun _ => rfl

theorem duration_set_pix (i : Nat) (v : Code) (g : Nat) :
    duration (fs.set f { fr with pix := fr.pix.set i v }) g = duration fs g := by
  have hlt : f < fs.length := (List.getElem?_eq_some_iff.1 hfr).1
  unfold duration
  by_cases hg : g = f
  · subst hg
    rw [List.getElem?_set_self hlt, hfr]
    rfl
  · rw [List.getElem?_set_ne (Ne.symm hg)]

theorem duration_set_same (d : Byte) : duration (fs.set f { fr with dur := some d }) f = some d := by
  have hlt : f < fs.length := (List.getElem?_eq_some_iff.1 hfr).1
  rw [duration, List.getElem?_set_self hlt, Option.bind_some]

end

theorem duration_set_other (fs : List Frame) (fr : Frame) {f g : Nat} (h : g ≠ f) :
    duration (fs.set f fr) g = duration fs g := by
  rw [duration, duration, List.getElem?_set_ne h.symm]

/-- The step to the next pixel writes `X`, `Y` and `STATE` (R173). -/
theorem State.nextPixel_eq (s : State) :
    s.nextPixel = { s with phase := s.nextPixel.phase, x := s.nextPixel.x, y := s.nextPixel.y } := by
  unfold State.nextPixel
  split
  · rfl
  · split <;> rfl

theorem State.nextPixel_phase_cases (s : State) : s.nextPixel.phase = s.phase ∨ s.nextPixel.phase = .dTest := by
  unfold State.nextPixel
  split
  · exact .inl rfl
  · split
    · exact .inl rfl
    · exact .inr rfl

/-- Settles O28: the store replaces one cell of one frame. -/
theorem pixelFrame : Obligations.PixelFrame := by
  intro s t i code hi h
  obtain ⟨n, hexec⟩ : ∃ n, exec i s = pixelElement n code s := by
    rcases hi with ⟨v, rfl, rfl⟩ | rfl
    · exact ⟨1, rfl⟩
    · exact ⟨3, rfl⟩
  obtain ⟨-, fr, hfr, hcell, rfl⟩ := pixelElement_cases (hexec ▸ h)
  rw [State.nextPixel_fs]
  refine ⟨cell_set_pix_same hfr hcell code, fun f j hne => cell_set_pix_other hfr hne code,
    duration_set_pix hfr s.pixelIndex code, ?_⟩
  rw [State.nextPixel_eq]

/-- Settles O30: the store replaces the duration of one frame. -/
theorem durationStored : Obligations.DurationStored := fun s d _ h8 hfr =>
  ⟨execDur_of_frame d h8 hfr, duration_set_same hfr d, fun _ hne => duration_set_other s.fs _ hne,
    fun g j => cell_set_dur hfr d g j, rfl⟩

end Sys2Proof.Machine
end

section
/-! PROOF. The host commands (R210 to R217, R280, R286): each access by its conditions, the resets, the registers read. -/

namespace Sys2Proof.Machine

/-! ## Writes -/

theorem hostAct_start (s : State) : hostAct (.writeReg .ctrl 1) s = startCommand s :=
  writeCtrl_start (v := 1) s rfl rfl

theorem hostAct_srst (s : State) : hostAct (.writeReg .ctrl 2) s = .next s.softReset :=
  writeCtrl_softReset (v := 2) s rfl

theorem startCommand_busy {s : State} (hb : s.busy = true) : startCommand s = .next s := if_pos hb

theorem startCommand_unwritten {s : State} (hb : s.busy = false) (hw : Memory.written s.sb s.streamLen = false) :
    startCommand s = .refused .launchOverUnwritten := by
  simp [startCommand, hb, hw]

/-- Settles O45: the launch, or nothing while `BUSY`. -/
theorem startBeginsARun : Obligations.StartBeginsARun :=
  ⟨fun s hb hw => ⟨(hostAct_start s).trans (startCommand_accepts hb hw), status_of_hFmt rfl⟩,
    fun s hb => (hostAct_start s).trans (startCommand_busy hb)⟩

/-- Settles O47. -/
theorem softReset : Obligations.SoftReset := hostAct_srst

/-- Settles O52: the register values by definition, `STATUS` and the read of `CTRL` by their lemmas. -/
theorem resetState : Obligations.ResetState :=
  ⟨rfl, rfl, rfl, rfl, rfl, rfl, rfl, rfl, rfl, rfl, rfl, rfl, rfl, rfl, rfl, rfl, rfl, by decide, rfl,
    hostReadReg_always _ (r := .ctrl) rfl⟩

/-- Settles O53. -/
theorem resetAction : Obligations.ResetAction := fun _ => rfl

/-! ## Reads -/

/-- A result or an error register, by the list of R213. -/
theorem not_readableWhileBusy {r : HostReg}
    (hr : r ∈ [HostReg.fmt, .cmp, .len, .width, .height, .frameBits, .nframes, .remain, .errcode, .errpos]) :
    readableWhileBusy r = false := by
  revert r; decide

theorem hostReadReg_busy {r : HostReg} {s : State} (hr : readableWhileBusy r = false) (hb : s.busy = true) :
    hostReadReg r s = .refused .hostReadWhileBusy := by
  simp [hostReadReg, hr, hb]

theorem fetchFrame_outOfRange {f : Nat} {b : Bool} (k : Frame → Res) {s : State}
    (h : ¬ (s.phase = .done ∧ f < s.nframes ∧ b = true)) : fetchFrame f b k s = .refused .frameStoreRead := by
  rw [fetchFrame, if_neg]
  simpa [State.frameReadable, and_assoc] using h

theorem fetchFrame_beforePoll {f : Nat} {b : Bool} (k : Frame → Res) {s : State} (hp : s.phase = .done)
    (hf : f < s.nframes) (hb : b = true) (hh : s.handedOver = false) :
    fetchFrame f b k s = .refused .hostReadBeforePoll := by
  simp [fetchFrame, State.frameReadable, hp, hf, hb, hh]

/-- Settles O48, access by access. -/
theorem refusedAccesses : Obligations.RefusedAccesses := by
  refine ⟨fun s hb => ⟨fun a v => if_pos hb, fun v => if_pos hb, fun r hr => ?_, ?_⟩, fun s f y x h => ?_,
    fun s f h => ⟨?_, ?_⟩, fun s hb hw => (hostAct_start s).trans (startCommand_unwritten hb hw),
    fun s r h => takeInflated_long h, fun s r v hctrl hlen => ?_, fun s => ⟨?_, ?_, ?_⟩⟩
  · exact hostReadReg_busy (not_readableWhileBusy hr) hb
  · exact (hostAct_start s).trans (startCommand_busy hb)
  · exact fetchFrame_outOfRange _ (by simpa using h)
  · exact fetchFrame_outOfRange _ (by simpa using h)
  · exact fetchFrame_outOfRange _ (by simpa using h)
  · cases r with
    | ctrl => exact absurd rfl hctrl
    | streamLen => exact absurd rfl hlen
    | status | errcode | errpos | fmt | cmp | len | width | height | frameBits | nframes | remain => rfl
  · exact hostReadReg_always s (r := .status) rfl
  · exact hostReadReg_always s (r := .streamLen) rfl
  · exact hostReadReg_always s (r := .ctrl) rfl

theorem State.resultsReadable_iff (s : State) :
    s.resultsReadable = true ↔ s.phase = .idle ∨ s.handedOver = true := by
  simp [State.resultsReadable]

theorem busy_eq_false_of_phase {s : State} (hp : s.phase = .idle ∨ s.phase = .done ∨ s.phase = .error) :
    s.busy = false := by
  have hnot : ¬ s.busy = true := by rw [s.busy_iff]; tauto
  simpa using hnot

/-- Where a `STATUS` read changes nothing, no read changes the record of the poll. -/
theorem State.handOver_eq {s : State} (h : s.phase = .idle ∨ s.handedOver = true) (r : HostReg) :
    s.handOver r = s.handedOver := by
  rcases h with h | h <;> cases r <;> simp [State.handOver, State.doneFlag, State.errFlag, h]

/-- A register reads as its value in `IDLE`, and in `DONE` and `ERROR` once handed over. -/
theorem hostReadReg_handedOver {s : State}
    (hp : s.phase = .idle ∨ (s.phase = .done ∨ s.phase = .error) ∧ s.handedOver = true)
    (r : HostReg) : hostReadReg r s = .next { s with hostData := some (hostRegValue r s) } := by
  have hread : s.phase = .idle ∨ s.handedOver = true := by tauto
  rw [hostReadReg_result r (busy_eq_false_of_phase (by tauto)) (s.resultsReadable_iff.2 hread), State.handOver_eq hread]

/-- The poll of a run that has ended hands its results over (R69, R214). -/
theorem hostReadReg_status_ended {s : State} (hp : s.phase = .done ∨ s.phase = .error) :
    hostReadReg .status s = .next { s with hostData := some s.status.toNat, handedOver := true } := by
  have hover : s.handOver .status = true := by rcases hp with hp | hp <;> simp [State.handOver, hp]
  rw [hostReadReg_always s (r := .status) rfl, hover]
  rfl

/-- Every register's value fits it (R34, R47 a). -/
theorem hostRegValue_lt {s : State} (hs : Inv s) (r : HostReg) : hostRegValue r s < 2 ^ hostRegWidth s.build r := by
  have hcur := hs.cur_le_limit
  have hlimit := hs.limit_fits
  cases r with
  | ctrl => exact Nat.two_pow_pos _
  | status => exact s.status.isLt
  | errcode => exact (errNumber s.errcode).isLt
  | errpos => exact hs.errpos_fits
  | streamLen =>
    have hfits := hs.streamLen_fits
    show s.streamLen < 2 ^ (s.build.cursorW - 3)
    rcases Nat.lt_or_ge s.build.cursorW 3 with hw | hw
    · have hsmall : 2 ^ s.build.cursorW ≤ 2 ^ 3 := Nat.pow_le_pow_right Nat.two_pos hw.le
      exact (by omega : s.streamLen < 1).trans_le Nat.one_le_two_pow
    · rw [← Nat.add_sub_cancel' hw, Nat.pow_add] at hfits
      omega
  | fmt => exact s.fmt.isLt
  | cmp => exact s.cmp.isLt
  | len => exact s.len.isLt
  | width => exact s.width.isLt
  | height => exact s.height.isLt
  | frameBits => exact s.frameBits.isLt
  | nframes =>
    have hn := hs.nframes_le
    show s.nframes < 2 ^ s.build.cursorW
    omega
  | remain => exact (Nat.sub_le _ _).trans_lt hlimit

/-- Settles O49: reads by the hand-over, ids by their table, values by the invariants. -/
theorem registersRead : Obligations.RegistersRead := by
  refine ⟨fun s hp => ?_, fun s r hp => ?_, fun s hp hh r hr => ?_, fun r r' => ⟨?_, ?_⟩,
    fun s r hs => hostRegValue_lt hs r, fun s hs hp r hr => ?_⟩
  · have hread := hostReadReg_handedOver hp
    exact ⟨hread .status, hread .errcode, hread .errpos, hread .streamLen, hread .fmt, hread .cmp, hread .len,
      hread .width, hread .height, hread .frameBits, hread .nframes, hread .remain⟩
  · refine ⟨_, hostReadReg_status_ended hp, rfl, ?_⟩
    refine (hostReadReg_handedOver (s := { s with hostData := _, handedOver := true }) (.inr ⟨hp, rfl⟩) r).trans ?_
    cases r <;> rfl
  · refine hostReadReg_early (not_readableWhileBusy hr) (busy_eq_false_of_phase (.inr hp)) ?_
    rcases hp with hp | hp <;> simp [State.resultsReadable, hp, hh]
  · cases r <;> decide
  · cases r <;> cases r' <;> simp [hostRegId]
  · obtain ⟨hcur, hlimit, -, hfmt, hcmp, hlen, hwidth, hheight, hframeBits, hnframes⟩ := hs.quiet hp
    simp only [List.mem_cons, List.not_mem_nil, or_false] at hr
    rcases hr with rfl | rfl | rfl | rfl | rfl | rfl | rfl | rfl <;>
      simp [hostRegValue, State.remaining, hlimit, hfmt, hcmp, hlen, hwidth, hheight, hframeBits, hnframes]

/-- Settles O50: a frame read in range, once handed over or before. -/
theorem frameStoreRead : Obligations.FrameStoreRead := by
  refine ⟨fun s f hp hh hf => ⟨fun y x c hy hx hcell => ?_, fun fr hfr => ?_, fun fr d hfr hd => ?_,
    fun fr hfr hd => ⟨Config.unsetDuration s.freeReads, ?_⟩⟩,
    fun s f hp hh hf => ⟨fun y x hy hx => ?_, ?_, ?_⟩⟩
  · obtain ⟨fr, hfr, hpix⟩ := Option.bind_eq_some_iff.1 hcell
    rw [hostAct, hostReadPix, decide_eq_true hy, decide_eq_true hx, Bool.true_and,
      fetchFrame_of_frame _ hp hf hh hfr, hpix]
  · exact fetchFrame_of_frame _ hp hf hh hfr
  · rw [hostAct, hostReadDur, fetchFrame_of_frame _ hp hf hh hfr, hd]
  · rw [hostAct, hostReadDur, fetchFrame_of_frame _ hp hf hh hfr, hd]
  · exact fetchFrame_beforePoll _ hp hf (by simp [hy, hx]) hh
  · exact fetchFrame_beforePoll _ hp hf rfl hh
  · exact fetchFrame_beforePoll _ hp hf rfl hh

/-! ## Steps and the host's turns -/

theorem step_hostAct {s : State} {a : HostAction} {turns : List (Option HostAction)} (h : s.hostTurns = some a :: turns) :
    step s = hostAct a { s with hostTurns := turns } := by
  simp [step, h]

theorem step_passed {s : State} {turns : List (Option HostAction)} (h : s.hostTurns = none :: turns) :
    step s = decoderStep { s with hostTurns := turns } := by
  simp [step, h]

/-- An element that decodes from its bits is taken, whatever the host's turns are. -/
theorem decoderStep_of_decode {s : State} {bits rest : List Bool} {i : Instr} (hlen : elementWidth s.ctx ≤ s.remaining)
    (hread : readBits s.source s.cur (elementWidth s.ctx) = some bits) (hd : decode s.ctx bits = .ok (i, rest)) :
    decoderStep s = exec i s := by
  refine decoderStep_of_fetch (State.fetch_of_decode hlen hread hd) ⟨fun hp => ?_, fun hp => ?_⟩ <;>
    simp [decode, hp] at hd

/-- Settles O55: the turn taken off does not show in the element fetched. -/
theorem stepRunsTheElement : Obligations.StepRunsTheElement :=
  ⟨fun _ _ _ _ hsilent hlen hread hd => (step_silent hsilent).trans (decoderStep_of_decode hlen hread hd),
    fun s _ _ _ turns hturn hlen hread hd =>
      (step_passed hturn).trans (decoderStep_of_decode (s := { s with hostTurns := turns }) hlen hread hd),
    fun _ _ _ => step_hostAct⟩

end Sys2Proof.Machine
end

section
/-! PROOF. The invariants (R47) after a reset, an error entry and a launch: nothing is left of a run but its buffers. -/

namespace Sys2Proof.Machine

/-- The cleared state meets the invariants, whatever error stands in it: in `IDLE` none, in `ERROR` one. -/
theorem inv_of_cleared (s : State) {p : Phase} {e : ErrCode} {pos n : Nat} {m m' : Memory}
    (hp : p = .idle ∨ p = .error) (he : e ≠ .none ↔ p = .error) (hpos : pos < 2 ^ s.build.cursorW)
    (hn : 8 * n < 2 ^ s.build.cursorW) (hm : Memory.wf m) (hm' : Memory.wf m') :
    Inv { s.cleared with phase := p, errcode := e, errpos := pos, streamLen := n, sb := m, ib := m' } where
  cur_le_limit := le_rfl
  limit_fits := Nat.two_pow_pos _
  streamLen_fits := hn
  errpos_fits := hpos
  error_iff := he
  quiet _ := ⟨rfl, rfl, rfl, rfl, rfl, rfl, rfl, rfl, rfl, rfl⟩
  header_place := by rcases hp with rfl | rfl <;> simp [headerCursor]
  width_read := by rcases hp with rfl | rfl <;> simp
  height_read := by rcases hp with rfl | rfl <;> simp
  header_known := by rcases hp with rfl | rfl <;> simp [headerKnown]
  pixel_left := by rcases hp with rfl | rfl <;> simp
  duration_left := by rcases hp with rfl | rfl <;> simp
  residue_short := by rcases hp with rfl | rfl <;> simp
  source_compressed := by simp
  frame_count := by rcases hp with rfl | rfl <;> rfl
  nframes_le := by rcases hp with rfl | rfl <;> exact le_rfl
  frame_full := by simp
  mono_codes := by simp
  handed_over := by simp
  sb_wf := hm
  ib_wf := hm'
  source_readable := by rcases hp with rfl | rfl <;> simp [State.busy, phaseBusy, phaseCode]

theorem inv_hardReset (s : State) : Inv s.hardReset :=
  inv_of_cleared s (.inl rfl) (by simp) (Nat.two_pow_pos _) (Nat.two_pow_pos _) .nil .nil

/-- Settles O58: reset is the cleared state in `IDLE`, its buffers empty. -/
theorem resetMeetsInvariants : Obligations.ResetMeetsInvariants :=
  inv_of_cleared State.reset (.inl rfl) (by simp) (by simp) (by simp) .nil .nil

namespace Inv
variable {s : State} (hs : Inv s)
include hs

theorem raise {e : ErrCode} {pos : Nat} (he : e ≠ .none) (hpos : pos < 2 ^ s.build.cursorW) : Inv (s.raise e pos) :=
  inv_of_cleared s (.inr rfl) (by simp [he]) hpos hs.streamLen_fits hs.sb_wf hs.ib_wf

/-- An error at a position up to the limit. -/
theorem raise_of_le_limit {e : ErrCode} {pos : Nat} (he : e ≠ .none) (hpos : pos ≤ s.limit) : Inv (s.raise e pos) :=
  hs.raise he (hpos.trans_lt hs.limit_fits)

theorem softReset : Inv s.softReset :=
  inv_of_cleared s (.inl rfl) (by simp) (Nat.two_pow_pos _) hs.streamLen_fits hs.sb_wf hs.ib_wf

/-- The launch (R210) over bytes that all have a value. -/
theorem launch (hw : Memory.written s.sb s.streamLen = true) : Inv s.launch where
  cur_le_limit := Nat.zero_le _
  limit_fits := hs.streamLen_fits
  streamLen_fits := hs.streamLen_fits
  errpos_fits := Nat.two_pow_pos _
  error_iff := by simp
  quiet := by simp
  header_place := by simp [headerCursor]
  width_read := by simp
  height_read := by simp
  header_known := by simp [headerKnown]
  pixel_left := by simp
  duration_left := by simp
  residue_short := by simp
  source_compressed := by simp
  frame_count := rfl
  nframes_le := le_rfl
  frame_full := by simp
  mono_codes := by simp
  handed_over := by simp
  sb_wf := hs.sb_wf
  ib_wf := hs.ib_wf
  source_readable _ := ⟨s.streamLen, rfl, hw, fun _ => rfl⟩

end Inv

end Sys2Proof.Machine
end

section
/-! PROOF. The invariants under a host action: each leaves the block's registers alone, or clears them. -/

namespace Sys2Proof.Machine

/-- The width of `STREAM_LEN` bounds the stream's bits (R33), in a build without the register too (log entry 26). -/
theorem eight_mul_mod_lt (v w : Nat) : 8 * (v % 2 ^ (w - 3)) < 2 ^ w := by
  rcases Nat.lt_or_ge w 3 with hw | hw
  · simp [Nat.sub_eq_zero_of_le hw.le, Nat.mod_one]
  · have hlt : v % 2 ^ (w - 3) < 2 ^ (w - 3) := Nat.mod_lt _ (Nat.two_pow_pos _)
    calc 8 * (v % 2 ^ (w - 3)) < 2 ^ 3 * 2 ^ (w - 3) := by omega
      _ = 2 ^ w := by rw [← pow_add, Nat.add_sub_cancel' hw]

namespace Inv
variable {s : State} (hs : Inv s)
include hs

/-- The invariants say nothing of the host's turns. -/
theorem hostTurns (turns : List (Option HostAction)) : Inv { s with hostTurns := turns } := { hs with }

/-- A byte of `SB` written while not busy. -/
theorem writeSb (hb : s.busy = false) (a : Nat) (v : Byte) : Inv { s with sb := Memory.write s.sb a v } :=
  { hs with
    sb_wf := Memory.wf_write hs.sb_wf a v
    source_readable := fun h => absurd (hb.symm.trans h) Bool.false_ne_true }

/-- `STREAM_LEN` written while not busy. -/
theorem writeStreamLen (hb : s.busy = false) (v : Nat) :
    Inv { s with streamLen := v % 2 ^ (s.build.cursorW - 3) } :=
  { hs with
    streamLen_fits := eight_mul_mod_lt v _
    source_readable := fun h => absurd (hb.symm.trans h) Bool.false_ne_true }

/-- A host read, which may hand results over. -/
theorem hostRead {o : Bool} (d : Option Nat) (n : Nat)
    (ho : o = true → s.handedOver = true ∨ s.phase = .done ∨ s.phase = .error) :
    Inv { s with hostData := d, handedOver := o, freeReads := n } :=
  { hs with handed_over := fun h => (ho h).elim hs.handed_over id }

end Inv

/-- Every host action keeps the invariants. -/
theorem inv_of_hostAct {a : HostAction} {s t : State} (hs : Inv s) (h : hostAct a s = .next t) : Inv t := by
  rcases hostAct_cases h with rfl | ⟨-, hw, rfl⟩ | rfl | rfl | ⟨hb, addr, v, rfl⟩ | ⟨hb, v, rfl⟩ | ⟨d, o, n, rfl, ho⟩
  · exact hs
  · exact hs.launch hw
  · exact hs.softReset
  · exact inv_hardReset s
  · exact hs.writeSb hb addr v
  · exact hs.writeStreamLen hb v
  · exact hs.hostRead d n ho

end Sys2Proof.Machine
end

section
/-! PROOF. The invariants under the header's operations (R140 to R145), taken one by one or as a whole header. -/

namespace Sys2Proof.Machine

/-- A state in which the header is read is busy, and no frame is begun in it. -/
theorem of_headerCursor {L n : Nat} {p : Phase} (h : headerCursor L p = some n) :
    phaseBusy p = true ∧ inFrame p = false ∧ frameRead p = false ∧ p ≠ .idle ∧ p ≠ .fPixel ∧ p ≠ .dRead ∧
      p ≠ .done ∧ p ≠ .error ∧ (headerKnown p = true → p = .pSelect) := by
  cases p <;> simp [headerCursor] at h <;> simp [phaseBusy, phaseCode, inFrame, frameRead, headerKnown]

theorem dimOk_of_field {l : BitVec 4} {v : Nat} (hv : v < 2 ^ (l.toNat + 1)) (hv16 : v < 2 ^ 16) :
    DimOk l (.ofNat 17 (v + 1)) := by
  have hval : (BitVec.ofNat 17 (v + 1)).toNat = v + 1 := by simp; omega
  exact ⟨by omega, by omega, by omega⟩

theorem Inv.cur_add_le {s : State} {n : Nat} (hs : Inv s) (h : n ≤ s.remaining) : s.cur + n ≤ s.limit :=
  Nat.add_le_of_le_sub' hs.cur_le_limit h

theorem Inv.fs_empty {s : State} {m : Nat} (hs : Inv s) (hm : headerCursor s.dimBits s.phase = some m) : s.fs = [] := by
  obtain ⟨-, hnot, -⟩ := of_headerCursor hm
  obtain ⟨-, -, hn⟩ := hs.header_place m hm
  simpa [hn, hnot] using hs.frame_count

/-- In a header state, a step to a later header state that keeps the field order of R91. -/
theorem Inv.header_to {s : State} {m cur : Nat} {p : Phase} {f c : Bit} {l : BitVec 4} {w h : BitVec 17}
    {fb : BitVec 34} (hs : Inv s) (hm : headerCursor s.dimBits s.phase = some m)
    (hp : headerCursor (l.toNat + 1) p = some cur) (hcur : cur ≤ s.limit)
    (hw : p = .hHeight ∨ p = .hCheck ∨ p = .pSelect → DimOk l w) (hh : p = .hCheck ∨ p = .pSelect → DimOk l h)
    (hfb : p = .pSelect → fb.toNat = w.toNat * h.toNat * pixelBits f) :
    Inv { s with cur := cur, fmt := f, cmp := c, len := l, width := w, height := h, frameBits := fb, phase := p } := by
  obtain ⟨hbusy, -, -, -, -, -, hndone, hnerror, -⟩ := of_headerCursor hm
  obtain ⟨hbusy', hinFrame, hread, hidle, hpixel, hdread, hdone, herror, hknown⟩ := of_headerCursor hp
  obtain ⟨hsrc, -, hnf⟩ := hs.header_place m hm
  have hfs := hs.fs_empty hm
  have hnone : s.errcode = .none := by simpa [hnerror] using hs.error_iff
  exact
    { cur_le_limit := hcur
      limit_fits := hs.limit_fits
      streamLen_fits := hs.streamLen_fits
      errpos_fits := hs.errpos_fits
      error_iff := by simp [hnone, herror]
      quiet := by simp [hidle, herror]
      header_place := fun n hn => ⟨hsrc, Option.some.inj (hp.symm.trans hn), hnf⟩
      width_read := fun hp => hw (by tauto)
      height_read := fun hp => hh (.inl hp)
      header_known := fun hk => ⟨hw (by simp [hknown hk]), hh (by simp [hknown hk]), hfb (hknown hk)⟩
      pixel_left := fun hp => absurd hp hpixel
      duration_left := fun hp => absurd hp hdread
      residue_short := fun hp => absurd hp hdone
      source_compressed := by simp [hsrc]
      frame_count := by simp [hfs, hnf, hinFrame]
      nframes_le := by simp [hnf, hread]
      frame_full := by simp [hfs]
      mono_codes := by simp [hfs]
      handed_over := fun ho => absurd (hs.handed_over ho) (by simp [hndone, hnerror])
      sb_wf := hs.sb_wf
      ib_wf := hs.ib_wf
      source_readable := fun _ => hs.source_readable hbusy }

/-- A header operation's answer: an error, or the invariants in the state that follows in the table (R177). -/
def ToHeader (p : Phase) (t : State) : Prop := Inv t ∧ (t.phase ≠ .error → t.phase = p)

theorem Inv.toHeader_raise {s : State} {e : ErrCode} (hs : Inv s) (p : Phase) (he : e ≠ .none) :
    ToHeader p (s.raise e s.cur) :=
  ⟨hs.raise_of_le_limit he hs.cur_le_limit, fun h => absurd rfl h⟩

section
variable {s t : State} (hs : Inv s)
include hs

theorem execFmt_inv {f : Bit} (hp : s.phase = .hFmt) (h : execFmt f s = .next t) : ToHeader .hCmp t := by
  obtain ⟨-, hcur, -⟩ := hs.header_place 0 (by rw [hp]; rfl)
  rcases headerField_cases h with ⟨-, rfl⟩ | ⟨hlong, -⟩
  · exact hs.toHeader_raise _ (by simp)
  · rw [execFmt_long f hlong] at h
    cases h
    exact ⟨hs.header_to (m := 0) (by rw [hp]; rfl) (by rw [hcur]; rfl) (hs.cur_add_le hlong)
      (by simp) (by simp) (by simp), fun _ => rfl⟩

theorem execCmp_inv {c : Bit} (hp : s.phase = .hCmp) (h : execCmp c s = .next t) : ToHeader .hLen t := by
  obtain ⟨-, hcur, -⟩ := hs.header_place 1 (by rw [hp]; rfl)
  rcases headerField_cases h with ⟨-, rfl⟩ | ⟨hlong, rfl⟩
  · exact hs.toHeader_raise _ (by simp)
  · exact ⟨hs.header_to (m := 1) (by rw [hp]; rfl) (by rw [hcur]; rfl) (hs.cur_add_le hlong)
      (by simp) (by simp) (by simp), fun _ => rfl⟩

theorem execLen_inv {l : BitVec 4} (hp : s.phase = .hLen) (h : execLen l s = .next t) :
    ToHeader .hWidth t ∧ (t.phase ≠ .error → t.len = l) := by
  obtain ⟨-, hcur, -⟩ := hs.header_place 2 (by rw [hp]; rfl)
  rcases headerField_cases h with ⟨-, rfl⟩ | ⟨hlong, rfl⟩
  · exact ⟨hs.toHeader_raise _ (by simp), fun h => absurd rfl h⟩
  · exact ⟨⟨hs.header_to (m := 2) (by rw [hp]; rfl) (by rw [hcur]; rfl) (hs.cur_add_le hlong)
      (by simp) (by simp) (by simp), fun _ => rfl⟩, fun _ => rfl⟩

theorem execWm1_inv {w : BitVec 16} (hp : s.phase = .hWidth) (hw : w.toNat < 2 ^ (s.len.toNat + 1))
    (h : execWm1 w s = .next t) : ToHeader .hHeight t ∧ (t.phase ≠ .error → t.len = s.len) := by
  obtain ⟨-, hcur, -⟩ := hs.header_place 6 (by rw [hp]; rfl)
  rcases headerField_cases h with ⟨-, rfl⟩ | ⟨hlong, rfl⟩
  · exact ⟨hs.toHeader_raise _ (by simp), fun h => absurd rfl h⟩
  · exact ⟨⟨hs.header_to (m := 6) (by rw [hp]; rfl) (by rw [hcur]; rfl) (hs.cur_add_le hlong)
      (fun _ => dimOk_of_field hw w.isLt) (by simp) (by simp), fun _ => rfl⟩, fun _ => rfl⟩

theorem execHm1_inv {v : BitVec 16} (hp : s.phase = .hHeight) (hv : v.toNat < 2 ^ (s.len.toNat + 1))
    (h : execHm1 v s = .next t) : ToHeader .hCheck t := by
  obtain ⟨-, hcur, -⟩ := hs.header_place (6 + s.dimBits) (by rw [hp]; rfl)
  have hplace : headerCursor (s.len.toNat + 1) .hCheck = some (s.cur + s.dimBits) := by
    rw [hcur, Nat.add_assoc, ← Nat.two_mul]; rfl
  rcases headerField_cases h with ⟨-, rfl⟩ | ⟨hlong, rfl⟩
  · exact hs.toHeader_raise _ (by simp)
  · exact ⟨hs.header_to (by rw [hp]; rfl) hplace (hs.cur_add_le hlong)
      (fun _ => hs.width_read (.inl hp)) (fun _ => dimOk_of_field hv v.isLt) (by simp), fun _ => rfl⟩

theorem execHdrCheck_inv (hp : s.phase = .hCheck) (h : execHdrCheck s = .next t) : ToHeader .pSelect t := by
  have hw := hs.width_read (.inr hp)
  have hh := hs.height_read hp
  have ⟨hw1, hwle, _⟩ := hw
  have ⟨hh1, hhle, _⟩ := hh
  obtain ⟨-, hcur, -⟩ := hs.header_place (6 + 2 * s.dimBits) (by rw [hp]; rfl)
  rw [execHdrCheck_of_dims hw1 hh1] at h
  cases h
  refine ⟨hs.header_to (by rw [hp]; rfl) (by rw [hcur]; rfl) hs.cur_le_limit (fun _ => hw) (fun _ => hh) fun _ => ?_,
    fun _ => rfl⟩
  rw [BitVec.toNat_ofNat, Nat.mod_eq_of_lt (frameBits_lt _ hwle hhle)]

/-- A whole header (R147): its six operations in order. -/
theorem wholeHeader_inv {f c : Bit} {l : BitVec 4} {w v : BitVec 16} (hp : s.phase = .hFmt)
    (hw : w.toNat < 2 ^ (l.toNat + 1)) (hv : v.toNat < 2 ^ (l.toNat + 1))
    (h : wholeHeader f c l w v s = .next t) : ToHeader .pSelect t := by
  have hstop {u : State} {q : Phase} (hu : ToHeader q u) (he : u.phase = .error) : ToHeader .pSelect u :=
    ⟨hu.1, fun hne => absurd he hne⟩
  rcases andThen_cases h with ⟨h, he⟩ | ⟨s1, h1, hne, h⟩
  · exact hstop (execFmt_inv hs hp h) he
  obtain ⟨hs1, hp1⟩ := execFmt_inv hs hp h1
  rcases andThen_cases h with ⟨h, he⟩ | ⟨s2, h2, hne2, h⟩
  · exact hstop (execCmp_inv hs1 (hp1 hne) h) he
  obtain ⟨hs2, hp2⟩ := execCmp_inv hs1 (hp1 hne) h2
  rcases andThen_cases h with ⟨h, he⟩ | ⟨s3, h3, hne3, h⟩
  · exact hstop (execLen_inv hs2 (hp2 hne2) h).1 he
  obtain ⟨⟨hs3, hp3⟩, hl3⟩ := execLen_inv hs2 (hp2 hne2) h3
  rw [← hl3 hne3] at hw hv
  rcases andThen_cases h with ⟨h, he⟩ | ⟨s4, h4, hne4, h⟩
  · exact hstop (execWm1_inv hs3 (hp3 hne3) hw h).1 he
  obtain ⟨⟨hs4, hp4⟩, hl4⟩ := execWm1_inv hs3 (hp3 hne3) hw h4
  rw [← hl4 hne4] at hv
  rcases andThen_cases h with ⟨h, he⟩ | ⟨s5, h5, hne5, h⟩
  · exact hstop (execHm1_inv hs4 (hp4 hne4) hv h) he
  obtain ⟨hs5, hp5⟩ := execHm1_inv hs4 (hp4 hne4) hv h5
  exact execHdrCheck_inv hs5 (hp5 hne5) h

end

end Sys2Proof.Machine
end

section
/-! PROOF. The invariants under the payload's operations (R171 to R175, R200, R202), and so under every step. -/

namespace Sys2Proof.Machine

/-- The states in which the payload is being decoded, and those its operations lead to. -/
theorem of_headerKnown {p : Phase} (h : headerKnown p = true) :
    (p ≠ .done → phaseBusy p = true) ∧ p ≠ .idle ∧ p ≠ .error ∧ p ≠ .hHeight ∧ p ≠ .hCheck ∧
      (p ≠ .pSelect → ∀ L, headerCursor L p = none) := by
  cases p <;> simp [headerKnown] at h <;> simp [phaseBusy, phaseCode, headerCursor]

/-- From a payload state, an operation that writes only the cursor, the place of the next pixel, the frame store and its
counter. -/
theorem Inv.payload_to {s : State} {cur nf : Nat} {x y : BitVec 16} {fs : List Frame} {p : Phase} (hs : Inv s)
    (hold : headerKnown s.phase = true ∧ s.phase ≠ .done) (hnew : headerKnown p = true ∧ p ≠ .pSelect)
    (hcur : cur ≤ s.limit)
    (hpixel : p = .fPixel → x.toNat < s.width.toNat ∧ y.toNat < s.height.toNat ∧
      pixelBits s.fmt * (s.width.toNat * (s.height.toNat - y.toNat) - x.toNat) ≤ s.limit - cur)
    (hdur : p = .dRead → 8 ≤ s.limit - cur) (hdone : p = .done → s.limit - cur < s.frameBits.toNat)
    (hcount : fs.length = nf + (inFrame p).toNat) (hnf : nf + (frameRead p).toNat ≤ cur)
    (hfull : ∀ fr ∈ fs, fr.pix.length = s.width.toNat * s.height.toNat)
    (hmono : s.fmt = 0 → ∀ fr ∈ fs, ∀ c ∈ fr.pix, c.toNat ≤ 1) :
    Inv { s with cur := cur, x := x, y := y, fs := fs, nframes := nf, phase := p } := by
  obtain ⟨hknown, hndone⟩ := hold
  obtain ⟨hbusy, -, hnerror, -⟩ := of_headerKnown hknown
  obtain ⟨-, hidle, herror, hheight, hcheck, hcursor⟩ := of_headerKnown hnew.1
  have hnone : s.errcode = .none := by simpa [hnerror] using hs.error_iff
  exact
    { cur_le_limit := hcur
      limit_fits := hs.limit_fits
      streamLen_fits := hs.streamLen_fits
      errpos_fits := hs.errpos_fits
      error_iff := by simp [hnone, herror]
      quiet := by simp [hidle, herror]
      header_place := by simp [hcursor hnew.2]
      width_read := by simp [hheight, hcheck]
      height_read := by simp [hcheck]
      header_known := fun _ => hs.header_known hknown
      pixel_left := hpixel
      duration_left := hdur
      residue_short := hdone
      source_compressed := hs.source_compressed
      frame_count := hcount
      nframes_le := hnf
      frame_full := hfull
      mono_codes := hmono
      handed_over := fun ho => absurd (hs.handed_over ho) (by simp [hndone, hnerror])
      sb_wf := hs.sb_wf
      ib_wf := hs.ib_wf
      source_readable := fun _ => hs.source_readable (hbusy hndone) }

section
variable {s t : State} (hs : Inv s)
include hs

theorem execSelRaw_inv (hp : s.phase = .pSelect) (h : execSelRaw s = .next t) : Inv t := by
  cases h
  have hcount := hs.frame_count
  have hnf := hs.nframes_le
  rw [hp] at hcount hnf
  exact hs.payload_to (by simp [hp, headerKnown]) (by simp [headerKnown]) hs.cur_le_limit (by simp) (by simp) (by simp)
    hcount hnf hs.frame_full hs.mono_codes

/-- The source switched to an answer that fits the cursor (R202). -/
theorem Inv.switchSource {r : List Byte} (hp : s.phase = .pSelect) (hc : s.cmp = 1)
    (hr : 8 * r.length < 2 ^ s.build.cursorW) : Inv (s.switchSource r) := by
  have hplace : headerCursor s.dimBits s.phase = some (6 + 2 * s.dimBits) := by rw [hp]; rfl
  obtain ⟨-, -, hnf⟩ := hs.header_place _ hplace
  have hfs := hs.fs_empty hplace
  exact
    { cur_le_limit := Nat.zero_le _
      limit_fits := hr
      streamLen_fits := hs.streamLen_fits
      errpos_fits := hs.errpos_fits
      error_iff := by simpa [hp] using hs.error_iff
      quiet := by simp
      header_place := by simp [headerCursor]
      width_read := by simp
      height_read := by simp
      header_known := fun _ => hs.header_known (by rw [hp]; rfl)
      pixel_left := by simp
      duration_left := by simp
      residue_short := by simp
      source_compressed := fun _ => hc
      frame_count := by simp [hfs, hnf, inFrame]
      nframes_le := by simp [hnf, frameRead]
      frame_full := by simp [hfs]
      mono_codes := by simp [hfs]
      handed_over := fun ho => absurd (hs.handed_over ho) (by simp [hp])
      sb_wf := hs.sb_wf
      ib_wf := Memory.wf_ofBytes r
      source_readable := fun _ => ⟨r.length, rfl, Memory.written_ofBytes r, by simp⟩ }

/-- `InflateFault`'s position is the cursor of `P_SELECT` (R202, R258). -/
theorem takeInflated_inv {answer : Option (List Byte)} (hp : s.phase = .pSelect) (hc : s.cmp = 1)
    (h : takeInflated answer s = .next t) : Inv t := by
  unfold takeInflated at h
  split at h
  · cases h
    obtain ⟨-, hcur, -⟩ := hs.src_cur_limit_of_pSelect hp
    exact hs.raise_of_le_limit (by simp) (hcur ▸ hs.cur_le_limit)
  · split at h
    · cases h; exact hs.switchSource hp hc ‹_›
    · cases h

theorem execFrameTest_inv (hp : s.phase = .fTest) (h : execFrameTest s = .next t) : Inv t := by
  have hold : headerKnown s.phase = true ∧ s.phase ≠ .done := by simp [hp, headerKnown]
  obtain ⟨⟨hw, -⟩, ⟨hh, -⟩, hfb⟩ := hs.header_known hold.1
  have hcount : s.fs.length = s.nframes := by simpa [hp, inFrame] using hs.frame_count
  have hnf : s.nframes ≤ s.cur := (Nat.le_add_right _ _).trans hs.nframes_le
  rcases Nat.lt_or_ge s.remaining s.frameBits.toNat with hshort | hblock
  · rw [execFrameTest_stop hshort] at h
    cases h
    exact hs.payload_to hold (by simp [headerKnown]) hs.cur_le_limit (by simp) (by simp) (fun _ => hshort) hcount hnf
      hs.frame_full hs.mono_codes
  by_cases hfull : s.build.maxFrames = some s.nframes
  · rw [execFrameTest_full hblock hfull] at h
    cases h
    exact hs.raise_of_le_limit (by simp) hs.cur_le_limit
  · rw [execFrameTest_begin hblock hfull] at h
    cases h
    have hmem {fr : Frame} (hfr : fr ∈ s.fs.take s.nframes ++ [zeroFrame (s.width.toNat * s.height.toNat)]) :
        fr ∈ s.fs ∨ fr = zeroFrame (s.width.toNat * s.height.toNat) := by
      rcases List.mem_append.1 hfr with hfr | hfr
      · exact .inl (List.mem_of_mem_take hfr)
      · exact .inr (List.mem_singleton.1 hfr)
    refine hs.payload_to hold (by simp [headerKnown]) hs.cur_le_limit (fun _ => ⟨hw, hh, ?_⟩) (by simp) (by simp)
      (by simp [← hcount, inFrame]) hnf (fun fr hfr => ?_) (fun hmono fr hfr c hc => ?_)
    · have hall : s.width.toNat * (s.height.toNat - 0) - 0 = s.width.toNat * s.height.toNat := rfl
      exact hall ▸ Nat.mul_comm _ (pixelBits s.fmt) ▸ hfb ▸ hblock
    · rcases hmem hfr with hfr | rfl
      · exact hs.frame_full fr hfr
      · simp [zeroFrame]
    · rcases hmem hfr with hfr | rfl
      · exact hs.mono_codes hmono fr hfr c hc
      · simp [(List.mem_replicate.1 hc).2]

end

/-- The pixels of a frame that are left, by the place of the next. -/
theorem pixels_left {s : State} (hx : s.x.toNat < s.width.toNat) (hy : s.y.toNat < s.height.toNat) :
    s.pixelIndex + (s.width.toNat * (s.height.toNat - s.y.toNat) - s.x.toNat) = s.width.toNat * s.height.toNat := by
  obtain ⟨d, hd⟩ := Nat.exists_eq_add_of_lt hy
  have hsub : s.height.toNat - s.y.toNat = d + 1 := by omega
  rw [hsub, hd, State.pixelIndex, Nat.mul_comm s.y.toNat]
  simp only [Nat.mul_add, Nat.mul_one]
  omega

/-- What `RD_DUR` can answer: the duration set, the frame complete (R175). -/
theorem execDur_cases {d : Byte} {s t : State} (h : execDur d s = .next t) :
    8 ≤ s.remaining ∧ ∃ fr, s.fs[s.nframes]? = some fr ∧ t = { s with
      cur := s.cur + 8, fs := s.fs.set s.nframes { fr with dur := some d }
      nframes := s.nframes + 1, phase := .fTest } := by
  unfold execDur at h
  split at h
  · cases h
  · split at h
    · cases h
    · rename_i hstore
      cases h
      obtain ⟨fr, hfr, rfl⟩ := storeDur_eq_some hstore
      exact ⟨by omega, fr, hfr, rfl⟩

theorem forall_mem_set {α : Type} {q : α → Prop} {l : List α} (h : ∀ a ∈ l, q a) {v : α} (hv : q v) (i : Nat) :
    ∀ a ∈ l.set i v, q a := fun a ha =>
  (List.mem_or_eq_of_mem_set ha).elim (h a) fun hav => hav ▸ hv

section
variable {s t : State} (hs : Inv s)
include hs

/-- A pixel of the format's width, its code fit for the format (R165, R173). -/
theorem pixelElement_inv {code : Code} (hp : s.phase = .fPixel) (hmono : s.fmt = 0 → code.toNat ≤ 1)
    (h : pixelElement (pixelBits s.fmt) code s = .next t) : Inv t := by
  obtain ⟨hb, fr, hfr, -, rfl⟩ := pixelElement_cases h
  generalize hfr' : ({ fr with pix := fr.pix.set s.pixelIndex code } : Frame) = fr'
  have hold : headerKnown s.phase = true ∧ s.phase ≠ .done := by simp [hp, headerKnown]
  obtain ⟨⟨-, hwle, -⟩, ⟨-, hhle, -⟩, -⟩ := hs.header_known hold.1
  obtain ⟨hx, hy, hleft⟩ := hs.pixel_left hp
  have hcur := hs.cur_add_le hb
  have hfrmem : fr ∈ s.fs := List.mem_of_getElem? hfr
  have hnf : s.nframes + 1 ≤ s.cur + pixelBits s.fmt :=
    Nat.add_le_add ((Nat.le_add_right _ _).trans hs.nframes_le) (pixelBits_pos s.fmt)
  have hcount : (s.fs.set s.nframes fr').length = s.nframes + 1 := by simpa [hp, inFrame] using hs.frame_count
  have hfull : ∀ a ∈ s.fs.set s.nframes fr', a.pix.length = s.width.toNat * s.height.toNat :=
    forall_mem_set hs.frame_full (by simpa [← hfr'] using hs.frame_full fr hfrmem) _
  have hcodes (hf : s.fmt = 0) : ∀ a ∈ s.fs.set s.nframes fr', ∀ c ∈ a.pix, c.toNat ≤ 1 :=
    forall_mem_set (hs.mono_codes hf) (hfr' ▸ forall_mem_set (hs.mono_codes hf fr hfrmem) (hmono hf) _) _
  rcases State.nextPixel_cases (s := { s with cur := s.cur + pixelBits s.fmt, fs := s.fs.set s.nframes fr' })
    hx hy hwle hhle with ⟨-, hnext⟩ | ⟨x, y, hnext, hx', hy', hplace⟩
  · rw [hnext]
    exact hs.payload_to hold (by simp [headerKnown]) hcur (by simp) (by simp) (by simp) hcount hnf hfull hcodes
  · have hone : s.width.toNat * (s.height.toNat - s.y.toNat) - s.x.toNat =
        s.width.toNat * (s.height.toNat - y.toNat) - x.toNat + 1 := by
      have htotal := pixels_left hx hy
      have htotal' := pixels_left (s := { s with x := x, y := y }) hx' hy'
      simp only [State.pixelIndex] at htotal htotal' hplace
      omega
    rw [hone, Nat.mul_succ] at hleft
    rw [hnext]
    exact hs.payload_to hold (p := s.phase) (by simp [hp, headerKnown]) hcur
      (fun _ => ⟨hx', hy', (Nat.sub_sub s.limit _ _).symm ▸ Nat.le_sub_of_add_le hleft⟩) (by simp [hp])
      (by simp [hp]) (by rw [hp]; exact hcount) (by rw [hp]; exact Nat.le_of_succ_le hnf) hfull hcodes

theorem execDurTest_inv (hp : s.phase = .dTest) (h : execDurTest s = .next t) : Inv t := by
  have hold : headerKnown s.phase = true ∧ s.phase ≠ .done := by simp [hp, headerKnown]
  have hcount : s.fs.length = s.nframes + 1 := by simpa [hp, inFrame] using hs.frame_count
  have hnf : s.nframes + 1 ≤ s.cur := by simpa [hp, frameRead] using hs.nframes_le
  rcases Nat.lt_or_ge s.remaining 8 with hshort | h8
  · rw [execDurTest_none hshort] at h
    cases h
    exact hs.payload_to hold (by simp [headerKnown]) hs.cur_le_limit (by simp) (by simp) (by simp) hcount hnf
      hs.frame_full hs.mono_codes
  · rw [execDurTest_duration h8] at h
    cases h
    exact hs.payload_to hold (by simp [headerKnown]) hs.cur_le_limit (by simp) (fun _ => h8) (by simp) hcount hnf
      hs.frame_full hs.mono_codes

theorem execDur_inv {d : Byte} (hp : s.phase = .dRead) (h : execDur d s = .next t) : Inv t := by
  obtain ⟨h8, fr, hfr, rfl⟩ := execDur_cases h
  have hold : headerKnown s.phase = true ∧ s.phase ≠ .done := by simp [hp, headerKnown]
  have hfrmem : fr ∈ s.fs := List.mem_of_getElem? hfr
  have hcount : s.fs.length = s.nframes + 1 := by simpa [hp, inFrame] using hs.frame_count
  have hnf : s.nframes + 1 ≤ s.cur := by simpa [hp, frameRead] using hs.nframes_le
  exact hs.payload_to hold (by simp [headerKnown]) (hs.cur_add_le h8) (by simp) (by simp) (by simp)
    ((List.length_set ..).trans hcount) (Nat.le_add_right_of_le hnf)
    (forall_mem_set hs.frame_full (v := { fr with dur := some d }) (hs.frame_full fr hfrmem) _)
    fun hf => forall_mem_set (hs.mono_codes hf) (v := { fr with dur := some d }) (hs.mono_codes hf fr hfrmem) _

end

end Sys2Proof.Machine
end

section
/-! PROOF. The operation that a state selects (R104), said once for all thirty elements; every step keeps
the invariants. -/

namespace Sys2Proof.Machine

/-- The operations that a state selects: one for each sequencer state but for `H_FMT` and `P_SELECT`, which have two.
Their operands fit the element's width. -/
inductive Selected (s : State) : (State → Res) → Prop
  | wholeHeader (f c : Bit) {l : BitVec 4} {w h : BitVec 16} (hp : s.phase = .hFmt) (hwhole : s.ctx.whole = true)
      (hw : w.toNat < 2 ^ (l.toNat + 1)) (hh : h.toNat < 2 ^ (l.toNat + 1)) : Selected s (wholeHeader f c l w h)
  | fmt (f : Bit) (hp : s.phase = .hFmt) (hwhole : s.ctx.whole = false) : Selected s (execFmt f)
  | cmp (c : Bit) (hp : s.phase = .hCmp) : Selected s (execCmp c)
  | len (l : BitVec 4) (hp : s.phase = .hLen) : Selected s (execLen l)
  | wm1 {w : BitVec 16} (hp : s.phase = .hWidth) (hw : w.toNat < 2 ^ (s.len.toNat + 1)) : Selected s (execWm1 w)
  | hm1 {h : BitVec 16} (hp : s.phase = .hHeight) (hh : h.toNat < 2 ^ (s.len.toNat + 1)) : Selected s (execHm1 h)
  | hdrCheck (hp : s.phase = .hCheck) : Selected s execHdrCheck
  | selRaw (hp : s.phase = .pSelect) (hc : s.cmp = 0) : Selected s execSelRaw
  | cbyte (bytes : List Byte) (hp : s.phase = .pSelect) (hc : s.cmp = 1) : Selected s (execCbyte bytes)
  | frameTest (hp : s.phase = .fTest) : Selected s execFrameTest
  | pixel {code : Code} (hp : s.phase = .fPixel) (hmono : s.fmt = 0 → code.toNat ≤ 1) :
      Selected s (pixelElement (pixelBits s.fmt) code)
  | durTest (hp : s.phase = .dTest) : Selected s execDurTest
  | dur (d : Byte) (hp : s.phase = .dRead) : Selected s (execDur d)
  | pad (n : Nat) (hp : s.phase = .done) : Selected s (execPad n)

theorem State.ctx_len {s : State} (hp : s.phase ≠ .hFmt) : s.ctx.len = s.len := by
  rw [State.ctx_of_none (State.wholeHeader?_eq_none (.inr hp))]

/-- A whole header's element, with dimensions of `n` bits. -/
theorem selected_header {s : State} {n : Nat} (f c : Bit) {l : BitVec 4} (w h : BitVec n)
    (hw : (decide (s.ctx.phase = .hFmt) && s.ctx.whole) = true) (hl : l.toNat + 1 = n) :
    Selected s (wholeHeader f c l (w.setWidth 16) (h.setWidth 16)) := by
  obtain ⟨hp, hwhole⟩ : s.phase = .hFmt ∧ s.ctx.whole = true := by simpa using hw
  have hfit (v : BitVec n) : (v.setWidth 16).toNat < 2 ^ (l.toNat + 1) := by
    rw [BitVec.toNat_setWidth, hl]
    exact (Nat.mod_le _ _).trans_lt v.isLt
  exact .wholeHeader f c hp hwhole (hfit w) (hfit h)

/-- A well formed element's meaning is the operation selected. -/
theorem selected_of_wellFormed {s : State} {i : Instr} (hw : wellFormed s.ctx i = true) : Selected s (exec i) := by
  cases i with
  | hdrL1 f c w h | hdrL2 f c w h | hdrL3 f c w h | hdrL4 f c w h | hdrL5 f c w h | hdrL6 f c w h | hdrL7 f c w h
  | hdrL8 f c w h | hdrL9 f c w h | hdrL10 f c w h | hdrL11 f c w h | hdrL12 f c w h | hdrL13 f c w h
  | hdrL14 f c w h | hdrL15 f c w h | hdrL16 f c w h => exact selected_header f c w h hw rfl
  | fmt f =>
    obtain ⟨hp, hwhole⟩ : s.phase = .hFmt ∧ s.ctx.whole = false := by simpa [wellFormed] using hw
    exact .fmt f hp hwhole
  | cmp c => exact .cmp c (by simpa [wellFormed] using hw)
  | len l => exact .len l (by simpa [wellFormed] using hw)
  | wm1 w =>
    obtain ⟨hp, hfit⟩ : s.phase = .hWidth ∧ w.toNat < 2 ^ (s.ctx.len.toNat + 1) := by simpa [wellFormed] using hw
    exact .wm1 hp (State.ctx_len (s := s) (by simp [hp]) ▸ hfit)
  | hm1 h =>
    obtain ⟨hp, hfit⟩ : s.phase = .hHeight ∧ h.toNat < 2 ^ (s.ctx.len.toNat + 1) := by simpa [wellFormed] using hw
    exact .hm1 hp (State.ctx_len (s := s) (by simp [hp]) ▸ hfit)
  | pix1 v =>
    obtain ⟨hp, hf⟩ : s.phase = .fPixel ∧ s.fmt = 0 := by simpa [wellFormed] using hw
    have hcode : (v.setWidth 3).toNat ≤ 1 := by
      rw [BitVec.toNat_setWidth]
      exact (Nat.mod_le _ _).trans (Nat.le_of_lt_succ v.isLt)
    have hop : exec (.pix1 v) = pixelElement (pixelBits s.fmt) (v.setWidth 3) := by rw [hf]; rfl
    exact hop ▸ .pixel hp fun _ => hcode
  | pix3 code =>
    obtain ⟨hp, hf⟩ : s.phase = .fPixel ∧ s.fmt = 1 := by simpa [wellFormed] using hw
    have hop : exec (.pix3 code) = pixelElement (pixelBits s.fmt) code := by rw [hf]; rfl
    exact hop ▸ .pixel hp (by simp [hf])
  | dur d => exact .dur d (by simpa [wellFormed] using hw)
  | cbyte bytes =>
    obtain ⟨⟨hp, hc⟩, -⟩ : (s.phase = .pSelect ∧ s.cmp = 1) ∧ bytes.length = (s.remaining - s.skip) / 8 := by
      simpa [wellFormed] using hw
    exact .cbyte bytes hp hc
  | pad n =>
    obtain ⟨hp, -⟩ : s.phase = .done ∧ n = s.remaining := by simpa [wellFormed] using hw
    exact .pad n hp
  | hdrCheck => exact .hdrCheck (by simpa [wellFormed] using hw)
  | selRaw =>
    obtain ⟨hp, hc⟩ : s.phase = .pSelect ∧ s.cmp = 0 := by simpa [wellFormed] using hw
    exact .selRaw hp hc
  | frameTest => exact .frameTest (by simpa [wellFormed] using hw)
  | durTest => exact .durTest (by simpa [wellFormed] using hw)

/-- Every operation keeps the invariants in the states that select it. -/
theorem Inv.of_selected {op : State → Res} {s t : State} (hs : Inv s) (hop : Selected s op) (h : op s = .next t) :
    Inv t := by
  cases hop with
  | wholeHeader f c hp _ hw hh => exact (wholeHeader_inv hs hp hw hh h).1
  | fmt f hp => exact (execFmt_inv hs hp h).1
  | cmp c hp => exact (execCmp_inv hs hp h).1
  | len l hp => exact (execLen_inv hs hp h).1.1
  | wm1 hp hw => exact (execWm1_inv hs hp hw h).1.1
  | hm1 hp hh => exact (execHm1_inv hs hp hh h).1
  | hdrCheck hp => exact (execHdrCheck_inv hs hp h).1
  | selRaw hp => exact execSelRaw_inv hs hp h
  | cbyte bytes hp hc => exact takeInflated_inv hs hp hc h
  | frameTest hp => exact execFrameTest_inv hs hp h
  | pixel hp hmono => exact pixelElement_inv hs hp hmono h
  | durTest hp => exact execDurTest_inv hs hp h
  | dur d hp => exact execDur_inv hs hp h
  | pad n hp => cases h; exact hs

/-- Every step of the decoder keeps the invariants. -/
theorem inv_of_decoderStep {s t : State} (hs : Inv s) (h : decoderStep s = .next t) : Inv t := by
  rcases decoderStep_cases h with ⟨-, rfl⟩ | ⟨-, i, -, hw, hexec⟩
  · exact hs
  · exact hs.of_selected (selected_of_wellFormed hw) hexec

/-- Settles O59: a decoder step, after a turn the host passed or without one, or a host action. -/
theorem stepKeepsInvariants : Obligations.StepKeepsInvariants := by
  intro s t hs h
  rcases step_cases h with ⟨-, h⟩ | ⟨rest, -, h⟩ | ⟨a, rest, -, h⟩
  · exact inv_of_decoderStep hs h
  · exact inv_of_decoderStep (hs.hostTurns rest) h
  · exact inv_of_hostAct (hs.hostTurns rest) h

end Sys2Proof.Machine
end

section
/-! PROOF. Progress (R131, R287): from a state that meets the invariants the selected operation has its bits and its
frame store cell, so no step faults. -/

namespace Sys2Proof.Machine

theorem headerField_next (n : Nat) (effect : State → State) (s : State) : ∃ t, headerField n effect s = .next t := by
  rcases Nat.lt_or_ge s.remaining n with h | h
  · exact ⟨_, headerField_short effect h⟩
  · exact ⟨_, headerField_long effect h⟩

theorem wholeHeader_next (f c : Bit) (l : BitVec 4) (w h : BitVec 16) (s : State) :
    ∃ t, wholeHeader f c l w h s = .next t := by
  rcases Nat.lt_or_ge s.remaining (6 + 2 * (l.toNat + 1)) with hr | hr
  · exact ⟨_, wholeHeader_short (Nat.succ_pos _) f c rfl w h hr⟩
  · exact ⟨_, wholeHeader_long (Nat.succ_pos _) f c rfl w h hr⟩

theorem execFrameTest_next (s : State) : ∃ t, execFrameTest s = .next t := by
  rcases Nat.lt_or_ge s.remaining s.frameBits.toNat with hshort | hblock
  · exact ⟨_, execFrameTest_stop hshort⟩
  by_cases hfull : s.build.maxFrames = some s.nframes
  · exact ⟨_, execFrameTest_full hblock hfull⟩
  · exact ⟨_, execFrameTest_begin hblock hfull⟩

theorem execDurTest_next (s : State) : ∃ t, execDurTest s = .next t := by
  rcases Nat.lt_or_ge s.remaining 8 with hshort | h8
  · exact ⟨_, execDurTest_none hshort⟩
  · exact ⟨_, execDurTest_duration h8⟩

/-- An answer of the inflate agent is taken, or refused where the cursor cannot hold it (R213). -/
theorem takeInflated_next (answer : Option (List Byte)) (s : State) :
    (∃ t, takeInflated answer s = .next t) ∨ takeInflated answer s = .refused .inflateTooLong := by
  unfold takeInflated
  split
  · exact .inl ⟨_, rfl⟩
  · split
    · exact .inl ⟨_, rfl⟩
    · exact .inr rfl

namespace Inv
variable {s : State} (hs : Inv s)
include hs

/-- Inside a frame the frame store has it, with all its cells (R42, R47 h). -/
theorem frame_underway (hp : inFrame s.phase = true) :
    ∃ fr, s.fs[s.nframes]? = some fr ∧ fr.pix.length = s.width.toNat * s.height.toNat := by
  have hcount := hs.frame_count
  rw [hp] at hcount
  have hlt : s.nframes < s.fs.length := by rw [hcount]; exact Nat.lt_succ_self _
  exact ⟨_, List.getElem?_eq_getElem hlt, hs.frame_full _ (List.getElem_mem hlt)⟩

/-- The pixel at `(Y, X)` has its bits unread and its cell in the frame store (R47 d). -/
theorem pixel_ready (hp : s.phase = .fPixel) :
    pixelBits s.fmt ≤ s.remaining ∧ s.pixelIndex < s.width.toNat * s.height.toNat := by
  obtain ⟨hx, hy, hleft⟩ := hs.pixel_left hp
  have hone : s.width.toNat * 1 ≤ s.width.toNat * (s.height.toNat - s.y.toNat) := Nat.mul_le_mul_left _ (by omega)
  have htotal := pixels_left hx hy
  exact ⟨(Nat.le_mul_of_pos_right _ (by omega)).trans hleft, by omega⟩

theorem pixelElement_next (code : Code) (hp : s.phase = .fPixel) :
    ∃ t, pixelElement (pixelBits s.fmt) code s = .next t := by
  obtain ⟨hbits, hcell⟩ := hs.pixel_ready hp
  obtain ⟨fr, hfr, hfull⟩ := hs.frame_underway (by rw [hp]; rfl)
  exact ⟨_, pixelElement_of_cell code hbits hfr (hfull ▸ hcell)⟩

theorem execDur_next (d : Byte) (hp : s.phase = .dRead) : ∃ t, execDur d s = .next t := by
  obtain ⟨fr, hfr, -⟩ := hs.frame_underway (by rw [hp]; rfl)
  exact ⟨_, execDur_of_frame d (hs.duration_left hp) hfr⟩

/-- The selected operation gives a next state, or the one refusal of R213. -/
theorem progress_of_selected {op : State → Res} (hop : Selected s op) :
    (∃ t, op s = .next t) ∨ s.phase = .pSelect ∧ s.cmp = 1 ∧ op s = .refused .inflateTooLong := by
  cases hop with
  | wholeHeader f c => exact .inl (wholeHeader_next f c _ _ _ s)
  | fmt | cmp | len | wm1 | hm1 => exact .inl (headerField_next _ _ s)
  | hdrCheck hp =>
    obtain ⟨hw, -⟩ := hs.width_read (.inr hp)
    obtain ⟨hh, -⟩ := hs.height_read hp
    exact .inl ⟨_, execHdrCheck_of_dims hw hh⟩
  | selRaw => exact .inl ⟨_, execSelRaw_eq s⟩
  | cbyte bytes hp hc => exact (takeInflated_next _ s).imp_right fun h => ⟨hp, hc, h⟩
  | frameTest => exact .inl (execFrameTest_next s)
  | pixel hp => exact .inl (hs.pixelElement_next _ hp)
  | durTest => exact .inl (execDurTest_next s)
  | dur d hp => exact .inl (hs.execDur_next d hp)
  | pad n => exact .inl ⟨s, rfl⟩

end Inv

/-- In `DONE` the element is the residue, of which no bit is read (R102, R176). -/
theorem decoderStep_done {s : State} (hp : s.phase = .done) : decoderStep s = .next s := by
  have hw : elementWidth s.ctx = 0 := by simp [elementWidth, hp]
  have hd : decode s.ctx [] = .ok (.pad s.remaining, []) := by simp [decode, hp]
  have hfetch : s.fetch = some (.pad s.remaining) :=
    State.fetch_of_decode (hw ▸ Nat.zero_le _) (hw ▸ rfl) hd
  rw [decoderStep_of_fetch hfetch (by simp [hp])]
  rfl

/-- With no host action `IDLE`, `DONE` and `ERROR` stay as they are (R177). -/
theorem decoderStep_notBusy {s : State} (hb : s.busy = false) : decoderStep s = .next s := by
  have hp : s.phase = .idle ∨ s.phase = .done ∨ s.phase = .error := by
    have hnot := s.busy_iff.not.1 (by simp [hb])
    tauto
  rcases hp with hp | hp | hp
  · exact decoderStep_quiet (.inl hp)
  · exact decoderStep_done hp
  · exact decoderStep_quiet (.inr hp)

/-- Settles O56. -/
theorem quietStatesWait : Obligations.QuietStatesWait := fun _ hsilent hp =>
  (step_silent hsilent).trans (decoderStep_notBusy (busy_eq_false_of_phase hp))

/-- Settles O31: `PAD` is the identity, and the element of `DONE` is a `PAD`. -/
theorem residueHasNoEffect : Obligations.ResidueHasNoEffect :=
  ⟨fun _ _ => rfl, fun _ hsilent hp => (step_silent hsilent).trans (decoderStep_done hp)⟩

theorem hostWriteSb_ne_fault (addr : Nat) (v : Byte) (s : State) (r : Fault) : hostWriteSb addr v s ≠ .fault r := by
  unfold hostWriteSb
  split <;> simp

theorem startCommand_ne_fault (s : State) (r : Fault) : startCommand s ≠ .fault r := by
  unfold startCommand
  split
  · simp
  · split <;> simp

theorem writeCtrl_ne_fault (v : Nat) (s : State) (r : Fault) : writeCtrl v s ≠ .fault r := by
  unfold writeCtrl
  split
  · simp
  · split
    · exact startCommand_ne_fault s r
    · simp

theorem writeStreamLen_ne_fault (v : Nat) (s : State) (r : Fault) : writeStreamLen v s ≠ .fault r := by
  unfold writeStreamLen
  split <;> simp

theorem hostWriteReg_ne_fault (reg : HostReg) (v : Nat) (s : State) (r : Fault) : hostWriteReg reg v s ≠ .fault r := by
  cases reg with
  | ctrl => exact writeCtrl_ne_fault v s r
  | streamLen => exact writeStreamLen_ne_fault v s r
  | status | errcode | errpos | fmt | cmp | len | width | height | frameBits | nframes | remain => simp [hostWriteReg]

theorem hostReadReg_ne_fault (reg : HostReg) (s : State) (r : Fault) : hostReadReg reg s ≠ .fault r := by
  unfold hostReadReg
  split
  · simp
  · split <;> simp

namespace Inv
variable {s : State} (hs : Inv s)
include hs

/-- In a busy state the decoder's step is the meaning of a well formed element. -/
theorem decoderStep_busy (hb : s.busy = true) :
    ∃ i, s.fetch = some i ∧ Selected s (exec i) ∧ decoderStep s = exec i s := by
  obtain ⟨hidle, -, herror⟩ := s.busy_iff.1 hb
  obtain ⟨n, hlimit, hwritten, -⟩ := hs.source_readable hb
  obtain ⟨i, hi⟩ := State.fetch_isSome ⟨hidle, herror⟩ hwritten hlimit hs.cur_le_limit
  exact ⟨i, hi, selected_of_wellFormed (State.fetch_wellFormed hi), decoderStep_of_fetch hi ⟨hidle, herror⟩⟩

/-- The decoder's step gives a next state, or the one refusal of R213. -/
theorem decoderStep_progress :
    (∃ t, decoderStep s = .next t) ∨ s.phase = .pSelect ∧ s.cmp = 1 ∧ decoderStep s = .refused .inflateTooLong := by
  cases hb : s.busy with
  | false => exact .inl ⟨s, decoderStep_notBusy hb⟩
  | true =>
    obtain ⟨i, -, hop, hstep⟩ := hs.decoderStep_busy hb
    rw [hstep]
    exact hs.progress_of_selected hop

theorem decoderStep_ne_fault (r : Fault) : decoderStep s ≠ .fault r := by
  rcases hs.decoderStep_progress with ⟨t, h⟩ | ⟨-, -, h⟩ <;> simp [h]

/-- A frame that the host may read is in the frame store. -/
theorem fetchFrame_ne_fault {f : Nat} {b : Bool} {k : Frame → Res} (r : Fault)
    (hk : ∀ fr ∈ s.fs, b = true → k fr ≠ .fault r) : fetchFrame f b k s ≠ .fault r := by
  unfold fetchFrame
  split
  case isFalse => simp
  case isTrue hread =>
    obtain ⟨⟨hp, hf⟩, hb⟩ : (s.phase = .done ∧ f < s.nframes) ∧ b = true := by
      simpa [State.frameReadable] using hread
    split
    case isFalse => simp
    case isTrue =>
      have hcount := hs.frame_count
      have hlt : f < s.fs.length := by omega
      rw [List.getElem?_eq_getElem hlt]
      exact hk _ (List.getElem_mem hlt) hb

/-- No host action faults: a frame store read in range finds its cell (R47 h). -/
theorem hostAct_ne_fault (a : HostAction) (r : Fault) : hostAct a s ≠ .fault r := by
  cases a with
  | writeSb addr v => exact hostWriteSb_ne_fault addr v s r
  | writeReg reg v => exact hostWriteReg_ne_fault reg v s r
  | readReg reg => exact hostReadReg_ne_fault reg s r
  | readPix f y x =>
    refine hs.fetchFrame_ne_fault r fun fr hfr hin => ?_
    obtain ⟨hy, hx⟩ : y < s.height.toNat ∧ x < s.width.toNat := by simpa using hin
    have hcell : y * s.width.toNat + x < fr.pix.length := by
      rw [hs.frame_full fr hfr, Nat.mul_comm s.width.toNat]
      calc y * s.width.toNat + x < (y + 1) * s.width.toNat := by rw [Nat.succ_mul]; omega
        _ ≤ s.height.toNat * s.width.toNat := Nat.mul_le_mul_right _ hy
    simp only [List.getElem?_eq_getElem hcell]
    simp
  | readDurv f => exact hs.fetchFrame_ne_fault r fun fr _ _ => by simp
  | readDur f => exact hs.fetchFrame_ne_fault r fun fr _ _ => by split <;> simp
  | reset => simp [hostAct]

end Inv

/-- Settles O60: progress of the decoder, and the host's actions one by one. -/
theorem invariantStepsNeverFault : Obligations.InvariantStepsNeverFault := by
  refine ⟨fun s r hs => ?_, fun s hs hsilent => ?_⟩
  · unfold step
    split
    · exact hs.decoderStep_ne_fault r
    · exact (hs.hostTurns _).decoderStep_ne_fault r
    · exact (hs.hostTurns _).hostAct_ne_fault _ r
  · rw [step_silent hsilent]
    exact hs.decoderStep_progress.imp_right fun ⟨hp, _, h⟩ => ⟨hp, h⟩

end Sys2Proof.Machine
end

section
/-! PROOF. What the elements leave alone (R41, R46): the buffers and the host's fields, and all but a row's columns. -/

namespace Sys2Proof.Machine

/-- What the host sets and no element writes (R41, R46): `SB`, `STREAM_LEN`, the build and the host's own fields. -/
def State.hostSide (s : State) : Memory × Nat × Build × List (Option HostAction) × Option Nat × Nat :=
  (s.sb, s.streamLen, s.build, s.hostTurns, s.hostData, s.freeReads)

/-- The same with `IB`, which `CBYTE` alone writes. -/
def KeepsBuffers (s t : State) : Prop := t.hostSide = s.hostSide ∧ t.ib = s.ib

theorem KeepsBuffers.refl (s : State) : KeepsBuffers s s := ⟨rfl, rfl⟩

theorem KeepsBuffers.trans {s t u : State} (h : KeepsBuffers s t) (h' : KeepsBuffers t u) : KeepsBuffers s u :=
  ⟨h'.1.trans h.1, h'.2.trans h.2⟩

theorem keepsBuffers_raise (s : State) (e : ErrCode) (pos : Nat) : KeepsBuffers s (s.raise e pos) := ⟨rfl, rfl⟩

theorem keepsBuffers_nextPixel (s : State) : KeepsBuffers s s.nextPixel :=
  ⟨by simp [State.hostSide], s.nextPixel_ib⟩

section
variable {s t : State}

theorem keepsBuffers_execFmt {f : Bit} (h : execFmt f s = .next t) : KeepsBuffers s t := by
  rcases headerField_cases h with ⟨-, rfl⟩ | ⟨hlong, -⟩
  · exact keepsBuffers_raise s _ _
  · rw [execFmt_long f hlong] at h
    cases h
    exact ⟨rfl, rfl⟩

theorem keepsBuffers_headerField {n : Nat} {effect : State → State} (h : headerField n effect s = .next t)
    (he : ∀ u, KeepsBuffers u (effect u)) : KeepsBuffers s t := by
  rcases headerField_cases h with ⟨-, rfl⟩ | ⟨-, rfl⟩
  · exact keepsBuffers_raise s _ _
  · exact KeepsBuffers.trans ⟨rfl, rfl⟩ (he { s with cur := s.cur + n })

theorem keepsBuffers_execHdrCheck (h : execHdrCheck s = .next t) : KeepsBuffers s t := by
  unfold execHdrCheck at h
  split at h <;> cases h
  · exact keepsBuffers_raise s _ _
  · exact ⟨rfl, rfl⟩

theorem keepsBuffers_andThen {r : Res} {k : State → Res} (h : andThen r k = .next t)
    (hr : ∀ u, r = .next u → KeepsBuffers s u) (hk : ∀ u, k u = .next t → KeepsBuffers u t) : KeepsBuffers s t := by
  rcases andThen_cases h with ⟨h, -⟩ | ⟨u, hu, -, h⟩
  · exact hr t h
  · exact (hr u hu).trans (hk u h)

theorem keepsBuffers_wholeHeader {f c : Bit} {l : BitVec 4} {w v : BitVec 16} (h : wholeHeader f c l w v s = .next t) :
    KeepsBuffers s t :=
  keepsBuffers_andThen h (fun _ => keepsBuffers_execFmt) fun _ h =>
  keepsBuffers_andThen h (fun _ h => keepsBuffers_headerField h fun _ => ⟨rfl, rfl⟩) fun _ h =>
  keepsBuffers_andThen h (fun _ h => keepsBuffers_headerField h fun _ => ⟨rfl, rfl⟩) fun _ h =>
  keepsBuffers_andThen h (fun _ h => keepsBuffers_headerField h fun _ => ⟨rfl, rfl⟩) fun _ h =>
  keepsBuffers_andThen h (fun _ h => keepsBuffers_headerField h fun _ => ⟨rfl, rfl⟩) fun _ => keepsBuffers_execHdrCheck

theorem keepsBuffers_execFrameTest (h : execFrameTest s = .next t) : KeepsBuffers s t := by
  unfold execFrameTest at h
  split at h
  · cases h; exact ⟨rfl, rfl⟩
  · split at h <;> cases h
    · exact keepsBuffers_raise s _ _
    · exact ⟨rfl, rfl⟩

theorem keepsBuffers_pixelElement {n : Nat} {code : Code} (h : pixelElement n code s = .next t) : KeepsBuffers s t := by
  obtain ⟨-, fr, -, -, rfl⟩ := pixelElement_cases h
  exact KeepsBuffers.trans ⟨rfl, rfl⟩ (keepsBuffers_nextPixel { s with
    cur := s.cur + n, fs := s.fs.set s.nframes { fr with pix := fr.pix.set s.pixelIndex code } })

theorem keepsBuffers_execDurTest (h : execDurTest s = .next t) : KeepsBuffers s t := by
  unfold execDurTest at h
  split at h <;> (cases h; exact ⟨rfl, rfl⟩)

theorem keepsBuffers_execDur {d : Byte} (h : execDur d s = .next t) : KeepsBuffers s t := by
  obtain ⟨-, fr, -, rfl⟩ := execDur_cases h
  exact ⟨rfl, rfl⟩

/-- `SEL_INFLATE` writes `IB` alone of the buffers (R202). -/
theorem hostSide_takeInflated {answer : Option (List Byte)} (h : takeInflated answer s = .next t) :
    t.hostSide = s.hostSide := by
  unfold takeInflated at h
  split at h
  · cases h; rfl
  · split at h <;> cases h
    rfl

theorem keepsBuffers_exec {i : Instr} (h : exec i s = .next t) (hi : ∀ bytes, i ≠ .cbyte bytes) : KeepsBuffers s t := by
  cases i with
  | hdrL1 | hdrL2 | hdrL3 | hdrL4 | hdrL5 | hdrL6 | hdrL7 | hdrL8 | hdrL9 | hdrL10 | hdrL11 | hdrL12 | hdrL13 | hdrL14
  | hdrL15 | hdrL16 => exact keepsBuffers_wholeHeader h
  | fmt => exact keepsBuffers_execFmt h
  | cmp | len | wm1 | hm1 =>
    simp only [exec_cmp, exec_len, exec_wm1, exec_hm1, execCmp, execLen, execWm1, execHm1] at h
    exact keepsBuffers_headerField h fun _ => ⟨rfl, rfl⟩
  | hdrCheck => exact keepsBuffers_execHdrCheck h
  | selRaw | pad => cases h; exact ⟨rfl, rfl⟩
  | cbyte bytes => exact absurd rfl (hi bytes)
  | frameTest => exact keepsBuffers_execFrameTest h
  | pix1 | pix3 => exact keepsBuffers_pixelElement h
  | durTest => exact keepsBuffers_execDurTest h
  | dur => exact keepsBuffers_execDur h

theorem hostSide_exec {i : Instr} (h : exec i s = .next t) : t.hostSide = s.hostSide := by
  by_cases hi : ∃ bytes, i = .cbyte bytes
  · obtain ⟨bytes, rfl⟩ := hi
    exact hostSide_takeInflated h
  · exact (keepsBuffers_exec h (by simpa using hi)).1

theorem hostSide_decoderStep (h : decoderStep s = .next t) : t.hostSide = s.hostSide := by
  rcases decoderStep_cases h with ⟨-, rfl⟩ | ⟨-, i, -, -, h⟩
  · rfl
  · exact hostSide_exec h

theorem hostSide_eq_iff : t.hostSide = s.hostSide ↔ t.sb = s.sb ∧ t.streamLen = s.streamLen ∧ t.build = s.build ∧
    t.hostTurns = s.hostTurns ∧ t.hostData = s.hostData ∧ t.freeReads = s.freeReads := by
  simp [State.hostSide]

end

/-- Settles O40: element by element; `CBYTE` alone writes `IB`. -/
theorem elementsKeepBuffers : Obligations.ElementsKeepBuffers := by
  intro i s t h
  obtain ⟨hsb, hlen, hbuild, hturns, hdata, hreads⟩ := hostSide_eq_iff.1 (hostSide_exec h)
  exact ⟨fun a => by rw [hsb], hlen, hbuild, hturns, hdata, hreads, fun hi a => by rw [(keepsBuffers_exec h hi).2]⟩

/-- A header field that does not raise is its effect. -/
theorem headerField_of_ne_error {n : Nat} {effect : State → State} {s t : State} (hne : t.phase ≠ .error)
    (h : headerField n effect s = .next t) : t = effect { s with cur := s.cur + n } := by
  rcases headerField_cases h with ⟨-, rfl⟩ | ⟨-, rfl⟩
  · exact absurd rfl hne
  · rfl

section
variable {s t : State}

theorem pixelElement_columns {n : Nat} {code : Code} (h : pixelElement n code s = .next t) :
    t = { s with phase := t.phase, cur := t.cur, x := t.x, y := t.y, fs := t.fs } := by
  obtain ⟨-, fr, -, -, rfl⟩ := pixelElement_cases h
  rw [State.nextPixel_eq]

theorem execDurTest_columns (h : execDurTest s = .next t) : t = { s with phase := t.phase, nframes := t.nframes } := by
  unfold execDurTest at h
  split at h <;> (cases h; rfl)

theorem execDur_columns {d : Byte} (h : execDur d s = .next t) :
    t = { s with phase := t.phase, cur := t.cur, nframes := t.nframes, fs := t.fs } := by
  obtain ⟨-, fr, -, rfl⟩ := execDur_cases h
  rfl

variable (hne : t.phase ≠ .error)
include hne

theorem execFmt_columns {f : Bit} (h : execFmt f s = .next t) :
    t = { s with phase := t.phase, cur := t.cur, fmt := t.fmt } := by
  rcases headerField_cases h with ⟨-, rfl⟩ | ⟨hlong, -⟩
  · exact absurd rfl hne
  · rw [execFmt_long f hlong] at h
    cases h
    rfl

theorem execCmp_columns {c : Bit} (h : execCmp c s = .next t) :
    t = { s with phase := t.phase, cur := t.cur, cmp := t.cmp } := by rw [headerField_of_ne_error hne h]

theorem execLen_columns {l : BitVec 4} (h : execLen l s = .next t) :
    t = { s with phase := t.phase, cur := t.cur, len := t.len } := by rw [headerField_of_ne_error hne h]

theorem execWm1_columns {w : BitVec 16} (h : execWm1 w s = .next t) :
    t = { s with phase := t.phase, cur := t.cur, width := t.width } := by rw [headerField_of_ne_error hne h]

theorem execHm1_columns {v : BitVec 16} (h : execHm1 v s = .next t) :
    t = { s with phase := t.phase, cur := t.cur, height := t.height } := by rw [headerField_of_ne_error hne h]

theorem execHdrCheck_columns (h : execHdrCheck s = .next t) :
    t = { s with phase := t.phase, frameBits := t.frameBits } := by
  unfold execHdrCheck at h
  split at h <;> cases h
  · exact absurd rfl hne
  · rfl

theorem takeInflated_columns {answer : Option (List Byte)} (h : takeInflated answer s = .next t) :
    t = { s with phase := t.phase, cur := t.cur, limit := t.limit, src := t.src, ib := t.ib } := by
  unfold takeInflated at h
  split at h
  · cases h; exact absurd rfl hne
  · split at h <;> cases h
    rfl

theorem execFrameTest_columns (h : execFrameTest s = .next t) :
    t = { s with phase := t.phase, x := t.x, y := t.y, fs := t.fs } := by
  unfold execFrameTest at h
  split at h
  · cases h; rfl
  · split at h <;> cases h
    · exact absurd rfl hne
    · rfl

end

/-- Settles O41: an answer that is not the error entry is the meaning's own update. -/
theorem elementsWriteTheirColumns : Obligations.ElementsWriteTheirColumns := fun s t hne =>
  ⟨fun _ => execFmt_columns hne, fun _ => execCmp_columns hne, fun _ => execLen_columns hne,
    fun _ => execWm1_columns hne, fun _ => execHm1_columns hne, execHdrCheck_columns hne,
    fun h => by cases h; rfl, fun _ => takeInflated_columns hne, execFrameTest_columns hne,
    fun _ => pixelElement_columns, fun _ => pixelElement_columns, execDurTest_columns, fun _ => execDur_columns,
    fun _ h => by cases h; rfl⟩

end Sys2Proof.Machine
end

section
/-! PROOF. The transition table (R177): where the selected operation goes from a state that meets the invariants. -/

namespace Sys2Proof.Machine

/-- Where a header field goes: on where its bits are unread, otherwise to `ERROR`. -/
theorem headerField_phase {n : Nat} {effect : State → State} {s t : State} (h : headerField n effect s = .next t) :
    t.phase = if n ≤ s.remaining then (effect { s with cur := s.cur + n }).phase else .error := by
  rcases headerField_cases h with ⟨hr, rfl⟩ | ⟨hr, rfl⟩
  · rw [if_neg (Nat.not_le.2 hr)]; rfl
  · rw [if_pos hr]

theorem nextPixel_phase {s : State} (hp : s.phase = .fPixel) (hx : s.x.toNat < s.width.toNat)
    (hy : s.y.toNat < s.height.toNat) : s.nextPixel.phase = s.tableNext := by
  unfold State.nextPixel
  simp only [State.tableNext, hp]
  split
  case isTrue h => rw [if_neg (by omega)]
  case isFalse h =>
    split
    case isTrue h' => rw [if_neg (by omega)]
    case isFalse h' => rw [if_pos (by omega)]

/-- The arc of the table (R177); the two exceptions are a header taken whole and a failed `Inflate`. -/
theorem phase_of_selected {op : State → Res} {s t : State} (hs : Inv s) (hop : Selected s op) (h : op s = .next t) :
    t.phase = s.tableNext ∨ (s.phase = .hFmt ∧ s.ctx.whole = true ∧ (t.phase = .pSelect ∨ t.phase = .error)) ∨
      (s.phase = .pSelect ∧ s.cmp = 1 ∧ t.phase = .error) := by
  cases hop with
  | wholeHeader f c hp hwhole hw hh =>
    have hto := (wholeHeader_inv hs hp hw hh h).2
    exact .inr (.inl ⟨hp, hwhole, by tauto⟩)
  | fmt f hp =>
    left
    rw [headerField_phase h, State.tableNext, hp]
    rcases bit_eq_zero_or_one f with rfl | rfl <;> simp
  | cmp c hp | len l hp | wm1 hp | hm1 hp =>
    left
    rw [headerField_phase h, State.tableNext, hp]
  | hdrCheck hp =>
    obtain ⟨hw, -⟩ := hs.width_read (.inr hp)
    obtain ⟨hh, -⟩ := hs.height_read hp
    rw [execHdrCheck_of_dims hw hh] at h
    cases h
    simp [State.tableNext, hp]
  | selRaw hp => cases h; simp [State.tableNext, hp]
  | cbyte bytes hp hc =>
    rcases hfail : Config.inflate bytes with _ | r
    · rw [execCbyte, hfail] at h
      cases h
      exact .inr (.inr ⟨hp, hc, rfl⟩)
    · simp only [execCbyte, hfail, takeInflated] at h
      split at h <;> cases h
      simp [State.tableNext, hp, State.switchSource]
  | frameTest hp =>
    left
    simp only [State.tableNext, hp]
    rw [execFrameTest] at h
    split at h
    case isTrue hr => cases h; rw [if_pos hr]
    case isFalse hr =>
      rw [if_neg hr]
      split at h
      case isTrue hfull => cases h; rw [if_pos hfull]; rfl
      case isFalse hroom => cases h; rw [if_neg hroom]; rfl
  | pixel hp =>
    obtain ⟨-, fr, -, -, rfl⟩ := pixelElement_cases h
    obtain ⟨hx, hy, -⟩ := hs.pixel_left hp
    left
    refine (nextPixel_phase (s := { s with
      cur := s.cur + pixelBits s.fmt, fs := s.fs.set s.nframes { fr with pix := _ } }) hp hx hy).trans ?_
    simp only [State.tableNext, hp]
  | durTest hp =>
    left
    simp only [State.tableNext, hp]
    rw [execDurTest] at h
    split at h
    case isTrue hr => cases h; rw [if_pos hr]
    case isFalse hr => cases h; rw [if_neg hr]
  | dur d hp =>
    obtain ⟨-, fr, -, rfl⟩ := execDur_cases h
    simp [State.tableNext, hp]
  | pad n hp => cases h; simp [State.tableNext, hp]

theorem tableNext_notBusy {s : State} (hb : s.busy = false) : s.tableNext = s.phase := by
  have hnot := s.busy_iff.not.1 (by simp [hb])
  unfold State.tableNext
  cases hp : s.phase <;> simp_all

/-- Outside `P_SELECT` of a compressed stream the step takes the arc of the table. -/
theorem step_phase {s : State} (hs : Inv s) (hgrain : s.build.grain = .perField) (hsilent : s.hostTurns = [])
    (hraw : s.phase = .pSelect → s.cmp = 0) : ∃ t, step s = .next t ∧ t.phase = s.tableNext := by
  rw [step_silent hsilent]
  cases hb : s.busy with
  | false => exact ⟨s, decoderStep_notBusy hb, (tableNext_notBusy hb).symm⟩
  | true =>
    obtain ⟨i, -, hop, hstep⟩ := hs.decoderStep_busy hb
    rw [hstep]
    rcases hs.progress_of_selected hop with ⟨t, ht⟩ | ⟨hp, hc, -⟩
    · refine ⟨t, ht, ?_⟩
      rcases phase_of_selected hs hop ht with h | ⟨-, hwhole, -⟩ | ⟨hp, hc, -⟩
      · exact h
      · rw [State.ctx_of_none (State.wholeHeader?_eq_none (.inl hgrain))] at hwhole
        cases hwhole
      · rw [hraw hp] at hc; cases hc
    · rw [hraw hp] at hc; cases hc

/-- `P_SELECT` of a compressed stream takes a `CBYTE`. -/
theorem fetch_cbyte {s : State} (hs : Inv s) (hp : s.phase = .pSelect) (hc : s.cmp = 1) :
    ∃ bytes, s.fetch = some (.cbyte bytes) ∧ decoderStep s = execCbyte bytes s := by
  obtain ⟨i, hi, -, hstep⟩ := hs.decoderStep_busy (by rw [State.busy, hp]; rfl)
  have hw := State.fetch_wellFormed hi
  cases i with
  | cbyte bytes => exact ⟨bytes, hi, hstep⟩
  | hdrL1 | hdrL2 | hdrL3 | hdrL4 | hdrL5 | hdrL6 | hdrL7 | hdrL8 | hdrL9 | hdrL10 | hdrL11 | hdrL12 | hdrL13 | hdrL14
  | hdrL15 | hdrL16 | fmt | cmp | len | wm1 | hm1 | pix1 | pix3 | dur | pad | hdrCheck | selRaw | frameTest | durTest =>
    simp [wellFormed, hp, hc] at hw

/-- Settles O57: the host's arcs, the arcs of the decoder, and those out of `P_SELECT` by the answer of `Inflate`. -/
theorem transitionTable : Obligations.TransitionTable := by
  intro s hs hgrain
  refine ⟨fun hp hw => ?_, fun a ha => ?_, fun hsilent hraw => step_phase hs hgrain hsilent hraw,
    fun hsilent hp hc => ?_⟩
  · exact ⟨s.launch, (hostAct_start s).trans (startCommand_accepts (busy_eq_false_of_phase hp) hw), rfl⟩
  · rcases ha with rfl | rfl
    · exact ⟨s.softReset, hostAct_srst s, rfl⟩
    · exact ⟨s.hardReset, rfl, rfl⟩
  · obtain ⟨bytes, hfetch, hstep⟩ := fetch_cbyte hs hp hc
    rw [step_silent hsilent, hstep]
    refine ⟨bytes, hfetch, fun hnone => by rw [execCbyte, hnone]; rfl, fun r hr hfits => ?_⟩
    refine ⟨s.switchSource r, by rw [execCbyte, hr]; exact if_pos hfits, ?_⟩
    simp [State.tableNext, hp, State.switchSource]

end Sys2Proof.Machine
end

section
/-! PROOF. The payload steps from a state that meets the invariants (R171 to R175), and the bounds on a run's steps
(R179). -/

namespace Sys2Proof.Machine

/-- A state that selects a field of `n` unread bits takes the element of the word that stands there. -/
theorem PayloadStream.step_word {bits : List Bool} {s : State} (hs : PayloadStream bits s) {n : Nat}
    {mk : BitVec n → Instr} (hn : n ≤ bits.length) (hp : s.phase ≠ .idle ∧ s.phase ≠ .error)
    (hw : elementWidth s.ctx = n)
    (hd : ∀ operand, decode s.ctx operand = decodeField n (fun v => mk (.ofNat n v)) operand) :
    ∃ v : BitVec n, readBits s.source s.cur n = some (bitsOfNat n v.toNat) ∧ step s = exec (mk v) s := by
  have hread := (readBits_split hs.unread (hs.remaining ▸ hn)).1
  obtain ⟨v, hv, hbits⟩ := exists_bitsOfNat_eq (readBits_length hread)
  exact ⟨v, hbits.symm ▸ hread, hv ▸ hs.step_field (mk := fun v => mk (.ofNat n v)) hn hp hw hd⟩

namespace Inv
variable {s : State} (hs : Inv s)
include hs

theorem unread_isSome (hb : s.busy = true) : ∃ bits, s.unread = some bits := by
  obtain ⟨n, hlimit, hwritten, -⟩ := hs.source_readable hb
  have hcur := hs.cur_le_limit
  exact readBits_isSome hwritten (by unfold State.remaining; omega)

theorem step_progress (hsilent : s.hostTurns = []) (hp : s.phase ≠ .pSelect) : ∃ t, step s = .next t := by
  rw [step_silent hsilent]
  rcases hs.decoderStep_progress with h | ⟨hp', -⟩
  · exact h
  · exact absurd hp' hp

end Inv

/-- Settles O33: the bits that a payload state needs are unread, and it makes progress. -/
theorem payloadSteps : Obligations.PayloadSteps := by
  intro s hs hsilent
  have hnext {p : Phase} (hp : s.phase = p) (hne : p ≠ .pSelect) : ∃ t, step s = .next t :=
    hs.step_progress hsilent (hp ▸ hne)
  have hstream {p : Phase} (hp : s.phase = p) (hk : headerKnown p = true) (hb : phaseBusy p = true) :
      ∃ bits, PayloadStream bits s := by
    subst hp
    obtain ⟨bits, hbits⟩ := hs.unread_isSome hb
    exact ⟨bits, hs.payloadStream hk hsilent hbits⟩
  refine ⟨fun hp => ?_, fun hp hf => ?_, fun hp hf => ?_, fun hp => ?_, fun hp => ?_⟩
  all_goals obtain ⟨bits, hbits⟩ := hstream hp rfl rfl
  · exact ⟨hbits.step_fTest hp, hnext hp (by simp)⟩
  · have h1 : pixelBits s.fmt ≤ bits.length := hbits.remaining ▸ (hs.pixel_ready hp).1
    rw [hf] at h1
    obtain ⟨v, hread, hstep⟩ := hbits.step_word (mk := .pix1) h1 (by simp [hp]) (by simp [elementWidth, hp, hf])
      (by simp [decode, hp, hf])
    exact ⟨v, hread, hstep, hnext hp (by simp)⟩
  · have h3 : pixelBits s.fmt ≤ bits.length := hbits.remaining ▸ (hs.pixel_ready hp).1
    rw [hf] at h3
    obtain ⟨v, hread, hstep⟩ := hbits.step_word (mk := .pix3) h3 (by simp [hp]) (by simp [elementWidth, hp, hf])
      (by simp [decode, hp, hf])
    exact ⟨v, hread, hstep, hnext hp (by simp)⟩
  · exact ⟨hbits.step_dTest hp, hnext hp (by simp)⟩
  · have h8 : 8 ≤ bits.length := hbits.remaining ▸ hs.duration_left hp
    obtain ⟨v, hread, hstep⟩ := hbits.step_word (mk := .dur) h8 (by simp [hp]) (by simp [elementWidth, hp])
      (by simp [decode, hp])
    exact ⟨v, hread, hstep, hnext hp (by simp)⟩

/-! ## Every run ends -/

/-- A run has ended. -/
def Ended (s : State) : Prop := s.phase = .done ∨ s.phase = .error

/-- The states between the first `F_TEST` and the run's end. -/
def Decoding (s : State) : Prop := s.phase = .fTest ∨ s.phase = .fPixel ∨ s.phase = .dTest ∨ s.phase = .dRead

theorem stepsLeft_of_ended {s : State} (h : Ended s) : stepsLeft s = 0 := by
  unfold stepsLeft
  rcases h with h | h <;> rw [h]

theorem Inv.stepsLeft_pos {s : State} (hs : Inv s) (hp : Decoding s) : 0 < stepsLeft s := by
  unfold stepsLeft
  rcases hp with hp | hp | hp | hp <;> rw [hp]
  · exact Nat.succ_pos _
  · have hbits := (hs.pixel_ready hp).1
    have hpos := pixelBits_pos s.fmt
    show 0 < 3 * s.remaining
    omega
  · exact Nat.succ_pos _
  · exact Nat.succ_pos _

/-- Each payload operation ends the run or leaves fewer steps (R179). -/
theorem stepsLeft_lt {op : State → Res} {s t : State} (hs : Inv s) (hp : Decoding s) (hop : Selected s op)
    (h : op s = .next t) : (Ended t ∨ Decoding t) ∧ stepsLeft t < stepsLeft s := by
  have hpos := hs.stepsLeft_pos hp
  have hend (he : Ended t) : (Ended t ∨ Decoding t) ∧ stepsLeft t < stepsLeft s :=
    ⟨.inl he, (stepsLeft_of_ended he).symm ▸ hpos⟩
  cases hop with
  | wholeHeader _ _ hp' | fmt _ hp' | cmp _ hp' | len _ hp' | wm1 hp' | hm1 hp' | hdrCheck hp' | selRaw hp'
  | cbyte _ hp' | pad _ hp' => simp [Decoding, hp'] at hp
  | frameTest hp' =>
    rw [execFrameTest] at h
    split at h
    · cases h; exact hend (.inl rfl)
    · split at h <;> cases h
      · exact hend (.inr rfl)
      · exact ⟨.inr (by simp [Decoding]), by simp [stepsLeft, hp', State.remaining]⟩
  | pixel hp' =>
    obtain ⟨hb, fr, -, -, rfl⟩ := pixelElement_cases h
    have hpixel := pixelBits_pos s.fmt
    have hleft : stepsLeft s = 3 * s.remaining := by simp only [stepsLeft, hp']
    generalize hu : ({ s with
      cur := s.cur + pixelBits s.fmt, fs := s.fs.set s.nframes { fr with pix := _ } } : State) = u
    have hup : u.phase = .fPixel := by rw [← hu]; exact hp'
    have hrem : u.remaining = s.remaining - pixelBits s.fmt := by rw [← hu]; exact (Nat.sub_sub ..).symm
    have hrem' : u.nextPixel.remaining = u.remaining := by simp [State.remaining]
    have hnext := u.nextPixel_phase_cases
    rw [hup] at hnext
    refine ⟨.inr (by unfold Decoding; tauto), ?_⟩
    rcases hnext with hnext | hnext <;> (simp only [stepsLeft, hnext] at hleft ⊢; omega)
  | durTest hp' =>
    rw [execDurTest] at h
    split at h <;> cases h
    · exact ⟨.inr (by simp [Decoding]), by simp [stepsLeft, hp', State.remaining]⟩
    · exact ⟨.inr (by simp [Decoding]), by simp [stepsLeft, hp', State.remaining]⟩
  | dur d hp' =>
    obtain ⟨h8, fr, -, rfl⟩ := execDur_cases h
    refine ⟨.inr (by simp [Decoding]), ?_⟩
    simp only [stepsLeft, hp', State.remaining] at h8 ⊢
    omega

/-- A step of the decoder from a busy state, the host silent: the selected operation, the host still silent. -/
theorem Inv.step_busy {s : State} (hs : Inv s) (hsilent : s.hostTurns = []) (hb : s.busy = true) :
    ∃ op, Selected s op ∧ step s = op s ∧ ∀ t, op s = .next t → Inv t ∧ t.hostTurns = [] := by
  obtain ⟨i, -, hop, hstep⟩ := hs.decoderStep_busy hb
  refine ⟨exec i, hop, (step_silent hsilent).trans hstep, fun t ht => ⟨hs.of_selected hop ht, ?_⟩⟩
  obtain ⟨-, -, -, hturns, -⟩ := hostSide_eq_iff.1 (hostSide_exec ht)
  exact hturns.trans hsilent

theorem Decoding.busy {s : State} (hp : Decoding s) : s.busy = true := by
  rcases hp with hp | hp | hp | hp <;> (rw [State.busy, hp]; rfl)

theorem run_ends {n : Nat} : ∀ {s : State}, Inv s → s.hostTurns = [] → Decoding s → stepsLeft s ≤ n →
    ∃ k t, k ≤ n ∧ Host.Core.run core k s = .next t ∧ Ended t := by
  induction n with
  | zero => exact fun hs _ hp hn => absurd (hs.stepsLeft_pos hp) (Nat.not_lt.2 hn)
  | succ n ih =>
    intro s hs hsilent hp hn
    obtain ⟨op, hop, hstep, hkeep⟩ := hs.step_busy hsilent hp.busy
    have hne : s.phase ≠ .pSelect := by rcases hp with hp | hp | hp | hp <;> simp [hp]
    obtain ⟨t, ht⟩ := (hs.progress_of_selected hop).resolve_right fun h => hne h.1
    obtain ⟨hinv, hturns⟩ := hkeep t ht
    obtain ⟨hphase, hlt⟩ := stepsLeft_lt hs hp hop ht
    have hrun (k : Nat) := run_succ_of_step (M := core) k (hstep.trans ht)
    rcases hphase with hend | hp'
    · exact ⟨1, t, Nat.succ_pos n, hrun 0, hend⟩
    · obtain ⟨k, u, hk, hu, hend⟩ := ih hinv hturns hp' (by omega)
      exact ⟨k + 1, u, Nat.succ_le_succ hk, (hrun k).trans hu, hend⟩

/-- The steps from a header state to the payload, at most (R179). -/
def headerStepsLeft : Phase → Nat
  | .hFmt => 7
  | .hCmp => 6
  | .hLen => 5
  | .hWidth => 4
  | .hHeight => 3
  | .hCheck => 2
  | .pSelect => 1
  | .idle | .fTest | .fPixel | .dTest | .dRead | .done | .error => 0

/-- Each header operation goes to `ERROR`, to `F_TEST` or to a later header state, by the table (R177). -/
theorem headerStepsLeft_lt {op : State → Res} {s t : State} (hs : Inv s) (hp : 0 < headerStepsLeft s.phase)
    (hop : Selected s op) (h : op s = .next t) :
    (t.phase = .fTest ∨ t.phase = .error) ∨
      0 < headerStepsLeft t.phase ∧ headerStepsLeft t.phase < headerStepsLeft s.phase := by
  rcases phase_of_selected hs hop h with hnext | ⟨hfmt, -, hto | hto⟩ | ⟨-, -, hto⟩
  · rw [hnext]
    cases hphase : s.phase <;> simp [hphase, headerStepsLeft] at hp <;> simp only [State.tableNext, hphase]
    case hCheck => decide
    case pSelect => decide
    all_goals split <;> decide
  · rw [hto, hfmt]; decide
  · exact .inl (.inr hto)
  · exact .inl (.inr hto)

theorem run_header_ends {n : Nat} : ∀ {s : State}, Inv s → s.hostTurns = [] → 0 < headerStepsLeft s.phase →
    headerStepsLeft s.phase ≤ n →
    ∃ k, k ≤ n ∧ ((∃ t, Host.Core.run core k s = .next t ∧ (t.phase = .fTest ∨ t.phase = .error)) ∨
      Host.Core.run core k s = .refused .inflateTooLong) := by
  induction n with
  | zero => exact fun _ _ hp hn => absurd hp (Nat.not_lt.2 hn)
  | succ n ih =>
    intro s hs hsilent hp hn
    have hb : s.busy = true := by
      rw [State.busy]
      cases hphase : s.phase <;> simp [hphase, headerStepsLeft] at hp <;> rfl
    obtain ⟨op, hop, hstep, hkeep⟩ := hs.step_busy hsilent hb
    rcases hs.progress_of_selected hop with ⟨t, ht⟩ | ⟨-, -, hrefused⟩
    · obtain ⟨hinv, hturns⟩ := hkeep t ht
      have hrun (k : Nat) := run_succ_of_step (M := core) k (hstep.trans ht)
      rcases headerStepsLeft_lt hs hp hop ht with hend | ⟨hpos, hlt⟩
      · exact ⟨1, Nat.succ_pos n, .inl ⟨t, hrun 0, hend⟩⟩
      · obtain ⟨k, hk, hto⟩ := ih hinv hturns hpos (by omega)
        exact ⟨k + 1, Nat.succ_le_succ hk, by rw [hrun k]; exact hto⟩
    · exact ⟨1, Nat.succ_pos n, .inr ((run_one (M := core) s).trans (hstep.trans hrefused))⟩

/-- Settles O36: `stepsLeft` falls from `F_TEST` on, and the header's states follow one another. -/
theorem everyRunEnds : Obligations.EveryRunEnds := by
  refine ⟨fun s hs hp hsilent => run_ends hs hsilent (.inl hp) ?_, fun s hs hp hsilent => ?_⟩
  · rw [stepsLeft, hp]
  · exact run_header_ends hs hsilent (by rw [hp]; decide) (by rw [hp]; decide)

end Sys2Proof.Machine
end

section
/-! PROOF. The start-up sequence (R283): the bytes loaded one a turn, the length, the launch. -/

namespace Sys2Proof.Machine

theorem step_writeSb {s : State} {a : Nat} {v : Byte} {turns : List (Option HostAction)} (hb : s.busy = false)
    (h : s.hostTurns = some (.writeSb a v) :: turns) :
    step s = .next { s with sb := Memory.write s.sb a v, hostTurns := turns } :=
  (step_hostAct h).trans (if_neg (ne_true_of_eq_false hb))

/-- The turns of `LOAD` write their bytes, one after another (R212). -/
theorem run_load (turns : List (Option HostAction)) : ∀ (bytes : List Byte) {a : Nat} {s : State}, s.busy = false →
    s.hostTurns = loadTurns a bytes ++ turns →
    Host.Core.run core bytes.length s = .next { s with sb := Memory.writeBytes s.sb a bytes, hostTurns := turns }
  | [], _, s, _, h => by
    have hturns : s.hostTurns = turns := h
    rw [← hturns]
    rfl
  | v :: vs, a, s, hb, h =>
    (run_succ_of_step (M := core) vs.length (step_writeSb hb h)).trans
      (run_load turns vs (s := { s with sb := Memory.write s.sb a v, hostTurns := _ }) hb rfl)

theorem holds_writeBytes (m : Memory) (bytes : List Byte) : Holds (Memory.writeBytes m 0 bytes) bytes := by
  intro a ha
  rw [Memory.read_writeBytes, if_pos (by omega), Nat.sub_zero]

theorem written_of_holds {m : Memory} {bytes : List Byte} (h : Holds m bytes) : Memory.written m bytes.length = true :=
  (Memory.written_iff m _).2 fun a ha => ⟨bytes[a], (h a ha).trans (List.getElem?_eq_getElem ha)⟩

/-- A length whose bits fit the cursor fits `STREAM_LEN` (R33). -/
theorem mod_streamLen {n w : Nat} (h : 8 * n < 2 ^ w) : n % 2 ^ (w - 3) = n := by
  refine Nat.mod_eq_of_lt ?_
  rcases Nat.lt_or_ge w 3 with hw | hw
  · have hsmall : 2 ^ w ≤ 2 ^ 2 := Nat.pow_le_pow_right Nat.two_pos (by omega)
    exact (by omega : n < 1).trans_le Nat.one_le_two_pow
  · rw [← Nat.add_sub_cancel' hw, Nat.pow_add] at h
    omega

theorem writeStreamLen_fits {s : State} {n : Nat} (hb : s.busy = false) (hn : 8 * n < 2 ^ s.build.cursorW) :
    writeStreamLen n s = .next { s with streamLen := n } := by
  rw [writeStreamLen, if_neg (ne_true_of_eq_false hb), mod_streamLen hn]

theorem step_writeStreamLen {s : State} {n : Nat} {turns : List (Option HostAction)} (hb : s.busy = false)
    (hn : 8 * n < 2 ^ s.build.cursorW) (h : s.hostTurns = some (.writeReg .streamLen n) :: turns) :
    step s = .next { s with streamLen := n, hostTurns := turns } :=
  (step_hostAct h).trans (writeStreamLen_fits (s := { s with hostTurns := turns }) hb hn)

/-- `START` over bytes that the buffer holds is the launch (R210). -/
theorem step_start {s : State} {bytes : List Byte} {v : Nat} {turns : List (Option HostAction)} (hb : s.busy = false)
    (hlen : s.streamLen = bytes.length) (hm : Holds s.sb bytes) (hv : isStart (.writeReg .ctrl v) = true)
    (h : s.hostTurns = some (.writeReg .ctrl v) :: turns) :
    step s = .next { s.launch with hostTurns := turns } := by
  obtain ⟨h0, h1⟩ : v.testBit 0 = true ∧ v.testBit 1 = false := by
    simpa only [isStart, Bool.and_eq_true, Bool.not_eq_true'] using hv
  have haccept := startCommand_accepts (s := { s with hostTurns := turns }) hb (hlen ▸ written_of_holds hm)
  exact (step_hostAct h).trans ((writeCtrl_start _ h1 h0).trans haccept)

theorem phase_of_notBusy {s : State} (hb : s.busy = false) : s.phase = .idle ∨ s.phase = .done ∨ s.phase = .error := by
  have hnot := s.busy_iff.not.1 (by simp [hb])
  tauto

/-- Settles O51: `len(bytes)` turns of `LOAD`, then the length, then `START`. -/
theorem startUpLaunches : Obligations.StartUpLaunches := by
  intro s bytes hb hturns hgrain hfits
  have hload := run_load _ bytes hb hturns
  have hlen := step_writeStreamLen (turns := [some (.writeReg .ctrl 1)])
    (s := { s with
      sb := Memory.writeBytes s.sb 0 bytes
      hostTurns := [some (.writeReg .streamLen bytes.length), some (.writeReg .ctrl 1)] }) hb hfits rfl
  have hheld := holds_writeBytes s.sb bytes
  have hclean := (run_add_of_run (M := core) 1 hload).trans ((run_one (M := core) _).trans hlen)
  have hstart := step_start (turns := []) (v := 1)
    (s := { s with
      sb := Memory.writeBytes s.sb 0 bytes, streamLen := bytes.length
      hostTurns := [some (.writeReg .ctrl 1)] }) hb rfl hheld (by decide) rfl
  have hlaunch := (run_add_of_run (M := core) 1 hclean).trans ((run_one (M := core) _).trans hstart)
  exact ⟨⟨_, hclean, phase_of_notBusy hb, rfl, hheld, rfl⟩,
    ⟨_, hlaunch, ⟨rfl, rfl, rfl, rfl, hheld, rfl, hgrain⟩, rfl, status_of_hFmt rfl⟩⟩

end Sys2Proof.Machine
end

section
/-! PROOF. The compressed bytes that `P_SELECT` hands to the inflate agent (R202, R203), lifted from the stream. -/

namespace Sys2Proof

/-- Bytes are cut from as many bits as they have. -/
theorem bytesOfBits_take {k n : Nat} (h : 8 * k ≤ n) (bits : List Bool) :
    bytesOfBits k (bits.take n) = bytesOfBits k bits := by
  induction k generalizing n bits with
  | zero => rfl
  | succ k ih =>
    rw [bytesOfBits, bytesOfBits, List.take_take, Nat.min_eq_left (by omega), List.drop_take, ih (by omega)]

theorem drop_bitsOfBytes (a : Nat) (bytes : List Byte) :
    (bitsOfBytes bytes).drop (8 * a) = bitsOfBytes (bytes.drop a) := by
  induction a generalizing bytes with
  | zero => rfl
  | succ a ih =>
    cases bytes with
    | nil => simp [bitsOfBytes]
    | cons b bs =>
      rw [bitsOfBytes_cons, Nat.mul_succ, Nat.add_comm, ← List.drop_drop, List.drop_left' (length_bitsOfNat 8 _), ih,
        List.drop_succ_cons]

end Sys2Proof

namespace Sys2Proof.Machine

theorem State.skip_of_bitAdjacent {s : State} (h : s.build.payloadAlign = .bitAdjacent) : s.skip = 0 := by
  rw [State.skip, h]

theorem State.skip_of_byteAligned {s : State} (h : s.build.payloadAlign = .byteAligned) :
    s.skip = 8 * ((s.cur + 7) / 8) - s.cur := by
  rw [State.skip, h]

/-- The bits skipped lead to the next byte boundary, which is not past the limit of whole bytes. -/
theorem State.skip_le {s : State} {n : Nat} (hlimit : s.limit = 8 * n) (hcur : s.cur ≤ s.limit) :
    s.skip ≤ s.remaining := by
  unfold State.remaining
  cases h : s.build.payloadAlign with
  | bitAdjacent => rw [State.skip_of_bitAdjacent h]; exact Nat.zero_le _
  | byteAligned => rw [State.skip_of_byteAligned h]; omega

/-- The element of `P_SELECT` with `CMP = 1`: the whole bytes after the skip. -/
theorem fetch_compressed {s : State} {bytes : List Byte} (hp : s.phase = .pSelect) (hc : s.cmp = 1)
    (hm : Holds s.source bytes) (hlimit : s.limit = 8 * bytes.length) (hcur : s.cur ≤ s.limit) :
    s.fetch = some (.cbyte (bytesOfBits ((s.remaining - s.skip) / 8) ((bitsOfBytes bytes).drop (s.cur + s.skip)))) := by
  have hskip := State.skip_le hlimit hcur
  have hwidth : elementWidth s.ctx = s.skip + 8 * ((s.remaining - s.skip) / 8) := by
    simp [elementWidth, compressedBytes, hp, hc]
  have hfits : elementWidth s.ctx ≤ s.remaining := by omega
  have hread := readBits_eq hm (i := s.cur) (n := elementWidth s.ctx) (by unfold State.remaining at hfits; omega)
  have hlen := readBits_length hread
  have hlift : ((((bitsOfBytes bytes).drop s.cur).take (elementWidth s.ctx)).drop s.skip) =
      ((bitsOfBytes bytes).drop (s.cur + s.skip)).take (8 * ((s.remaining - s.skip) / 8)) := by
    rw [List.drop_take, List.drop_drop, hwidth, Nat.add_sub_cancel_left]
  refine State.fetch_of_decode hfits hread (rest := []) ?_
  simp only [decode, State.ctx_phase, hp, State.ctx_cmp, hc, if_true, compressedBytes, State.ctx_rem, State.ctx_skip]
  rw [if_neg (Nat.lt_irrefl _ <| hlen ▸ ·), hlift, bytesOfBits_take le_rfl, List.drop_eq_nil_of_le hlen.le]

/-- Settles O7: with no skip, or past it on a byte boundary, where the bits are those of the bytes left. -/
theorem compressedBytesLifted : Obligations.CompressedBytesLifted := by
  intro s bytes hp hc hm hlimit hcur
  have hfetch := fetch_compressed hp hc hm hlimit hcur
  refine ⟨fun halign => ?_, fun halign => ?_⟩
  · rwa [State.skip_of_bitAdjacent halign, Nat.sub_zero, Nat.add_zero] at hfetch
  · have hstart : s.cur + s.skip = 8 * ((s.cur + 7) / 8) := by rw [State.skip_of_byteAligned halign]; omega
    have hcount : (s.remaining - s.skip) / 8 = (bytes.drop ((s.cur + 7) / 8)).length := by
      rw [List.length_drop, State.remaining, State.skip_of_byteAligned halign]
      omega
    have hbytes := bytesOfBits_bitsOfBytes (bytes.drop ((s.cur + 7) / 8)) []
    rw [List.append_nil] at hbytes
    rwa [hstart, drop_bitsOfBytes, hcount, hbytes] at hfetch

end Sys2Proof.Machine
end

section
/-! PROOF. One step of the whole-header grain is six of the per-field grain (R147; log entry 4): both lead to the whole
header of the fields at the cursor. -/

namespace Sys2Proof

/-- The header format's operands, as the whole header takes them. -/
theorem exec_headerInstr {l w h : Nat} (hl : l < 16) (hw : w < 2 ^ (l + 1)) (hh : h < 2 ^ (l + 1)) (f c : Bit)
    (s : Machine.State) : Machine.exec (headerInstr l f c w h) s =
      Machine.wholeHeader f c (.ofNat 4 l) (.ofNat 16 w) (.ofNat 16 h) s := by
  have hword {v : Nat} (hv : v < 2 ^ (l + 1)) : BitVec.ofNat 16 v = (BitVec.ofNat (l + 1) v).setWidth 16 :=
    (BitVec.setWidth_ofNat_of_le_of_lt hl hv).symm
  rw [hword hw, hword hh]
  interval_cases l <;> rfl

end Sys2Proof

namespace Sys2Proof.Machine

/-- A part of a read that succeeds. -/
theorem readBits_part {m : Memory} {i n : Nat} {bits : List Bool} (h : readBits m i n = some bits) {k w : Nat}
    (hk : k + w ≤ n) : readBits m (i + k) w = some ((bits.drop k).take w) :=
  (readBits_split (readBits_split h (by omega : k ≤ n)).2 (by omega)).1

/-- What the fields of a header of `n`-bit dimensions leave (R147). -/
def State.headerRead (s : State) (bits : List Bool) (n : Nat) : State :=
  s.headerResult n (.ofNat 1 (field bits 0 1)) (.ofNat 1 (field bits 1 1)) (field bits 6 n) (field bits (6 + n) n)

theorem step_check {s : State} (hsilent : s.hostTurns = []) (hp : s.phase = .hCheck) : step s = execHdrCheck s := by
  have hw : elementWidth s.ctx = 0 := by simp [elementWidth, hp]
  have hd : decode s.ctx [] = .ok (.hdrCheck, []) := by simp [decode, hp]
  exact step_of_decode hsilent (by simp [hp]) (hw ▸ Nat.zero_le _) (hw ▸ rfl) hd

/-- What was fetched was decoded from the bits at the cursor, where they are unread. -/
theorem State.fetch_eq_some {s : State} {i : Instr} (hr : elementWidth s.ctx ≤ s.remaining) (h : s.fetch = some i) :
    ∃ bits rest, readBits s.source s.cur (elementWidth s.ctx) = some bits ∧ decode s.ctx bits = .ok (i, rest) := by
  unfold State.fetch State.operandBits at h
  rw [if_neg (Nat.not_lt.2 hr)] at h
  split at h
  · cases h
  · split at h <;> cases h
    exact ⟨_, _, ‹_›, ‹_›⟩

section
variable {bits : List Bool} {n : Nat} {s : State} (hdim : n = field bits 2 4 + 1) (hfits : 6 + 2 * n ≤ s.remaining)
include hdim hfits

/-- The whole header of the fields at the cursor, unread. -/
theorem wholeHeader_read :
    wholeHeader (.ofNat 1 (field bits 0 1)) (.ofNat 1 (field bits 1 1)) (.ofNat 4 (field bits 2 4))
      (.ofNat 16 (field bits 6 n)) (.ofNat 16 (field bits (6 + n) n)) s = .next (s.headerRead bits n) := by
  have hl : field bits 2 4 < 2 ^ 4 := field_lt bits 2 4
  have hword {k : Nat} : (BitVec.ofNat 16 (field bits k n)).toNat = field bits k n :=
    BitVec.toNat_ofNat .. ▸ Nat.mod_eq_of_lt (field_lt_of_le bits k (by omega))
  have hlen : (BitVec.ofNat 4 (field bits 2 4)).toNat = n - 1 := by
    rw [BitVec.toNat_ofNat, Nat.mod_eq_of_lt hl, hdim, Nat.add_sub_cancel]
  rw [wholeHeader_long (by omega) _ _ hlen _ _ hfits, hword, hword, State.headerRead]

/-- Six steps, one a field and the check, read the header. -/
theorem run_six_fields (hread : readBits s.source s.cur (6 + 2 * n) = some bits) (hsilent : s.hostTurns = [])
    (hgrain : s.build.grain = .perField) (hp : s.phase = .hFmt) :
    Host.Core.run core 6 s = .next (s.headerRead bits n) := by
  have hl : field bits 2 4 < 2 ^ 4 := field_lt bits 2 4
  have hlen : (BitVec.ofNat 4 (field bits 2 4)).toNat + 1 = n := by rw [BitVec.toNat_ofNat, Nat.mod_eq_of_lt hl, hdim]
  have hvalue {k : Nat} : (BitVec.ofNat 17 (field bits k n + 1)).toNat = field bits k n + 1 := by
    have hlt : field bits k n < 2 ^ 16 := field_lt_of_le bits k (by omega)
    exact BitVec.toNat_ofNat .. ▸ Nat.mod_eq_of_lt (by omega)
  have hpart {k w : Nat} (hk : k + w ≤ 6 + 2 * n) := readBits_part hread hk
  unfold State.remaining at hfits
  refine Eq.trans (run_succ_of_step (M := core) 5 (step_rdFmt hsilent hgrain hp (by unfold State.remaining; omega)
    (hpart (k := 0) (by omega)))) ?_
  refine Eq.trans (run_succ_of_step (M := core) 4 (step_rdCmp hsilent rfl (by simp only [State.remaining]; omega)
    (hpart (k := 1) (by omega)))) ?_
  refine Eq.trans (run_succ_of_step (M := core) 3 (step_rdLen hsilent rfl (by simp only [State.remaining]; omega)
    (hpart (k := 2) (by omega)))) ?_
  refine Eq.trans (run_succ_of_step (M := core) 2 (step_rdWidth hsilent rfl hlen (by simp only [State.remaining]; omega)
    (hpart (k := 6) (by omega)))) ?_
  refine Eq.trans (run_succ_of_step (M := core) 1 (step_rdHeight hsilent rfl hlen (by simp only [State.remaining]; omega)
    (Nat.add_assoc s.cur 6 n ▸ hpart (k := 6 + n) (by omega)))) ?_
  refine Eq.trans (run_one (M := core) _) (Eq.trans (step_check hsilent rfl) ?_)
  have hpos {k : Nat} : 1 ≤ (BitVec.ofNat 17 (field bits k n + 1)).toNat := hvalue.symm ▸ Nat.succ_pos _
  refine Eq.trans (execHdrCheck_of_dims hpos hpos) ?_
  have hcur : s.cur + 1 + 1 + 4 + n + n = s.cur + (6 + 2 * n) := by omega
  have hlenField : field bits 2 4 = n - 1 := by omega
  have hfield {k w : Nat} : natOfBits ((bits.drop k).take w) = field bits k w := rfl
  simp only [State.headerRead, State.headerResult, hcur, hfield, hvalue, hlenField]
  rfl

end

/-- What a whole header's step reads and leaves, where it is not refused. -/
theorem decoderStep_wholeHeader {s t : State} (hp : s.phase = .hFmt) (hwhole : s.ctx.whole = true)
    (h : decoderStep s = .next t) :
    ∃ bits n, n = field bits 2 4 + 1 ∧ elementWidth s.ctx = 6 + 2 * n ∧ 6 + 2 * n ≤ s.remaining ∧
      readBits s.source s.cur (6 + 2 * n) = some bits ∧ t = s.headerRead bits n := by
  obtain ⟨l, hl⟩ : ∃ l, s.wholeHeader? = some l := by
    by_contra hnone
    rw [State.ctx_of_none (Option.eq_none_iff_forall_ne_some.2 fun l h => hnone ⟨l, h⟩)] at hwhole
    cases hwhole
  obtain ⟨-, -, hfits, sub, hsub, hval⟩ := State.wholeHeader?_eq_some hl
  have hwidth : elementWidth s.ctx = 6 + 2 * (l.toNat + 1) := by
    rw [State.ctx_of_some hl]; simp [elementWidth, hp]
  rcases decoderStep_cases h with ⟨hquiet, -⟩ | ⟨-, i, hfetch, -, hexec⟩
  · simp [hp] at hquiet
  obtain ⟨bits, rest, hread, hd⟩ := State.fetch_eq_some (hwidth ▸ hfits) hfetch
  rw [hwidth] at hread
  have hdim : l.toNat + 1 = field bits 2 4 + 1 := by rw [field_of_readBits hread hsub (by omega), hval]
  have hheader : decodeHeader bits = .ok (i, rest) := by
    simpa only [decode, State.ctx_phase, hp, hwhole, if_true] using hd
  obtain ⟨-, -, rfl⟩ := decodeHeader_ok hheader
  rw [← hdim, exec_headerInstr (field_lt bits 2 4) (hdim ▸ field_lt ..) (hdim ▸ field_lt ..),
    wholeHeader_read hdim hfits] at hexec
  cases hexec
  exact ⟨bits, _, hdim, hwidth, hfits, hread, rfl⟩

/-- Settles O15: both grains read the fields of one header. -/
theorem wholeHeaderStepIsSixSteps : Obligations.WholeHeaderStepIsSixSteps := by
  intro s t hp hsilent hgrain hwhole hstep
  rw [step_silent hsilent] at hstep
  obtain ⟨bits, n, hdim, -, hfits, hread, rfl⟩ := decoderStep_wholeHeader hp hwhole hstep
  exact run_six_fields (s := { s with build := { s.build with grain := .perField } }) hdim hfits hread hsilent rfl hp

end Sys2Proof.Machine
end

section
/-! PROOF. Two states that differ in their buffers and the host's data only: the operations do the same in both, because
none but the fetch reads a buffer (R65, R211). -/

namespace Sys2Proof.Machine

/-- `s` with the buffers and the host's data of `u`. -/
def State.seat (s u : State) : State :=
  { s with sb := u.sb, ib := u.ib, hostData := u.hostData, freeReads := u.freeReads }

/-- The same in every register, in the frame store, the build and the host's turns. -/
def Alike (s s' : State) : Prop := s' = s.seat s'

/-- An answer with its next state seated in the buffers and the host's data of `u`. -/
def seatRes (u : State) : Res → Res
  | .next t => .next (t.seat u)
  | .fault r => .fault r
  | .refused r => .refused r

theorem Alike.next {s s' t : State} {op : State → Res} (h : Alike s s') (hop : op (s.seat s') = seatRes s' (op s))
    (ht : op s = .next t) : op s' = .next (t.seat s') := by
  rw [h, hop, ht]
  rfl

/-! ## The operations -/

theorem headerField_seat {n : Nat} {effect : State → State} {s u : State}
    (he : effect ({ s with cur := s.cur + n }.seat u) = (effect { s with cur := s.cur + n }).seat u) :
    headerField n effect (s.seat u) = seatRes u (headerField n effect s) := by
  rcases Nat.lt_or_ge s.remaining n with h | h
  · rw [headerField_short effect h, headerField_short effect (s := s.seat u) h]
    rfl
  · rw [headerField_long effect h, headerField_long effect (s := s.seat u) h]
    exact congrArg Host.Outcome.next he

theorem execFmt_seat (f : Bit) (s u : State) : execFmt f (s.seat u) = seatRes u (execFmt f s) := by
  rcases Nat.lt_or_ge s.remaining 1 with h | h
  · rw [execFmt_short f h, execFmt_short f (s := s.seat u) h]
    rfl
  · rw [execFmt_long f h, execFmt_long f (s := s.seat u) h]
    rfl

theorem execHdrCheck_seat (s u : State) : execHdrCheck (s.seat u) = seatRes u (execHdrCheck s) := by
  by_cases h : s.width.toNat < 1 ∨ s.height.toNat < 1
  · rw [execHdrCheck_of_zero h, execHdrCheck_of_zero (s := s.seat u) h]
    rfl
  · rw [not_or, Nat.not_lt, Nat.not_lt] at h
    rw [execHdrCheck_of_dims h.1 h.2, execHdrCheck_of_dims (s := s.seat u) h.1 h.2]
    rfl

/-- A whole header is its result or its failure, each the same in both states. -/
theorem wholeHeader_seat (f c : Bit) (l : BitVec 4) (w h : BitVec 16) (s u : State) :
    wholeHeader f c l w h (s.seat u) = seatRes u (wholeHeader f c l w h s) := by
  rcases Nat.lt_or_ge s.remaining (6 + 2 * (l.toNat + 1)) with hr | hr
  · rw [wholeHeader_short (Nat.succ_pos _) f c rfl w h hr,
      wholeHeader_short (s := s.seat u) (Nat.succ_pos _) f c rfl w h hr]
    rfl
  · rw [wholeHeader_long (Nat.succ_pos _) f c rfl w h hr,
      wholeHeader_long (s := s.seat u) (Nat.succ_pos _) f c rfl w h hr]
    rfl

theorem execFrameTest_seat (s u : State) : execFrameTest (s.seat u) = seatRes u (execFrameTest s) := by
  rcases Nat.lt_or_ge s.remaining s.frameBits.toNat with hr | hr
  · rw [execFrameTest_stop hr, execFrameTest_stop (s := s.seat u) hr]
    rfl
  by_cases hfull : s.build.maxFrames = some s.nframes
  · rw [execFrameTest_full hr hfull, execFrameTest_full (s := s.seat u) hr hfull]
    rfl
  · rw [execFrameTest_begin hr hfull, execFrameTest_begin (s := s.seat u) hr hfull]
    rfl

theorem execDurTest_seat (s u : State) : execDurTest (s.seat u) = seatRes u (execDurTest s) := by
  rcases Nat.lt_or_ge s.remaining 8 with hr | hr
  · rw [execDurTest_none hr, execDurTest_none (s := s.seat u) hr]
    rfl
  · rw [execDurTest_duration hr, execDurTest_duration (s := s.seat u) hr]
    rfl

theorem State.nextPixel_seat (s u : State) : (s.seat u).nextPixel = s.nextPixel.seat u := by
  unfold State.nextPixel
  show (if s.x.toNat + 1 < s.width.toNat then _ else if s.y.toNat + 1 < s.height.toNat then _ else _) = _
  split
  · rfl
  · split <;> rfl

theorem pixelElement_seat (n : Nat) (code : Code) (s u : State) :
    pixelElement n code (s.seat u) = seatRes u (pixelElement n code s) := by
  unfold pixelElement
  show (if s.remaining < n then _
    else match storePix s.fs s.nframes s.pixelIndex code with | none => _ | some fs => _) = _
  split
  · rfl
  · generalize storePix s.fs s.nframes s.pixelIndex code = stored
    cases stored with
    | none => rfl
    | some fs => exact congrArg Host.Outcome.next (State.nextPixel_seat { s with cur := s.cur + n, fs := fs } u)

theorem execDur_seat (d : Byte) (s u : State) : execDur d (s.seat u) = seatRes u (execDur d s) := by
  unfold execDur
  show (if s.remaining < 8 then _ else match storeDur s.fs s.nframes d with | none => _ | some fs => _) = _
  split
  · rfl
  · generalize storeDur s.fs s.nframes d = stored
    cases stored <;> rfl

/-- Every operation but `SEL_INFLATE` does the same in both states. -/
theorem seat_of_selected {op : State → Res} {s : State} (hop : Selected s op) (hraw : s.phase = .pSelect → s.cmp = 0)
    (u : State) : op (s.seat u) = seatRes u (op s) := by
  cases hop with
  | wholeHeader => exact wholeHeader_seat _ _ _ _ _ s u
  | fmt f => exact execFmt_seat f s u
  | cmp | len | wm1 | hm1 => exact headerField_seat rfl
  | hdrCheck => exact execHdrCheck_seat s u
  | selRaw | pad => rfl
  | cbyte _ hp hc => rw [hraw hp] at hc; cases hc
  | frameTest => exact execFrameTest_seat s u
  | pixel => exact pixelElement_seat _ _ s u
  | durTest => exact execDurTest_seat s u
  | dur d => exact execDur_seat d s u

theorem inflate_of_selected {op : State → Res} {s : State} (hop : Selected s op) (hp : s.phase = .pSelect)
    (hc : s.cmp = 1) : ∃ bytes, op = takeInflated (Config.inflate bytes) := by
  cases hop with
  | cbyte bytes => exact ⟨bytes, rfl⟩
  | selRaw _ hraw => rw [hc] at hraw; cases hraw
  | wholeHeader _ _ h | fmt _ h | cmp _ h | len _ h | wm1 h | hm1 h | hdrCheck h | frameTest h | pixel h | durTest h
  | dur _ h | pad _ h => rw [hp] at h; cases h

end Sys2Proof.Machine
end

section
/-! PROOF. What a step of the decoder does with the source and the cursor, said once: it reads the element's bits and
moves past them, or it raises, or it switches the source (R131, R200, R202, R258). -/

namespace Sys2Proof.Machine

/-- The sequencer's states follow one another: the header's, `P_SELECT`, the payload's. -/
abbrev Onward (p q : Phase) : Prop :=
  q ≠ .hFmt ∧ (headerKnown p = true → headerKnown q = true ∧ q ≠ .pSelect) ∧
    (headerKnown q = true → headerKnown p = true ∨ q = .pSelect)

/-- The element at the cursor has been read and passed, from the same source. -/
structure Reads (s t : State) : Prop where
  width_le : elementWidth s.ctx ≤ s.remaining
  cur : t.cur = s.cur + elementWidth s.ctx
  src : t.src = s.src
  limit : t.limit = s.limit
  ib : t.ib = s.ib
  onward : Onward s.phase t.phase

/-- A step has raised. -/
def Raised (s t : State) : Prop := ∃ e pos, t = s.raise e pos

/-- A step has filled `IB` and made it the source. -/
def Switched (s t : State) : Prop := s.phase = .pSelect ∧ s.cmp = 1 ∧ ∃ r, t = s.switchSource r

section
variable {s t : State}

theorem reads_of {n : Nat} {p : Phase} (q : Phase) (hp : s.phase = p) (hwidth : elementWidth s.ctx = n)
    (hr : n ≤ s.remaining) (hcur : t.cur = s.cur + n) (hkeep : t.src = s.src ∧ t.limit = s.limit ∧ t.ib = s.ib)
    (hq : t.phase = q) (hon : Onward p q) : Reads s t := by
  obtain ⟨hsrc, hlimit, hib⟩ := hkeep
  exact ⟨hwidth ▸ hr, hwidth ▸ hcur, hsrc, hlimit, hib, by rw [hp, hq]; exact hon⟩

theorem outcome_of_headerField {n : Nat} {effect : State → State} (h : headerField n effect s = .next t)
    (hreads : n ≤ s.remaining → Reads s (effect { s with cur := s.cur + n })) :
    Raised s t ∨ Switched s t ∨ Reads s t := by
  rcases headerField_cases h with ⟨-, rfl⟩ | ⟨hr, rfl⟩
  · exact .inl ⟨_, _, rfl⟩
  · exact .inr (.inr (hreads hr))

theorem raised_or_switched_of_takeInflated {answer : Option (List Byte)} (hp : s.phase = .pSelect) (hc : s.cmp = 1)
    (h : takeInflated answer s = .next t) : Raised s t ∨ Switched s t := by
  unfold takeInflated at h
  split at h
  · cases h; exact .inl ⟨_, _, rfl⟩
  · split at h <;> cases h
    exact .inr ⟨hp, hc, _, rfl⟩

/-- What the operations other than a whole header do. -/
theorem outcome_of_selected {op : State → Res} (hop : Selected s op)
    (hwhole : s.phase = .hFmt → s.ctx.whole = false) (h : op s = .next t) : Raised s t ∨ Switched s t ∨ Reads s t := by
  cases hop with
  | wholeHeader _ _ hp hw => rw [hwhole hp] at hw; cases hw
  | cbyte bytes hp hc => exact (raised_or_switched_of_takeInflated hp hc h).imp_right .inl
  | fmt f hp hw =>
    rcases Nat.lt_or_ge s.remaining 1 with hr | hr
    · rw [execFmt_short f hr] at h
      cases h
      exact .inl ⟨_, _, rfl⟩
    · rw [execFmt_long f hr] at h
      cases h
      exact .inr (.inr (reads_of .hCmp hp (by simp [elementWidth, hp, hw]) hr rfl ⟨rfl, rfl, rfl⟩ rfl
        (by decide)))
  | cmp c hp =>
    exact outcome_of_headerField h fun hr =>
      reads_of .hLen hp (by simp [elementWidth, hp]) hr rfl ⟨rfl, rfl, rfl⟩ rfl (by decide)
  | len l hp =>
    exact outcome_of_headerField h fun hr =>
      reads_of .hWidth hp (by simp [elementWidth, hp]) hr rfl ⟨rfl, rfl, rfl⟩ rfl (by decide)
  | wm1 hp =>
    have hlen := State.ctx_len (s := s) (by simp [hp])
    exact outcome_of_headerField h fun hr =>
      reads_of .hHeight hp (by simp [elementWidth, hp, hlen, State.dimBits]) hr rfl ⟨rfl, rfl, rfl⟩ rfl
        (by decide)
  | hm1 hp =>
    have hlen := State.ctx_len (s := s) (by simp [hp])
    exact outcome_of_headerField h fun hr =>
      reads_of .hCheck hp (by simp [elementWidth, hp, hlen, State.dimBits]) hr rfl ⟨rfl, rfl, rfl⟩ rfl
        (by decide)
  | hdrCheck hp =>
    unfold execHdrCheck at h
    split at h <;> cases h
    · exact .inl ⟨_, _, rfl⟩
    · exact .inr (.inr (reads_of .pSelect hp (by simp [elementWidth, hp]) (Nat.zero_le _) rfl ⟨rfl, rfl, rfl⟩ rfl
        (by decide)))
  | selRaw hp hc =>
    cases h
    exact .inr (.inr (reads_of .fTest hp (by simp [elementWidth, hp, hc]) (Nat.zero_le _) rfl ⟨rfl, rfl, rfl⟩ rfl
      (by decide)))
  | frameTest hp =>
    have hwidth : elementWidth s.ctx = 0 := by simp [elementWidth, hp]
    unfold execFrameTest at h
    split at h
    · cases h
      exact .inr (.inr (reads_of .done hp hwidth (Nat.zero_le _) rfl ⟨rfl, rfl, rfl⟩ rfl (by decide)))
    · split at h <;> cases h
      · exact .inl ⟨_, _, rfl⟩
      · exact .inr (.inr (reads_of .fPixel hp hwidth (Nat.zero_le _) rfl ⟨rfl, rfl, rfl⟩ rfl (by decide)))
  | pixel hp =>
    have hwidth : elementWidth s.ctx = pixelBits s.fmt := by simp [elementWidth, hp, pixelBits]
    obtain ⟨hr, fr, -, -, rfl⟩ := pixelElement_cases h
    generalize hu : ({ s with
      cur := s.cur + pixelBits s.fmt, fs := s.fs.set s.nframes { fr with pix := _ } } : State) = u
    have hkeep : u.cur = s.cur + pixelBits s.fmt ∧ u.src = s.src ∧ u.limit = s.limit ∧ u.ib = s.ib ∧
        u.phase = s.phase := hu ▸ ⟨rfl, rfl, rfl, rfl, rfl⟩
    obtain ⟨hcur, hsrc, hlimit, hib, hup⟩ := hkeep
    have hnext := u.nextPixel_phase_cases
    rw [hup, hp] at hnext
    rcases hnext with hnext | hnext
    · exact .inr (.inr (reads_of .fPixel hp hwidth hr (by simpa) (by simp [*]) hnext (by decide)))
    · exact .inr (.inr (reads_of .dTest hp hwidth hr (by simpa) (by simp [*]) hnext (by decide)))
  | durTest hp =>
    have hwidth : elementWidth s.ctx = 0 := by simp [elementWidth, hp]
    unfold execDurTest at h
    split at h <;> cases h
    · exact .inr (.inr (reads_of .dRead hp hwidth (Nat.zero_le _) rfl ⟨rfl, rfl, rfl⟩ rfl (by decide)))
    · exact .inr (.inr (reads_of .fTest hp hwidth (Nat.zero_le _) rfl ⟨rfl, rfl, rfl⟩ rfl (by decide)))
  | dur d hp =>
    obtain ⟨hr, fr, -, rfl⟩ := execDur_cases h
    exact .inr (.inr (reads_of .fTest hp (by simp [elementWidth, hp]) hr rfl ⟨rfl, rfl, rfl⟩ rfl
      (by decide)))
  | pad n hp =>
    cases h
    exact .inr (.inr (reads_of .done hp (by simp [elementWidth, hp]) (Nat.zero_le _) rfl ⟨rfl, rfl, rfl⟩ hp
      (by decide)))

/-- What a step of the decoder does: it waits, raises, switches the source, or reads the element at the cursor. -/
theorem decoderStep_outcome (h : decoderStep s = .next t) :
    (s.phase = .idle ∨ s.phase = .error) ∧ t = s ∨ Raised s t ∨ Switched s t ∨ Reads s t := by
  rcases decoderStep_cases h with hquiet | ⟨-, i, -, hw, hexec⟩
  · exact .inl hquiet
  refine .inr ?_
  by_cases hwhole : s.phase = .hFmt ∧ s.ctx.whole = true
  · obtain ⟨bits, n, -, hwidth, hr, -, rfl⟩ := decoderStep_wholeHeader hwhole.1 hwhole.2 h
    exact .inr (.inr (reads_of .pSelect hwhole.1 hwidth hr rfl ⟨rfl, rfl, rfl⟩ rfl (by decide)))
  · exact outcome_of_selected (selected_of_wellFormed hw) (by simpa using hwhole) hexec

end

end Sys2Proof.Machine
end

section
/-! PROOF. Two runs side by side: where two alike states have the same bits at the cursor they take the same element and
stay alike; where they have the same bits as far as the limit they do so for good (R211). -/

namespace Sys2Proof.Machine

theorem run_succ_eq_next {M : Host.Core} {k : Nat} {s t : M.State} (h : M.run (k + 1) s = .next t) :
    ∃ u, M.step s = .next u ∧ M.run k u = .next t := by
  rw [Host.Core.run] at h
  split at h
  · exact ⟨_, ‹_›, h⟩
  · cases h
  · cases h

theorem readBits_congr {m m' : Memory} {i : Nat} : ∀ {n : Nat}, (∀ j, i ≤ j → j < i + n → srcBit m' j = srcBit m j) →
    readBits m' i n = readBits m i n
  | 0, _ => rfl
  | n + 1, h => by
    rw [readBits, readBits, h i le_rfl (by omega), readBits_congr fun j hj hlt => h j (by omega) (by omega)]

section
variable {s u : State}

theorem wholeHeader?_seat (hlen : s.build.grain = .wholeHeader → s.phase = .hFmt → 6 ≤ s.remaining →
    readBits (s.seat u).source (s.cur + 2) 4 = readBits s.source (s.cur + 2) 4) :
    (s.seat u).wholeHeader? = s.wholeHeader? := by
  unfold State.wholeHeader?
  show (if s.build.grain = .wholeHeader ∧ s.phase = .hFmt ∧ 6 ≤ s.remaining then
    match readBits (s.seat u).source (s.cur + 2) 4 with | some _ => _ | none => _ else _) = _
  split
  case isTrue h => rw [hlen h.1 h.2.1 h.2.2]; rfl
  case isFalse => rfl

/-- The fetch reads no bits but those of `LEN`, of a header taken whole, and of the element. -/
theorem fetch_seat (hlen : s.build.grain = .wholeHeader → s.phase = .hFmt → 6 ≤ s.remaining →
      readBits (s.seat u).source (s.cur + 2) 4 = readBits s.source (s.cur + 2) 4)
    (hoperand : elementWidth s.ctx ≤ s.remaining →
      readBits (s.seat u).source s.cur (elementWidth s.ctx) = readBits s.source s.cur (elementWidth s.ctx)) :
    (s.seat u).fetch = s.fetch := by
  have hctx : (s.seat u).ctx = s.ctx := by
    unfold State.ctx
    rw [wholeHeader?_seat hlen]
    rfl
  have hbits : (s.seat u).operandBits = s.operandBits := by
    unfold State.operandBits
    rw [hctx]
    show (if s.remaining < elementWidth s.ctx then _ else readBits (s.seat u).source s.cur _) = _
    split
    case isTrue => rfl
    case isFalse h => rw [hoperand (Nat.not_lt.1 h)]
  unfold State.fetch
  rw [hbits, hctx]

end

/-- Alike states with the same bits as far as `n`, beyond the element's, take the same element. -/
theorem fetch_congr {s s' : State} {n : Nat} (h : Alike s s') (hbits : ∀ i < n, srcBit s'.source i = srcBit s.source i)
    (hgrain : s.build.grain = .perField ∨ (s.phase = .hFmt → 6 ≤ s.remaining → s.cur + 6 ≤ n))
    (hoperand : elementWidth s.ctx ≤ s.remaining → ∀ i, s.cur ≤ i → i < s.cur + elementWidth s.ctx → i < n) :
    s'.fetch = s.fetch := by
  rw [h] at hbits ⊢
  refine fetch_seat (fun hwhole hp hr => readBits_congr fun i _ hi => hbits i ?_)
    fun hr => readBits_congr fun i hge hlt => hbits i (hoperand hr i hge hlt)
  rcases hgrain with hfield | hgrain
  · rw [hfield] at hwhole; cases hwhole
  · have := hgrain hp hr
    omega

/-- Alike after a step from alike states: each keeps its own buffers, or both have been switched to the same answer. -/
def StepsAlike (s s' t t' : State) : Prop :=
  ¬ Switched s t ∧ t' = t.seat s' ∨ Switched s t ∧ t' = t.seat { s' with ib := t.ib }

theorem alike_takeInflated {s s' t : State} {answer : Option (List Byte)} (h : Alike s s') (hp : s.phase = .pSelect)
    (hc : s.cmp = 1) (ht : takeInflated answer s = .next t) :
    ∃ t', takeInflated answer s' = .next t' ∧ StepsAlike s s' t t' := by
  obtain ⟨u, rfl⟩ : ∃ u, s' = s.seat u := ⟨s', h⟩
  cases answer with
  | none =>
    cases ht
    refine ⟨_, rfl, .inl ⟨fun ⟨_, _, r, hr⟩ => ?_, rfl⟩⟩
    exact nomatch congrArg State.phase hr
  | some r =>
    rcases Nat.lt_or_ge (8 * r.length) (2 ^ s.build.cursorW) with hr | hr
    · rw [takeInflated_fits hr] at ht
      cases ht
      exact ⟨_, takeInflated_fits (s := s.seat u) hr, .inr ⟨⟨hp, hc, r, rfl⟩, rfl⟩⟩
    · rw [takeInflated_long hr] at ht; cases ht

/-- A step from alike states that take the same element. -/
theorem alike_decoderStep {s s' t : State} (h : Alike s s') (hfetch : s'.fetch = s.fetch)
    (hstep : decoderStep s = .next t) : ∃ t', decoderStep s' = .next t' ∧ StepsAlike s s' t t' := by
  have hphase : s'.phase = s.phase := by rw [h]; rfl
  rcases decoderStep_cases hstep with ⟨hquiet, rfl⟩ | ⟨hp, i, hi, hw, hexec⟩
  · exact ⟨s', decoderStep_quiet (by rwa [hphase]), .inl ⟨fun hsw => by simp [hsw.1] at hquiet, h⟩⟩
  have hop := selected_of_wellFormed hw
  rw [decoderStep_of_fetch (hfetch.trans hi) (by rwa [hphase])]
  by_cases hswitch : s.phase = .pSelect ∧ s.cmp = 1
  · obtain ⟨bytes, hbytes⟩ := inflate_of_selected hop hswitch.1 hswitch.2
    rw [hbytes] at hexec ⊢
    exact alike_takeInflated h hswitch.1 hswitch.2 hexec
  · have hraw (hp : s.phase = .pSelect) : s.cmp = 0 :=
      (bit_eq_zero_or_one s.cmp).resolve_right fun hc => hswitch ⟨hp, hc⟩
    exact ⟨_, h.next (seat_of_selected hop hraw s') hexec, .inl ⟨fun hsw => hswitch ⟨hsw.1, hsw.2.1⟩, rfl⟩⟩

/-- Alike, and the same source as far as the limit: the runs from there on are one. -/
def Twin (s s' : State) : Prop := Alike s s' ∧ ∀ i < s.limit, srcBit s'.source i = srcBit s.source i

theorem Twin.fetch {s s' : State} (h : Twin s s') : s'.fetch = s.fetch := by
  refine fetch_congr h.1 h.2 (.inr fun _ hr => ?_) fun hr i hge hlt => ?_
  · unfold State.remaining at hr; omega
  · unfold State.remaining at hr; omega

/-- The source is that of the buffers seated. -/
theorem source_seat {s s' t : State} (h : Alike s s') (hsrc : t.src = s.src) : (t.seat s').source = s'.source := by
  have hsrc' : s'.src = s.src := by rw [h]; rfl
  unfold State.source
  rw [hsrc', ← hsrc]
  rfl

theorem Reads.source {s t : State} (h : Reads s t) (hstep : decoderStep s = .next t) : t.source = s.source := by
  obtain ⟨hsb, -⟩ := hostSide_eq_iff.1 (hostSide_decoderStep hstep)
  unfold State.source
  rw [h.src, h.ib, hsb]

theorem Twin.decoderStep {s s' t : State} (h : Twin s s') (hstep : decoderStep s = .next t) :
    ∃ t', Machine.decoderStep s' = .next t' ∧ Twin t t' := by
  obtain ⟨t', ht', ⟨hkeep, rfl⟩ | ⟨⟨-, -, r, rfl⟩, rfl⟩⟩ := alike_decoderStep h.1 h.fetch hstep
  · refine ⟨_, ht', rfl, ?_⟩
    rcases decoderStep_outcome hstep with ⟨-, rfl⟩ | ⟨e, pos, rfl⟩ | hsw | hreads
    · rw [source_seat h.1 rfl]; exact h.2
    · exact fun i hi => absurd hi (Nat.not_lt_zero i)
    · exact absurd hsw hkeep
    · rw [source_seat h.1 hreads.src, hreads.limit, hreads.source hstep]; exact h.2
  · exact ⟨_, ht', rfl, fun _ _ => rfl⟩

theorem Twin.hostTurns {s s' : State} (h : Twin s s') (turns : List (Option HostAction)) :
    Twin { s with hostTurns := turns } { s' with hostTurns := turns } := by
  obtain ⟨halike, hbits⟩ := h
  obtain ⟨u, rfl⟩ : ∃ u, s' = s.seat u := ⟨s', halike⟩
  exact ⟨rfl, hbits⟩

/-- A poll reads the same of both (R214). -/
theorem Twin.readStatus {s s' t : State} (h : Twin s s') (hread : hostReadReg .status s = .next t) :
    ∃ t', hostReadReg .status s' = .next t' ∧ Twin t t' ∧ t.hostTurns = s.hostTurns := by
  obtain ⟨halike, hbits⟩ := h
  obtain ⟨u, rfl⟩ : ∃ u, s' = s.seat u := ⟨s', halike⟩
  rw [hostReadReg_always s (r := .status) rfl] at hread
  cases hread
  exact ⟨_, hostReadReg_always (s.seat u) (r := .status) rfl, ⟨rfl, hbits⟩, rfl⟩

/-- The host does nothing but poll. -/
def Polls (turns : List (Option HostAction)) : Prop := ∀ a ∈ turns, a = none ∨ a = some (.readReg .status)

theorem Twin.step {s s' t : State} (h : Twin s s') (hpolls : Polls s.hostTurns) (hstep : step s = .next t) :
    ∃ t', Machine.step s' = .next t' ∧ Twin t t' ∧ Polls t.hostTurns := by
  have hturns : s'.hostTurns = s.hostTurns := by rw [h.1]; rfl
  have hdecoder {s s' : State} (h : Twin s s') (hp : Polls s.hostTurns) (hd : Machine.decoderStep s = .next t) :
      ∃ t', Machine.decoderStep s' = .next t' ∧ Twin t t' ∧ Polls t.hostTurns := by
    obtain ⟨t', ht', htwin⟩ := h.decoderStep hd
    obtain ⟨-, -, -, hkept, -⟩ := hostSide_eq_iff.1 (hostSide_decoderStep hd)
    exact ⟨t', ht', htwin, hkept ▸ hp⟩
  rcases step_cases hstep with ⟨hnil, hd⟩ | ⟨turns, hcons, hd⟩ | ⟨a, turns, hcons, hact⟩
  · rw [step_silent (hturns.trans hnil)]
    exact hdecoder h hpolls hd
  · rw [step_passed (hturns.trans hcons)]
    rw [hcons] at hpolls
    exact hdecoder (h.hostTurns turns) (fun a ha => hpolls a (.tail _ ha)) hd
  · rw [step_hostAct (hturns.trans hcons)]
    rw [hcons] at hpolls
    obtain rfl : a = .readReg .status := by simpa using hpolls (some a) (.head _)
    obtain ⟨t', ht', htwin, hkept⟩ := (h.hostTurns turns).readStatus hact
    exact ⟨t', ht', htwin, hkept ▸ fun a ha => hpolls a (.tail _ ha)⟩

theorem Twin.run {k : Nat} : ∀ {s s' t : State}, Twin s s' → Polls s.hostTurns → Host.Core.run core k s = .next t →
    ∃ t', Host.Core.run core k s' = .next t' ∧ Twin t t' := by
  induction k with
  | zero =>
    intro s s' t h _ hrun
    cases hrun
    exact ⟨s', rfl, h⟩
  | succ k ih =>
    intro s s' t h hpolls hrun
    obtain ⟨u, hu, hrest⟩ := run_succ_eq_next (M := core) hrun
    obtain ⟨u', hu', htwin, hpolls'⟩ := h.step hpolls hu
    obtain ⟨t', ht', h'⟩ := ih htwin hpolls' hrest
    exact ⟨t', (run_succ_of_step (M := core) k hu').trans ht', h'⟩

theorem observe_of_alike {s s' : State} (h : Alike s s') : observe s' = observe s := by
  rw [h]
  rfl

theorem phase_of_alike {s s' : State} (h : Alike s s') : s'.phase = s.phase := by
  rw [h]
  rfl

/-! ## Two launches of the same bytes -/

theorem twin_launch {s s' : State} {bytes : List Byte} {turns : List (Option HostAction)}
    (hlen : s.streamLen = bytes.length) (hlen' : s'.streamLen = bytes.length) (hm : Holds s.sb bytes)
    (hm' : Holds s'.sb bytes) (hbuild : s.build = s'.build) :
    Twin { s.launch with hostTurns := turns } { s'.launch with hostTurns := turns } := by
  refine ⟨?_, fun i hi => ?_⟩
  · simp only [Alike, State.seat, State.launch, State.cleared, hlen, hlen', hbuild]
  · have hi' : i < 8 * bytes.length := hlen ▸ hi
    exact (srcBit_eq hm' hi').trans (srcBit_eq hm hi').symm

/-- A clean launch waits while the host passes, and starts (R210, R218). -/
theorem run_start {bytes : List Byte} {v : Nat} {turns : List (Option HostAction)}
    (hv : isStart (.writeReg .ctrl v) = true) : ∀ {n : Nat} {s : State}, s.busy = false → s.streamLen = bytes.length →
      Holds s.sb bytes → s.hostTurns = List.replicate n none ++ some (.writeReg .ctrl v) :: turns →
      Host.Core.run core (n + 1) s = .next { s.launch with hostTurns := turns }
  | 0, _, hb, hlen, hm, h => (run_one (M := core) _).trans (step_start hb hlen hm hv h)
  | n + 1, s, hb, hlen, hm, h =>
    have hwait := (step_passed h).trans (decoderStep_notBusy (s := { s with hostTurns := _ }) hb)
    (run_succ_of_step (M := core) (n + 1) hwait).trans (run_start hv (s := { s with hostTurns := _ }) hb hlen hm rfl)

theorem nextAction_replicate (n : Nat) (turns : List (Option HostAction)) :
    nextAction (List.replicate n none ++ turns) = nextAction turns := by
  induction n with
  | zero => rfl
  | succ n ih => exact ih

theorem CleanLaunch.run_start {bytes : List Byte} {s : State} {n v : Nat} {turns : List (Option HostAction)}
    (h : CleanLaunch bytes s) (hturns : s.hostTurns = List.replicate n none ++ some (.writeReg .ctrl v) :: turns) :
    Host.Core.run core (n + 1) s = .next { s.launch with hostTurns := turns } := by
  obtain ⟨hp, hlen, hm, hstart⟩ := h
  rw [hturns, nextAction_replicate] at hstart
  exact Machine.run_start (by simpa [nextAction] using hstart) (busy_eq_false_of_phase hp) hlen hm hturns

theorem eq_launch_of_start {s t : State} (hb : s.busy = false) (h : startCommand s = .next t) : t = s.launch := by
  rcases startCommand_cases h with ⟨hbusy, -⟩ | ⟨-, -, rfl⟩
  · rw [hb] at hbusy; cases hbusy
  · rfl

/-- Settles O54: two launches of the same bytes are twins. -/
theorem runsAreIndependent : Obligations.RunsAreIndependent := by
  refine ⟨fun s s' t t' hsb hlen hbuild hturns hdata hfree hb hb' ht ht' => ?_,
    fun bytes s s' n n' v v' turns hc hc' hbuild hturns hturns' hpolls => ?_⟩
  · rw [eq_launch_of_start hb ht, eq_launch_of_start hb' ht']
    simp only [State.launch, State.cleared, hsb, hlen, hbuild, hturns, hdata, hfree]
  · have hstart := hc.run_start hturns
    refine ⟨hstart, fun k u hrun => ?_⟩
    obtain ⟨-, hlen, hm, -⟩ := hc
    obtain ⟨-, hlen', hm', -⟩ := id hc'
    rw [run_add_of_run (M := core) k hstart] at hrun
    obtain ⟨u', hu', htwin⟩ := (twin_launch (turns := turns) hlen hlen' hm hm' hbuild).run hpolls hrun
    exact ⟨u', (run_add_of_run (M := core) k (hc'.run_start hturns')).trans hu', phase_of_alike htwin.1,
      observe_of_alike htwin.1⟩

end Sys2Proof.Machine
end

section
/-! PROOF. The frame loop reads no bit of its residue (R178, U5). -/

namespace Sys2Proof.Machine

theorem readCodes_append {b : Nat} (ys : List Bool) : ∀ {n : Nat} {xs : List Bool}, n * b ≤ xs.length →
    readCodes b n (xs ++ ys) = readCodes b n xs
  | 0, _, _ => rfl
  | n + 1, xs, h => by
    rw [Nat.succ_mul] at h
    rw [readCodes_succ, readCodes_succ, nextCode, nextCode, List.take_append_of_le_length (by omega),
      List.drop_append_of_le_length (by omega), readCodes_append ys (by rw [List.length_drop]; omega)]

/-- The frame at the front lies in its own bits, and whether a duration follows is decided by how many there are. -/
theorem firstFrame_append {b n : Nat} {xs ys ys' : List Bool} (hlen : ys'.length = ys.length)
    (hused : frameWidth (n * b) (xs ++ ys).length ≤ xs.length) :
    firstFrame b n (xs ++ ys') = firstFrame b n (xs ++ ys) := by
  have hblock := (le_frameWidth (n * b) (xs ++ ys).length).trans hused
  have hlen' : (xs ++ ys').length = (xs ++ ys).length := by rw [List.length_append, List.length_append, hlen]
  rcases Nat.lt_or_ge (xs ++ ys).length (n * b + 8) with h | h
  · rw [firstFrame_of_no_duration h, firstFrame_of_no_duration (hlen' ▸ h), readCodes_append _ hblock,
      readCodes_append _ hblock]
  · rw [frameWidth_of_duration h] at hused
    have htick (zs : List Bool) : ((xs ++ zs).drop (n * b)).take 8 = (xs.drop (n * b)).take 8 := by
      rw [List.drop_append_of_le_length hblock, List.take_append_of_le_length (by rw [List.length_drop]; omega)]
    rw [firstFrame_of_duration h, firstFrame_of_duration (hlen' ▸ h), readCodes_append _ hblock,
      readCodes_append _ hblock, htick, htick]

theorem frameLoop_residue_le {mf : Option Nat} {b n : Nat} :
    ∀ {fuel : Nat} {frames out : List Frame} {bits rest : List Bool}, frameLoop mf b n fuel frames bits = some (out, rest) →
      rest.length ≤ bits.length
  | 0, _, _, _, _, h => by cases h; exact le_rfl
  | fuel + 1, frames, out, bits, rest, h => by
    rcases Nat.lt_or_ge bits.length (n * b) with hstop | hblock
    · rw [frameLoop_stop _ _ hstop] at h
      cases h
      exact le_rfl
    by_cases hroom : mf = some frames.length
    · rw [frameLoop_full _ hblock hroom] at h; cases h
    · rw [frameLoop_frame _ hblock hroom] at h
      have := frameLoop_residue_le h
      rw [List.length_drop] at this
      omega

/-- Other bits in the residue's place: the same frames (U5). -/
theorem frameLoop_other_residue {mf : Option Nat} {b n : Nat} {rest rest' : List Bool}
    (hlen : rest'.length = rest.length) :
    ∀ {fuel : Nat} {frames out : List Frame} {used : List Bool},
      frameLoop mf b n fuel frames (used ++ rest) = some (out, rest) →
      frameLoop mf b n fuel frames (used ++ rest') = some (out, rest')
  | 0, frames, out, used, h => by
    obtain ⟨rfl, hused⟩ : frames = out ∧ used = [] := by simpa [frameLoop] using h
    subst hused
    rfl
  | fuel + 1, frames, out, used, h => by
    have hlen' : (used ++ rest').length = (used ++ rest).length := by rw [List.length_append, List.length_append, hlen]
    rcases Nat.lt_or_ge (used ++ rest).length (n * b) with hstop | hblock
    · rw [frameLoop_stop _ _ hstop] at h
      obtain ⟨rfl, hused⟩ : frames = out ∧ used = [] := by simpa using h
      subst hused
      exact frameLoop_stop _ _ (hlen' ▸ hstop)
    by_cases hroom : mf = some frames.length
    · rw [frameLoop_full _ hblock hroom] at h; cases h
    · rw [frameLoop_frame _ hblock hroom] at h
      have hres := frameLoop_residue_le h
      have hwidth := frameWidth_le hblock
      rw [List.length_drop] at hres
      have hused : frameWidth (n * b) (used ++ rest).length ≤ used.length := by
        rw [List.length_append] at hres hwidth ⊢
        omega
      rw [List.drop_append_of_le_length hused] at h
      rw [frameLoop_frame _ (hlen' ▸ hblock) hroom, firstFrame_append hlen hused, hlen',
        List.drop_append_of_le_length hused]
      exact frameLoop_other_residue hlen h

end Sys2Proof.Machine
end

section
/-! PROOF. The bits left unread do not matter to the machine (R43, U5): a run takes the same elements from any buffers
that have the same bits as far as it reads. -/

namespace Sys2Proof.Machine

/-- The inflate buffer is the source of payload states alone (R200, R202). -/
def Tame (s : State) : Prop := s.src = .ib → headerKnown s.phase = true ∧ s.phase ≠ .pSelect

/-- Further on in the same source. -/
structure Further (s t : State) : Prop where
  src : t.src = s.src
  source : t.source = s.source
  limit : t.limit = s.limit
  cur_le : s.cur ≤ t.cur
  cur_le_limit : s.cur ≤ s.limit → t.cur ≤ t.limit

theorem Further.refl (s : State) : Further s s := ⟨rfl, rfl, rfl, le_rfl, id⟩

theorem Further.trans {s t u : State} (h : Further s t) (h' : Further t u) : Further s u :=
  ⟨h'.src.trans h.src, h'.source.trans h.source, h'.limit.trans h.limit, h.cur_le.trans h'.cur_le,
    fun hle => h'.cur_le_limit (h.cur_le_limit hle)⟩

theorem src_eq_sb_or_ib (s : State) : s.src = .sb ∨ s.src = .ib := by
  cases s.src with
  | sb => exact .inl rfl
  | ib => exact .inr rfl

section
variable {s t : State}

theorem Reads.further (h : Reads s t) (hstep : decoderStep s = .next t) : Further s t := by
  refine ⟨h.src, h.source hstep, h.limit, h.cur ▸ Nat.le_add_right _ _, fun hle => ?_⟩
  have hw := h.width_le
  unfold State.remaining at hw
  rw [h.cur, h.limit]
  omega

theorem Switched.src (h : Switched s t) : t.src = .ib := by
  obtain ⟨-, -, r, rfl⟩ := h
  rfl

theorem Tame.src_of_pSelect (h : Tame s) (hp : s.phase = .pSelect) : s.src = .sb :=
  (src_eq_sb_or_ib s).resolve_right fun hib => (h hib).2 hp

theorem Tame.decoderStep (h : Tame s) (hstep : decoderStep s = .next t) : Tame t := by
  rcases decoderStep_outcome hstep with ⟨-, rfl⟩ | ⟨e, pos, rfl⟩ | ⟨-, -, r, rfl⟩ | hreads
  · exact h
  · exact fun hib => nomatch hib
  · exact fun _ => ⟨rfl, by simp [State.switchSource]⟩
  · exact fun hib => hreads.onward.2.1 (h (hreads.src.symm.trans hib)).1

theorem silent_decoderStep (hsilent : s.hostTurns = []) (hstep : decoderStep s = .next t) : t.hostTurns = [] := by
  obtain ⟨-, -, -, hturns, -⟩ := hostSide_eq_iff.1 (hostSide_decoderStep hstep)
  exact hturns.trans hsilent

end

/-- One step of a silent run, and the rest of it. -/
theorem run_succ_silent {k : Nat} {s t : State} (hsilent : s.hostTurns = [])
    (hrun : Host.Core.run core (k + 1) s = .next t) :
    ∃ u, decoderStep s = .next u ∧ u.hostTurns = [] ∧ Host.Core.run core k u = .next t := by
  obtain ⟨u, hu, hrest⟩ := run_succ_eq_next (M := core) hrun
  have hstep : decoderStep s = .next u := (step_silent hsilent).symm.trans hu
  exact ⟨u, hstep, silent_decoderStep hsilent hstep, hrest⟩

/-- A silent run goes on in its source, unless it fails or leaves `SB` for `IB`. -/
theorem run_further {k : Nat} : ∀ {s t : State}, s.hostTurns = [] → Tame s → Host.Core.run core k s = .next t →
    t.phase = .error ∨ (s.src = .sb ∧ t.src = .ib) ∨ Further s t := by
  induction k with
  | zero =>
    intro s t _ _ hrun
    cases hrun
    exact .inr (.inr (.refl s))
  | succ k ih =>
    intro s t hsilent htame hrun
    obtain ⟨u, hu, hsilent', hrest⟩ := run_succ_silent hsilent hrun
    have hrec := ih hsilent' (htame.decoderStep hu) hrest
    rcases decoderStep_outcome hu with ⟨-, rfl⟩ | ⟨e, pos, rfl⟩ | hsw | hreads
    · exact hrec
    · rw [run_of_error k hsilent' rfl] at hrest
      cases hrest
      exact .inl rfl
    · rcases hrec with herr | ⟨hsb, -⟩ | hfar
      · exact .inl herr
      · rw [hsw.src] at hsb; cases hsb
      · exact .inr (.inl ⟨htame.src_of_pSelect hsw.1, hfar.src.trans hsw.src⟩)
    · rcases hrec with herr | ⟨hsb, hib⟩ | hfar
      · exact .inl herr
      · exact .inr (.inl ⟨hreads.src.symm.trans hsb, hib⟩)
      · exact .inr (.inr ((hreads.further hu).trans hfar))

/-- The first step of a run that does not fail or change its source: on in the source, its element's bits among those
that the run passes. -/
theorem step_of_run {k : Nat} {s u t : State} (hsilent : s.hostTurns = []) (htame : Tame s)
    (hstep : decoderStep s = .next u) (hrest : Host.Core.run core k u = .next t) (hok : t.phase ≠ .error)
    (hsrc : t.src = s.src) :
    ¬ Switched s u ∧ Further s u ∧ Further u t ∧ u.phase ≠ .hFmt ∧
      (elementWidth s.ctx = 0 ∨ s.cur + elementWidth s.ctx ≤ t.cur) := by
  have hsilent' := silent_decoderStep hsilent hstep
  have hfar := (run_further hsilent' (htame.decoderStep hstep) hrest).resolve_left hok
  have hnot (hsw : Switched s u) : False := by
    have hsb := htame.src_of_pSelect hsw.1
    rcases hfar with ⟨hsb', -⟩ | hfar
    · rw [hsw.src] at hsb'; cases hsb'
    · have hib := hfar.src
      rw [hsrc, hsw.src, hsb] at hib
      cases hib
  rcases decoderStep_outcome hstep with ⟨hquiet, rfl⟩ | ⟨e, pos, rfl⟩ | hsw | hreads
  · have hfar' : Further u t := hfar.resolve_left fun ⟨hsb, hib⟩ => by
      rw [hsrc, hsb] at hib; cases hib
    refine ⟨hnot, .refl u, hfar', ?_, .inl ?_⟩
    · rcases hquiet with hp | hp <;> simp [hp]
    · rcases hquiet with hp | hp <;> simp [elementWidth, hp]
  · rw [run_of_error k hsilent' rfl] at hrest
    cases hrest
    exact absurd rfl hok
  · exact absurd hsw hnot
  · have hfar' : Further u t := hfar.resolve_left fun ⟨hsb, hib⟩ => by
      rw [hsrc, ← hreads.src, hsb] at hib; cases hib
    exact ⟨hnot, hreads.further hstep, hfar', hreads.onward.1, .inr (hreads.cur ▸ hfar'.cur_le)⟩

/-- A run that does not fail or change its source, side by side with one from a state alike whose source has the same
bits as far as the run goes. -/
theorem run_alike {k : Nat} : ∀ {s s' t : State}, s.hostTurns = [] → Tame s → Alike s s' →
    s.build.grain = .perField ∨ (s.phase = .hFmt → s.cur + 6 ≤ t.cur) →
    Host.Core.run core k s = .next t → t.phase ≠ .error → t.src = s.src →
    (∀ i < t.cur, srcBit s'.source i = srcBit s.source i) →
    ∃ t', Host.Core.run core k s' = .next t' ∧ Alike t t' := by
  induction k with
  | zero =>
    intro s s' t _ _ halike _ hrun _ _ _
    cases hrun
    exact ⟨s', rfl, halike⟩
  | succ k ih =>
    intro s s' t hsilent htame halike hgrain hrun hok hsrc hbits
    obtain ⟨u, hu, hsilent', hrest⟩ := run_succ_silent hsilent hrun
    obtain ⟨hnot, hkeep, -, hphase, hread⟩ := step_of_run hsilent htame hu hrest hok hsrc
    have hfetch : s'.fetch = s.fetch := fetch_congr halike hbits (hgrain.imp_right fun h hp _ => h hp) (by omega)
    obtain ⟨u', hu', hcase⟩ := alike_decoderStep halike hfetch hu
    obtain rfl : u' = u.seat s' := hcase.elim And.right fun h => absurd h.1 hnot
    have hturns : s'.hostTurns = [] := by rw [halike]; exact hsilent
    obtain ⟨t', ht', h⟩ := ih (s' := u.seat s') hsilent' (htame.decoderStep hu) rfl (.inr fun hp => absurd hp hphase)
      hrest hok (hsrc.trans hkeep.src.symm) fun i hi => by
        rw [source_seat halike hkeep.src, hkeep.source]; exact hbits i hi
    exact ⟨t', (run_succ_of_step (M := core) k ((step_silent hturns).trans hu')).trans ht', h⟩

theorem alike_of_buffers {s s' : State} (h : s' = { s with sb := s'.sb, ib := s'.ib }) : Alike s s' := by
  obtain ⟨sb, ib, rfl⟩ : ∃ sb ib, s' = { s with sb := sb, ib := ib } := ⟨_, _, h⟩
  rfl

theorem Inv.tame {s : State} (hs : Inv s) : Tame s := by
  intro hib
  have hquiet : ¬ (s.phase = .idle ∨ s.phase = .error) := fun hp => by
    obtain ⟨-, -, hsb, -⟩ := hs.quiet hp
    rw [hib] at hsb; cases hsb
  have hheader : headerCursor s.dimBits s.phase = none := Option.eq_none_iff_forall_ne_some.2 fun n hn => by
    obtain ⟨hsb, -⟩ := hs.header_place n hn
    rw [hib] at hsb; cases hsb
  cases hp : s.phase <;> simp [hp, headerCursor, headerKnown] at hquiet hheader ⊢

/-- In the payload of `SB` the header's first six bits, with its `LEN`, are passed. -/
def PastLen (s : State) : Prop := headerKnown s.phase = true → s.src = .sb → 6 ≤ s.cur

theorem PastLen.decoderStep {s t : State} (hs : Inv s) (h : PastLen s) (hstep : decoderStep s = .next t) :
    PastLen t := by
  intro hknown hsb
  rcases decoderStep_outcome hstep with ⟨-, rfl⟩ | ⟨e, pos, rfl⟩ | hsw | hreads
  · exact h hknown hsb
  · cases hknown
  · rw [hsw.src] at hsb; cases hsb
  · rcases hreads.onward.2.2 hknown with hbefore | hp
    · exact (h hbefore (hreads.src.symm.trans hsb)).trans (hreads.further hstep).cur_le
    · obtain ⟨-, hcur, -⟩ := (inv_of_decoderStep hs hstep).header_place (6 + 2 * t.dimBits) (by rw [hp]; rfl)
      omega

theorem run_pastLen {k : Nat} : ∀ {s t : State}, Inv s → s.hostTurns = [] → PastLen s →
    Host.Core.run core k s = .next t → PastLen t := by
  induction k with
  | zero =>
    intro s t _ _ h hrun
    cases hrun
    exact h
  | succ k ih =>
    intro s t hs hsilent h hrun
    obtain ⟨u, hu, hsilent', hrest⟩ := run_succ_silent hsilent hrun
    exact ih (inv_of_decoderStep hs hu) hsilent' (h.decoderStep hs hu) hrest

/-- A whole header's `LEN` bits are among those that a run to `DONE` passes. -/
theorem len_of_run_to_done {k : Nat} {s t : State} (hs : Inv s) (hsilent : s.hostTurns = [])
    (hrun : Host.Core.run core k s = .next t) (hdone : t.phase = .done) (hsrc : t.src = s.src) (hp : s.phase = .hFmt) :
    s.cur + 6 ≤ t.cur := by
  obtain ⟨hsb, hcur, -⟩ := hs.header_place 0 (by rw [hp]; rfl)
  have hpast := run_pastLen hs hsilent (fun hknown => by rw [hp] at hknown; cases hknown) hrun
  have := hpast (by rw [hdone]; rfl) (hsrc.trans hsb)
  omega

/-! ## Two compressed streams -/

theorem Launched.tame {bytes : List Byte} {s : State} (h : Launched bytes s) : Tame s := fun hib => by
  rw [h.src] at hib; cases hib

theorem run_hostSide {k : Nat} : ∀ {s t : State}, s.hostTurns = [] → Host.Core.run core k s = .next t →
    t.hostSide = s.hostSide := by
  induction k with
  | zero =>
    intro s t _ hrun
    cases hrun
    rfl
  | succ k ih =>
    intro s t hsilent hrun
    obtain ⟨u, hu, hsilent', hrest⟩ := run_succ_silent hsilent hrun
    exact (ih hsilent' hrest).trans (hostSide_decoderStep hu)

theorem silent_run {k : Nat} {s t : State} (hsilent : s.hostTurns = []) (hrun : Host.Core.run core k s = .next t) :
    t.hostTurns = [] := by
  obtain ⟨-, -, -, hturns, -⟩ := hostSide_eq_iff.1 (run_hostSide hsilent hrun)
  exact hturns.trans hsilent

/-- Bytes cut from the same bits are the same. -/
theorem bytesOfBits_congr {c a : Nat} {bits bits' : List Bool}
    (h : ∀ i, a ≤ i → i < a + 8 * c → bits'[i]? = bits[i]?) :
    bytesOfBits c (bits'.drop a) = bytesOfBits c (bits.drop a) := by
  have htake : (bits'.drop a).take (8 * c) = (bits.drop a).take (8 * c) := by
    refine List.ext_getElem? fun i => ?_
    rcases Nat.lt_or_ge i (8 * c) with hi | hi
    · rw [List.getElem?_take_of_lt hi, List.getElem?_take_of_lt hi, List.getElem?_drop, List.getElem?_drop,
        h (a + i) (by omega) (by omega)]
    · have hlen (zs : List Bool) : (zs.take (8 * c)).length ≤ i := (List.length_take_le _ _).trans hi
      rw [List.getElem?_eq_none (hlen _), List.getElem?_eq_none (hlen _)]
  rw [← bytesOfBits_take le_rfl, htake, bytesOfBits_take le_rfl]

theorem run_tame {k : Nat} : ∀ {s t : State}, s.hostTurns = [] → Tame s → Host.Core.run core k s = .next t → Tame t := by
  induction k with
  | zero =>
    intro s t _ h hrun
    cases hrun
    exact h
  | succ k ih =>
    intro s t hsilent h hrun
    obtain ⟨u, hu, hsilent', hrest⟩ := run_succ_silent hsilent hrun
    exact ih hsilent' (h.decoderStep hu) hrest

/-- What a run leaves that has not failed, its source still `SB`: it goes on in `SB`. -/
theorem further_of_run {k : Nat} {s t : State} (hsilent : s.hostTurns = []) (htame : Tame s)
    (hrun : Host.Core.run core k s = .next t) (hok : t.phase ≠ .error) (hsb : t.src = .sb) : Further s t := by
  refine ((run_further hsilent htame hrun).resolve_left hok).resolve_left fun ⟨_, hib⟩ => ?_
  rw [hsb] at hib; cases hib

/-- A launched stream's state at `P_SELECT`: it is still read from its own bytes. -/
theorem Launched.at_pSelect {k : Nat} {bytes : List Byte} {s u : State} (h : Launched bytes s)
    (hrun : Host.Core.run core k s = .next u) (hp : u.phase = .pSelect) :
    u.src = .sb ∧ Further s u ∧ Holds u.source bytes ∧ u.limit = 8 * bytes.length ∧ u.cur ≤ u.limit := by
  have hsb := (run_tame h.silent h.tame hrun).src_of_pSelect hp
  have hfar := further_of_run h.silent h.tame hrun (by simp [hp]) hsb
  refine ⟨hsb, hfar, ?_, hfar.limit.trans h.limit, hfar.cur_le_limit (h.cur ▸ Nat.zero_le _)⟩
  rw [hfar.source, State.source_of_src_sb h.src]
  exact h.holds

/-- The whole compressed bytes are the same: the same element is handed to `Inflate`, and the runs are twins from its
answer on. -/
theorem twin_of_compressed {bytes bytes' : List Byte} {u u' v : State} (h : Alike u u') (hp : u.phase = .pSelect)
    (hc : u.cmp = 1) (hm : Holds u.source bytes) (hm' : Holds u'.source bytes') (hlimit : u.limit = 8 * bytes.length)
    (hlimit' : u.limit = 8 * bytes'.length) (hcur : u.cur ≤ u.limit)
    (hbits : ∀ i, u.cur + u.skip ≤ i → i < u.cur + u.skip + 8 * ((u.remaining - u.skip) / 8) →
      srcBit u'.source i = srcBit u.source i) (hstep : decoderStep u = .next v) :
    ∃ v', decoderStep u' = .next v' ∧ Twin v v' := by
  have hskip := State.skip_le hlimit hcur
  have hrem : u.remaining = u.limit - u.cur := rfl
  have hfetch := fetch_compressed hp hc hm hlimit hcur
  have hfetch' : u'.fetch = u.fetch := by
    have hsame : ∀ i, u.cur + u.skip ≤ i → i < u.cur + u.skip + 8 * ((u.remaining - u.skip) / 8) →
        (bitsOfBytes bytes')[i]? = (bitsOfBytes bytes)[i]? := fun i hge hlt => by
      rw [← srcBit_eq hm' (by omega), ← srcBit_eq hm (by omega), hbits i hge hlt]
    rw [hfetch, ← bytesOfBits_congr hsame]
    rw [h] at hm' ⊢
    exact fetch_compressed (s := u.seat u') hp hc hm' hlimit' hcur
  obtain ⟨v', hv', ⟨hnot, rfl⟩ | ⟨⟨-, -, r, rfl⟩, rfl⟩⟩ := alike_decoderStep h hfetch' hstep
  · refine ⟨_, hv', rfl, ?_⟩
    rw [decoderStep_of_fetch hfetch (by simp [hp])] at hstep
    obtain ⟨e, pos, rfl⟩ := (raised_or_switched_of_takeInflated hp hc hstep).resolve_right hnot
    exact fun i hi => absurd hi (Nat.not_lt_zero i)
  · exact ⟨_, hv', rfl, fun _ _ => rfl⟩

section
variable {bytes bytes' : List Byte} {s s' u : State} (h : Launched bytes s) (h' : Launched bytes' s')
  (halike : Alike s s') (hrun : Host.Core.run core 6 s = .next u) (hp : u.phase = .pSelect)
include h halike hrun hp

/-- Up to `P_SELECT` two streams with the same header are alike. -/
theorem alike_before_pSelect (hbits : ∀ i < u.cur, srcBit s'.source i = srcBit s.source i) {k : Nat} {t : State}
    (hle : k ≤ 6) (hk : Host.Core.run core k s = .next t) :
    ∃ t', Host.Core.run core k s' = .next t' ∧ Alike t t' := by
  obtain ⟨hsb, -⟩ := h.at_pSelect hrun hp
  have htu : Host.Core.run core (6 - k) t = .next u := by
    rw [← run_add_of_run (M := core) _ hk, Nat.add_sub_cancel' hle]
    exact hrun
  have hsilent := silent_run h.silent hk
  have hok : t.phase ≠ .error := fun herr => by
    rw [run_of_error _ hsilent herr] at htu
    cases htu
    rw [herr] at hp; cases hp
  have hrest := further_of_run hsilent (run_tame h.silent h.tame hk) htu (by simp [hp]) hsb
  have hfar := further_of_run h.silent h.tame hk hok (hrest.src.symm.trans hsb)
  exact run_alike h.silent h.tame halike (.inl h.grain) hk hok hfar.src fun i hi => hbits i (hi.trans_le hrest.cur_le)

include h'

/-- From `P_SELECT` on two streams with the same compressed bytes are twins. -/
theorem twin_after_pSelect (hc : u.cmp = 1)
    (hbits : ∀ i, i < u.cur ∨ (u.cur + u.skip ≤ i ∧ i < u.cur + u.skip + 8 * ((u.remaining - u.skip) / 8)) →
      srcBit s'.source i = srcBit s.source i) {j : Nat} {t : State}
    (hk : Host.Core.run core (6 + (j + 1)) s = .next t) :
    ∃ t', Host.Core.run core (6 + (j + 1)) s' = .next t' ∧ Twin t t' := by
  obtain ⟨-, hfar, hm, hlimit, hcur⟩ := h.at_pSelect hrun hp
  obtain ⟨u', hu', halike'⟩ := alike_before_pSelect h halike hrun hp (fun i hi => hbits i (.inl hi)) le_rfl hrun
  obtain ⟨-, hfar', hm', hlimit', -⟩ := h'.at_pSelect hu' ((phase_of_alike halike').trans hp)
  rw [run_add_of_run (M := core) _ hrun] at hk
  obtain ⟨v, hv, hvsilent, hrest⟩ := run_succ_silent (silent_run h.silent hrun) hk
  obtain ⟨v', hv', htwin⟩ := twin_of_compressed halike' hp hc hm hm' hlimit (by rw [← hlimit', halike']; rfl) hcur
    (fun i hge hlt => by rw [hfar.source, hfar'.source]; exact hbits i (.inr ⟨hge, hlt⟩)) hv
  obtain ⟨t', ht', htwin'⟩ := htwin.run (by rw [hvsilent]; exact fun _ ha => nomatch ha) hrest
  refine ⟨t', ?_, htwin'⟩
  rw [run_add_of_run (M := core) _ hu']
  exact (run_succ_of_step (M := core) j ((step_silent (silent_run h'.silent hu')).trans hv')).trans ht'

end

/-- Settles O39: the loop reads no bit of its residue; a run's steps read no bit past its last cursor; two compressed
streams with the same compressed bytes are twins after `Inflate`. -/
theorem residueBitsDoNotMatter : Obligations.ResidueBitsDoNotMatter := by
  refine ⟨fun mf b n used rest rest' frames _ h hlen => ?_,
    fun s s' t k hs _ hsilent hbuffers hrun hdone hsrc hbits => ?_,
    fun bytes bytes' s s' u h h' hbuffers hrun hp hc hbits k t hk => ?_⟩
  · have hlen' : (used ++ rest').length = (used ++ rest).length := by rw [List.length_append, List.length_append, hlen]
    rw [decodeFrames] at h ⊢
    rw [hlen']
    exact frameLoop_other_residue hlen h
  · obtain ⟨t', ht', halike⟩ := run_alike hsilent hs.tame (alike_of_buffers hbuffers)
      (.inr (len_of_run_to_done hs hsilent hrun hdone hsrc)) hrun (by simp [hdone]) hsrc hbits
    exact ⟨t', ht', observe_of_alike halike⟩
  · have halike := alike_of_buffers hbuffers
    rw [← State.source_of_src_sb h.src, ← State.source_of_src_sb h'.src] at hbits
    rcases Nat.lt_or_ge 6 k with hlong | hshort
    · obtain ⟨j, rfl⟩ : ∃ j, k = 6 + (j + 1) := ⟨k - 7, by omega⟩
      obtain ⟨t', ht', halike', -⟩ := twin_after_pSelect h h' halike hrun hp hc hbits hk
      exact ⟨t', ht', phase_of_alike halike', observe_of_alike halike'⟩
    · obtain ⟨t', ht', halike'⟩ := alike_before_pSelect h halike hrun hp (fun i hi => hbits i (.inl hi)) hshort hk
      exact ⟨t', ht', phase_of_alike halike', observe_of_alike halike'⟩

end Sys2Proof.Machine
end

section
/-! PROOF. The frame loop on what the reference encoder writes (R183), and on the pad after it (R181). -/

namespace Sys2Proof.Machine

/-- The frame that a decode of an encoded frame gives: with a duration, 0 where unset, if there are more than one. -/
def ImageFrame.decoded (many : Bool) (fr : ImageFrame) : Frame :=
  { pix := fr.pix, dur := if many then some (.ofNat 8 (fr.ticks.getD 0)) else none }

theorem Image.normalised_eq (img : Image) :
    img.normalised = img.frames.map (ImageFrame.decoded (decide (1 < img.frames.length))) := by
  simp [Image.normalised, ImageFrame.decoded]

theorem ImageFrame.valid_iff (fmt : Bit) (n : Nat) (fr : ImageFrame) : ImageFrame.valid fmt n fr = true ↔
    fr.pix.length = n ∧ (∀ c ∈ fr.pix, c.toNat < 2 ^ pixelBits fmt) ∧ fr.ticks.getD 0 ≤ 255 := by
  cases h : fr.ticks <;> simp [ImageFrame.valid, h, and_assoc]

/-- Pixel codes that fit their width, read back (R233). -/
theorem readCodes_flatMap {b : Nat} (ys : List Bool) : ∀ {pix : List Code}, (∀ c ∈ pix, c.toNat < 2 ^ b) →
    readCodes b pix.length (pix.flatMap (fun c => bitsOfNat b c.toNat) ++ ys) = pix
  | [], _ => rfl
  | c :: pix, h => by
    have hc : BitVec.ofNat 3 (natOfBits (bitsOfNat b c.toNat)) = c := by
      rw [natOfBits_bitsOfNat (h c (.head _)), BitVec.ofNat_toNat, BitVec.setWidth_eq]
    rw [List.flatMap_cons, List.append_assoc, List.length_cons, readCodes_succ, nextCode,
      List.take_left' (length_bitsOfNat ..), List.drop_left' (length_bitsOfNat ..), hc,
      readCodes_flatMap ys fun d hd => h d (.tail _ hd)]

theorem natOfBits_replicate_false (n : Nat) : natOfBits (List.replicate n false) = 0 := by
  induction n with
  | zero => rfl
  | succ n ih => rw [List.replicate_succ, natOfBits_cons, ih, Bool.toNat_false, Nat.zero_mul]

theorem readCodes_zeros (b : Nat) : ∀ {n p : Nat}, n * b ≤ p →
    readCodes b n (List.replicate p false) = List.replicate n 0
  | 0, _, _ => rfl
  | n + 1, p, h => by
    rw [Nat.succ_mul] at h
    rw [readCodes_succ, nextCode, List.take_replicate, natOfBits_replicate_false, List.drop_replicate,
      readCodes_zeros b (by omega)]
    rfl

section
variable {fmt : Bit} {n : Nat} (fuel : Nat) (acc : List Frame)

/-- A frame at the front, as the encoder writes it; without a duration, fewer bits follow than one takes. -/
theorem frameLoop_encoded_frame {many : Bool} {fr : ImageFrame} (hfr : ImageFrame.valid fmt n fr = true)
    {rest : List Bool} (hlast : many = true ∨ rest.length < 8) :
    frameLoop none (pixelBits fmt) n (fuel + 1) acc (encPixels fmt fr ++ encDur many fr ++ rest) =
      frameLoop none (pixelBits fmt) n fuel (acc ++ [fr.decoded many]) rest := by
  obtain ⟨hlen, hcodes, hticks⟩ := (ImageFrame.valid_iff ..).1 hfr
  have hblock : (encPixels fmt fr).length = n * pixelBits fmt := by rw [length_encPixels, hlen]
  have hpix (ys : List Bool) : readCodes (pixelBits fmt) n (encPixels fmt fr ++ ys) = fr.pix :=
    hlen ▸ readCodes_flatMap ys hcodes
  rw [List.append_assoc, frameLoop_frame fuel (by rw [List.length_append]; omega) (by simp)]
  cases many with
  | true =>
    have hticks' : natOfBits (bitsOfNat 8 (fr.ticks.getD 0)) = fr.ticks.getD 0 :=
      natOfBits_bitsOfNat (Nat.lt_succ_of_le hticks)
    have hbits : n * pixelBits fmt + 8 ≤ (encPixels fmt fr ++ (encDur true fr ++ rest)).length := by
      simp only [List.length_append, length_encDur, if_true]; omega
    rw [firstFrame_of_duration hbits, frameWidth_of_duration hbits, hpix, List.drop_left' hblock, ← List.drop_drop,
      List.drop_left' hblock]
    simp only [encDur, if_true, ImageFrame.decoded]
    rw [List.take_left' (length_bitsOfNat ..), List.drop_left' (length_bitsOfNat ..), hticks']
  | false =>
    have hshort : rest.length < 8 := hlast.resolve_left Bool.noConfusion
    have hbits : (encPixels fmt fr ++ (encDur false fr ++ rest)).length < n * pixelBits fmt + 8 := by
      simp [encDur, hblock]; omega
    rw [firstFrame_of_no_duration hbits, frameWidth_of_no_duration hbits, hpix, List.drop_left' hblock]
    rfl

end

/-- The pad's zero bits: whole blocks are all-zero frames (R181). -/
theorem frameLoop_pad {b n : Nat} (hpos : 1 ≤ n * b) : ∀ {fuel p : Nat} {acc : List Frame}, p < 8 → p < fuel →
    frameLoop none b n fuel acc (List.replicate p false) =
      some (acc ++ List.replicate (p / (n * b)) (zeroFrame n), List.replicate (p % (n * b)) false)
  | 0, _, _, _, h => absurd h (Nat.not_lt_zero _)
  | fuel + 1, p, acc, h8, hfuel => by
    rcases Nat.lt_or_ge p (n * b) with hstop | hblock
    · rw [frameLoop_stop _ _ (by rwa [List.length_replicate]), Nat.div_eq_of_lt hstop, Nat.mod_eq_of_lt hstop,
        List.replicate_zero, List.append_nil]
    · have hshort : (List.replicate p false).length < n * b + 8 := by rw [List.length_replicate]; omega
      rw [frameLoop_frame fuel (by rwa [List.length_replicate]) (by simp), firstFrame_of_no_duration hshort,
        frameWidth_of_no_duration hshort, readCodes_zeros b hblock, List.drop_replicate,
        frameLoop_pad hpos (by omega) (by omega), List.append_assoc, Nat.mod_eq_sub_mod hblock,
        Nat.div_eq_sub_div hpos hblock, List.replicate_succ]
      rfl

/-- Frames as the encoder writes them, then the pad. -/
theorem frameLoop_encoded {fmt : Bit} {n p : Nat} {many : Bool} (hpos : 1 ≤ n * pixelBits fmt) (hp : p < 8) :
    ∀ {frs : List ImageFrame} {fuel : Nat} {acc : List Frame}, (∀ fr ∈ frs, ImageFrame.valid fmt n fr = true) →
      many = true ∨ frs.length ≤ 1 →
      (frs.flatMap (fun fr => encPixels fmt fr ++ encDur many fr) ++ List.replicate p false).length < fuel →
      frameLoop none (pixelBits fmt) n fuel acc
          (frs.flatMap (fun fr => encPixels fmt fr ++ encDur many fr) ++ List.replicate p false) =
        some (acc ++ (frs.map (ImageFrame.decoded many) ++
            List.replicate (p / (n * pixelBits fmt)) (zeroFrame n)),
          List.replicate (p % (n * pixelBits fmt)) false)
  | [], fuel, acc, _, _, hfuel => frameLoop_pad hpos hp (by simpa using hfuel)
  | _ :: _, 0, _, _, _, hfuel => absurd hfuel (Nat.not_lt_zero _)
  | fr :: frs, fuel + 1, acc, hvalid, hmany, hfuel => by
    have hfr := hvalid fr (.head _)
    obtain ⟨hlen, -, -⟩ := (ImageFrame.valid_iff ..).1 hfr
    rw [List.flatMap_cons, List.append_assoc] at hfuel ⊢
    have hlast : many = true ∨
        (frs.flatMap (fun fr => encPixels fmt fr ++ encDur many fr) ++ List.replicate p false).length < 8 := by
      refine hmany.imp_right fun hone => ?_
      have hnil : frs = [] := List.eq_nil_of_length_eq_zero (by simpa using hone)
      simpa [hnil] using hp
    rw [frameLoop_encoded_frame fuel acc hfr hlast, frameLoop_encoded hpos hp (fun fr hfr => hvalid fr (.tail _ hfr))
      (hmany.imp_right fun hone => by rw [List.length_cons] at hone; omega) ?_, List.map_cons, List.append_assoc]
    · rfl
    · rw [List.length_append, List.length_append, length_encPixels, hlen] at hfuel
      omega

/-- Settles O37: frame by frame, then the pad; the fuel is one more than the bits. -/
theorem rawPayloadRoundTrip : Obligations.RawPayloadRoundTrip := by
  intro img p hvalid hp P
  obtain ⟨hw, -, hh, -, hframes⟩ := img.valid_iff.1 hvalid
  have hpos : 1 ≤ img.width * img.height * pixelBits img.fmt :=
    Nat.mul_pos (Nat.mul_pos hw hh) (pixelBits_pos _)
  have hmany : decide (1 < img.frames.length) = true ∨ img.frames.length ≤ 1 := by
    rw [decide_eq_true_eq]; omega
  rw [Image.normalised_eq, decodeFrames]
  exact frameLoop_encoded (acc := []) hpos hp hframes hmany (Nat.lt_succ_self _)

end Sys2Proof.Machine
end

section
/-! PROOF. An encoded image decoded by the machine (R183): the header's six steps, the payload, raw or handed back by
the inflate agent, and the frames observed. -/

namespace Sys2Proof.Machine

/-- The decode of an image's stream with `p` bits of pad after its raw payload: its frames, normalised, then the phantom
frames of the pad (R181, R183). -/
def Image.observed (img : Image) (cmp : Bit) (len : BitVec 4) (p : Nat) : Observation :=
  let P := img.width * img.height * pixelBits img.fmt
  .image img.fmt cmp len img.width img.height (img.frames.length + p / P)
    (img.normalised ++ List.replicate (p / P) (zeroFrame (img.width * img.height))) (p % P)

/-- The registers of an image's header. -/
structure HeaderIs (img : Image) (s : State) : Prop where
  fmt : s.fmt = img.fmt
  width : s.width.toNat = img.width
  height : s.height.toNat = img.height

section
variable {img : Image} {s : State}

/-- The payload's run, from the first `F_TEST` over the image's raw payload and a pad. -/
theorem run_rawPayload (hvalid : img.valid = true) (hs : Inv s) (hp : s.phase = .fTest) (hn : s.nframes = 0)
    (hsilent : s.hostTurns = []) (hmax : s.build.maxFrames = none) (hhdr : HeaderIs img s) {p : Nat} (h8 : p < 8)
    (hbits : s.unread = some (rawPayload img ++ List.replicate p false)) :
    ∃ k t, Host.Core.run core k s = .next t ∧ observe t = some (img.observed s.cmp s.len p) := by
  obtain ⟨k, hk⟩ := payloadRunIsDecodeFrames s _ hs hp hn hsilent hbits
  have hframes := rawPayloadRoundTrip img p hvalid h8
  rw [← hhdr.fmt, ← hhdr.width, ← hhdr.height, ← hmax] at hframes
  rw [hframes] at hk
  obtain ⟨t, ht, hdone, hfs, hnf, hrem, hkeep⟩ := hk
  refine ⟨k, t, ht, ?_⟩
  have hregs : t.fmt = s.fmt ∧ t.cmp = s.cmp ∧ t.len = s.len ∧ t.width = s.width ∧ t.height = s.height := by
    rw [hkeep]; exact ⟨rfl, rfl, rfl, rfl, rfl⟩
  obtain ⟨hfmt, hcmp, hlen, hwidth, hheight⟩ := hregs
  have hcount := hnf
  rw [List.length_append, List.length_replicate, Image.normalised_eq, List.length_map] at hcount
  have hall : t.fs.take t.nframes = t.fs := List.take_of_length_le (by rw [hfs, hnf])
  simp only [observe, hdone]
  rw [hall, hfs, hcount, hrem, List.length_replicate, hfmt, hcmp, hlen, hwidth, hheight, hhdr.fmt,
    hhdr.width, hhdr.height]
  rfl

theorem unread_of_holds {bytes : List Byte} (hm : Holds s.source bytes) (hlimit : s.limit = 8 * bytes.length)
    (hcur : s.cur ≤ s.limit) : s.unread = some ((bitsOfBytes bytes).drop s.cur) := by
  have hrem : s.remaining = s.limit - s.cur := rfl
  rw [State.unread, readBits_eq hm (by omega),
    List.take_of_length_le (by rw [List.length_drop, length_bitsOfBytes]; omega)]

theorem pad_lt_eight (n : Nat) : (8 - n % 8) % 8 < 8 := Nat.mod_lt _ (by decide)

/-- From the inflate agent's answer on (R202): the raw payload is read from bit 0 of `IB`. -/
theorem run_inflated (hvalid : img.valid = true) (hs : Inv s) (hp : s.phase = .fTest) (hsrc : s.src = .ib)
    (hcur : s.cur = 0) (hm : Holds s.ib (finishBytes (rawPayload img)))
    (hlimit : s.limit = 8 * (finishBytes (rawPayload img)).length) (hn : s.nframes = 0) (hsilent : s.hostTurns = [])
    (hmax : s.build.maxFrames = none) (hhdr : HeaderIs img s) :
    ∃ k t, Host.Core.run core k s = .next t ∧
      observe t = some (img.observed 1 s.len ((8 - (rawPayload img).length % 8) % 8)) := by
  have hbits := unread_of_holds ((State.source_of_src_ib hsrc).symm ▸ hm) hlimit (hcur ▸ Nat.zero_le _)
  rw [hcur, List.drop_zero, bitsOfBytes_finishBytes, padToByte] at hbits
  rw [← hs.source_compressed hsrc]
  exact run_rawPayload hvalid hs hp hn hsilent hmax hhdr (pad_lt_eight _) hbits

end

theorem run_inv {k : Nat} : ∀ {s t : State}, Inv s → Host.Core.run core k s = .next t → Inv t := by
  induction k with
  | zero =>
    intro s t hs hrun
    cases hrun
    exact hs
  | succ k ih =>
    intro s t hs hrun
    obtain ⟨u, hu, hrest⟩ := run_succ_eq_next (M := core) hrun
    exact ih (stepKeepsInvariants s u hs hu) hrest

/-- `Encode` accepts valid images alone (R230, R238). -/
theorem valid_of_encodeImage {img : Image} {deflate : List Byte → List Byte} {align : PayloadAlign} {lzw : Bool}
    {bytes : List Byte} (h : encodeImage deflate align img lzw = some bytes) :
    img.valid = true ∧ bytes = finishBytes (encHeader img lzw (canonicalL img.width img.height) ++
      encPayload deflate align img lzw (6 + 2 * canonicalL img.width img.height)) := by
  have hvalid : img.valid = true := by
    by_contra hnot
    simp [encodeImage, assemble, hnot] at h
  rw [encodeImage_of_valid hvalid] at h
  exact ⟨hvalid, (Option.some.inj h).symm⟩

/-- The stream's six header steps lead to `P_SELECT` with the image's registers, at the payload's first bit. -/
theorem run_encodedHeader {img : Image} (hvalid : img.valid = true) {lzw : Bool} {rest : List Bool} {s : State}
    (h : Launched (finishBytes (encHeader img lzw (canonicalL img.width img.height) ++ rest)) s) :
    ∃ u : State, Host.Core.run core 6 s = .next u ∧ u.phase = .pSelect ∧ u.cmp = BitVec.ofBool lzw ∧
      u.len = .ofNat 4 (canonicalL img.width img.height - 1) ∧ HeaderIs img u ∧
      u.cur = 6 + 2 * canonicalL img.width img.height := by
  obtain ⟨hw1, hw, hh1, hh, -⟩ := img.valid_iff.1 hvalid
  have hparse := headerRoundTrip.1 img lzw (canonicalL img.width img.height) rest hw1 hw hh1 hh le_rfl
    (canonicalL_le_sixteen hw hh)
  have hrun := headerRunIsParseHeader s _ h
  rw [hparse] at hrun
  obtain ⟨hrun, -⟩ := hrun
  have hdim {d : Nat} (hd : d ≤ 65536) : (BitVec.ofNat 17 d).toNat = d :=
    BitVec.toNat_ofNat .. ▸ Nat.mod_eq_of_lt (by omega)
  exact ⟨_, hrun, rfl, rfl, rfl, ⟨rfl, hdim hw, hdim hh⟩, rfl⟩

/-- A stream's bits after its first ones, with the pad to a byte (R238). -/
theorem drop_bitsOfBytes_finishBytes {xs : List Bool} {n : Nat} (hn : xs.length = n) (ys : List Bool) :
    (bitsOfBytes (finishBytes (xs ++ ys))).drop n = ys ++ List.replicate ((8 - (n + ys.length) % 8) % 8) false := by
  rw [bitsOfBytes_finishBytes, padToByte, List.append_assoc, List.drop_left' hn, List.length_append, hn]

/-- A launched stream with a raw payload runs to its image. -/
theorem run_encodedRaw {img : Image} (hvalid : img.valid = true) {s : State} (hs : Inv s)
    (h : Launched (finishBytes (encHeader img false (canonicalL img.width img.height) ++ rawPayload img)) s)
    (hmax : s.build.maxFrames = none) :
    let L := canonicalL img.width img.height
    ∃ k t, Host.Core.run core k s = .next t ∧
      observe t = some (img.observed 0 (.ofNat 4 (L - 1)) ((8 - (6 + 2 * L + (rawPayload img).length) % 8) % 8)) := by
  obtain ⟨u, hu, hp, hc, hlen, hhdr, hcur⟩ := run_encodedHeader hvalid h
  have hinv := run_inv hs hu
  have hsilent := silent_run h.silent hu
  obtain ⟨-, -, hm, hlimit, hle⟩ := h.at_pSelect hu hp
  obtain ⟨-, -, hn⟩ := hinv.header_place (6 + 2 * u.dimBits) (by rw [hp]; rfl)
  obtain ⟨-, -, hbuild, -⟩ := hostSide_eq_iff.1 (run_hostSide h.silent hu)
  have hstep : step u = .next { u with phase := .fTest } := step_pSelect_raw hsilent hp hc
  have hdrop := drop_bitsOfBytes_finishBytes (length_encHeader img false (canonicalL img.width img.height))
    (rawPayload img)
  have hbits := unread_of_holds (s := { u with phase := .fTest }) hm hlimit hle
  rw [← hcur] at hdrop
  obtain ⟨k, t, hk, ht⟩ := run_rawPayload (s := { u with phase := .fTest }) hvalid
    (stepKeepsInvariants u _ hinv hstep) rfl hn hsilent (hbuild ▸ hmax) ⟨hhdr.fmt, hhdr.width, hhdr.height⟩
    (pad_lt_eight _) (hbits.trans (congrArg some hdrop))
  refine ⟨6 + (k + 1), t, ?_, ?_⟩
  · rw [run_add_of_run (M := core) _ hu]
    exact (run_succ_of_step (M := core) k hstep).trans hk
  · rw [ht, ← hcur]
    exact congrArg₂ (fun c l => some (img.observed c l _)) hc hlen

/-- The compressed payload after a header is its bytes, past the bits that `P_SELECT` skips there (R203, R237). -/
theorem encPayload_compressed (deflate : List Byte → List Byte) (img : Image) (u : State) :
    encPayload deflate u.build.payloadAlign img true u.cur =
      List.replicate u.skip false ++ bitsOfBytes (deflate (finishBytes (rawPayload img))) := by
  cases halign : u.build.payloadAlign with
  | bitAdjacent => rw [State.skip_of_bitAdjacent halign]; rfl
  | byteAligned =>
    have hgap : (8 - u.cur % 8) % 8 = 8 * ((u.cur + 7) / 8) - u.cur := by omega
    rw [State.skip_of_byteAligned halign, ← hgap]
    rfl

/-- The agent is handed the bytes as the compressor gave them. -/
theorem step_compressed {xs : List Bool} {D bytes : List Byte} {u : State} (hp : u.phase = .pSelect) (hc : u.cmp = 1)
    (hsilent : u.hostTurns = []) (hxs : xs.length = u.cur)
    (hbytes : bytes = finishBytes (xs ++ (List.replicate u.skip false ++ bitsOfBytes D))) (hm : Holds u.source bytes)
    (hlimit : u.limit = 8 * bytes.length) (hle : u.cur ≤ u.limit) : step u = takeInflated (Config.inflate D) u := by
  have hlen := congrArg List.length hbytes
  have htotal := eight_mul_length_finishBytes (xs ++ (List.replicate u.skip false ++ bitsOfBytes D))
  simp only [List.length_append, List.length_replicate, length_bitsOfBytes, hxs] at htotal
  have hcount : (u.remaining - u.skip) / 8 = D.length := by unfold State.remaining; omega
  have hdrop := drop_bitsOfBytes_finishBytes (xs := xs ++ List.replicate u.skip false) (n := u.cur + u.skip)
    (by simp [hxs]) (bitsOfBytes D)
  rw [List.append_assoc, ← hbytes] at hdrop
  have hfetch := fetch_compressed hp hc hm hlimit hle
  rw [hcount, hdrop, bytesOfBits_bitsOfBytes] at hfetch
  rw [step_silent hsilent]
  exact decoderStep_of_fetch hfetch (by simp [hp])

/-- A launched stream with a compressed payload: the agent is handed the compressor's bytes, and on the payload as its
answer the run is that of the image. -/
theorem run_encodedCompressed {img : Image} {deflate : List Byte → List Byte} {bytes : List Byte} {s : State}
    (henc : encodeImage deflate s.build.payloadAlign img true = some bytes) (hs : Inv s) (h : Launched bytes s)
    (hmax : s.build.maxFrames = none) (hfits : 8 * (finishBytes (rawPayload img)).length < 2 ^ s.build.cursorW) :
    ∃ (u v t : State) (k : Nat), Host.Core.run core 6 s = .next u ∧
      step u = takeInflated (Config.inflate (deflate (finishBytes (rawPayload img)))) u ∧
      takeInflated (some (finishBytes (rawPayload img))) u = .next v ∧ Host.Core.run core k v = .next t ∧
      observe t = some (img.observed 1 (.ofNat 4 (canonicalL img.width img.height - 1))
        ((8 - (rawPayload img).length % 8) % 8)) := by
  obtain ⟨hvalid, hbytes⟩ := valid_of_encodeImage henc
  obtain ⟨u, hu, hp, hc, hlen, hhdr, hcur⟩ := run_encodedHeader hvalid (hbytes ▸ h)
  have hinv := run_inv hs hu
  have hsilent := silent_run h.silent hu
  obtain ⟨-, -, hm, hlimit, hle⟩ := h.at_pSelect hu hp
  obtain ⟨-, -, hn⟩ := hinv.header_place (6 + 2 * u.dimBits) (by rw [hp]; rfl)
  obtain ⟨-, -, hbuild, -⟩ := hostSide_eq_iff.1 (run_hostSide h.silent hu)
  rw [← hbuild] at hbytes hfits hmax
  rw [← hcur, encPayload_compressed] at hbytes
  obtain ⟨k, t, hk, ht⟩ := run_inflated (s := u.switchSource (finishBytes (rawPayload img))) hvalid
    (hinv.switchSource hp hc hfits) rfl rfl rfl (fun a _ => Memory.read_ofBytes _ a) rfl hn hsilent hmax
    ⟨hhdr.fmt, hhdr.width, hhdr.height⟩
  refine ⟨u, _, t, k, hu, ?_, takeInflated_fits hfits, hk, ?_⟩
  · exact step_compressed hp hc hsilent ((length_encHeader ..).trans hcur.symm) hbytes hm hlimit hle
  · rw [ht, ← hlen]
    rfl

/-- Settles O38: a raw stream, the state after the agent's answer, a compressed stream. -/
theorem encodedImageDecodes : Obligations.EncodedImageDecodes := by
  refine ⟨fun img deflate bytes s henc hs h hmax => ?_,
    fun img s hvalid hs hp hsrc hcur hm hlimit hn hsilent hmax hfmt hw hh =>
      run_inflated hvalid hs hp hsrc hcur hm hlimit hn hsilent hmax ⟨hfmt, hw, hh⟩,
    fun img deflate bytes s henc hs h hmax hfits => ?_⟩
  · obtain ⟨hvalid, rfl⟩ := valid_of_encodeImage henc
    exact run_encodedRaw hvalid hs h hmax
  · obtain ⟨u, v, t, k, hu, hstep, hv, hk, ht⟩ := run_encodedCompressed henc hs h hmax hfits
    refine ⟨u, v, t, k, hu, hstep, hv, hk, ht, fun hinflate => ?_⟩
    rw [hinflate, hv] at hstep
    have hcount : 7 + k = 6 + (k + 1) := by omega
    rw [hcount, run_add_of_run (M := core) _ hu]
    exact (run_succ_of_step (M := core) k hstep).trans hk

end Sys2Proof.Machine
end
